-- ==== Sys2Proof/Word.lean ====
section
/-! DEFINITION. The word types of the gpiomem block (00_scope.md R9). -/

namespace Sys2Proof

/-- A `u32`: the width of every register, working register, command word and response word
(00_scope.md R7, R9; 30_encoding.md R91). -/
abbrev Word := BitVec 32

/-- A bank byte: 8 bits (20_memory.md R50). -/
abbrev Byte := BitVec 8

end Sys2Proof
end

