-- ==== Sys2Proof/Syntax.lean ====
section
/-! DEFINITION. The seven commands of the block, as the abstract records of 30_encoding.md R90
(normative, from the source). An operand may hold an illegal value: the operation's rule says
which error that raises. -/

namespace Sys2Proof

/-- The commands (30_encoding.md R90). `order` is the `int8` order tag as its 8 bits (R95);
`none` in `values` of `dioWrrb` is `absent` (R98). -/
inductive Instr where
  /-- `RAW.READ offset, count, width, order`. -/
  | rawRead (offset count width : Word) (order : BitVec 8)
  /-- `RAW.WRITE offset, count, width, order, values`. -/
  | rawWrite (offset count width : Word) (order : BitVec 8) (values : List Word)
  /-- `FSEL.GET pins`. -/
  | fselGet (pins : List Word)
  /-- `FSEL.SET pins, codes`. -/
  | fselSet (pins codes : List Word)
  /-- `DIO.READ pins`. -/
  | dioRead (pins : List Word)
  /-- `DIO.WRRB pins, values`. -/
  | dioWrrb (pins : List Word) (values : List (Option Bool))
  /-- `SPI.BUILD len, extra_bits, txbase, rxbase, delay, speed`. -/
  | spiBuild (len : Word) (extraBits : BitVec 8) (txbase rxbase delay speed : Word)
  deriving DecidableEq, Repr

end Sys2Proof
end

