-- ==== Sys2Proof/WellFormed.lean ====
section
/-! DEFINITION. Which commands the word encoding can express: the width must fit the 8-bit field
`A` (30_encoding.md R94) and a sequence's length its 32-bit count word (R93, R96 to R98). -/

namespace Sys2Proof

/-- A sequence whose length fits a `u32` count word (30_encoding.md R93, R96 to R98). -/
def countFits {α : Type} (xs : List α) : Bool :=
  xs.length < 2 ^ 32

/-- A width operand that fits the 8-bit field `WIDTH` (30_encoding.md R94). -/
def widthFits (width : Word) : Bool :=
  width.toNat < 2 ^ 8

/-- The command can be written as command words (30_encoding.md R91 to R99). -/
def Instr.wellFormed : Instr → Bool
  | .rawRead _ _ width _ => widthFits width
  | .rawWrite _ _ width _ values => widthFits width && countFits values
  | .fselGet pins => countFits pins
  | .fselSet pins codes => countFits pins && countFits codes
  | .dioRead pins => countFits pins
  | .dioWrrb pins values => countFits pins && countFits values
  | .spiBuild _ _ _ _ _ _ => true

end Sys2Proof
end

