-- ==== Sys2Proof/Decode.lean ====
section
/-! DEFINITION. Command words to commands and back (30_encoding.md R91 to R99, R103, R104, R107),
and the spellings of R106. -/

namespace Sys2Proof

/-! ### The header (30_encoding.md R91) -/

/-- `OPC`: bits 7:0 of the header. -/
def fieldOpc (h : Word) : BitVec 8 := h.extractLsb' 0 8

/-- `A`: bits 15:8 of the header. -/
def fieldA (h : Word) : BitVec 8 := h.extractLsb' 8 8

/-- `B`: bits 23:16 of the header. -/
def fieldB (h : Word) : BitVec 8 := h.extractLsb' 16 8

/-- `RSV`: bits 31:24 of the header. -/
def fieldRsv (h : Word) : BitVec 8 := h.extractLsb' 24 8

/-- The header word with `RSV = 0` and the given `OPC`, `A`, `B`. -/
def header (opc a b : BitVec 8) : Word :=
  opc.setWidth 32 ||| (a.setWidth 32 <<< 8) ||| (b.setWidth 32 <<< 16)

/-- The opcodes of 30_encoding.md R92. -/
inductive Opcode where
  | rawRead
  | rawWrite
  | fselGet
  | fselSet
  | dioRead
  | dioWrrb
  | spiBuild
  deriving DecidableEq, Repr

/-- The numbers of 30_encoding.md R92. -/
def Opcode.code : Opcode → BitVec 8
  | .rawRead => 0x01
  | .rawWrite => 0x02
  | .fselGet => 0x10
  | .fselSet => 0x11
  | .dioRead => 0x20
  | .dioWrrb => 0x21
  | .spiBuild => 0x30

/-- The opcode map read the other way; every other value is illegal (30_encoding.md R92). -/
def opcodeOf (opc : BitVec 8) : Option Opcode :=
  if opc = 0x01 then some .rawRead
  else if opc = 0x02 then some .rawWrite
  else if opc = 0x10 then some .fselGet
  else if opc = 0x11 then some .fselSet
  else if opc = 0x20 then some .dioRead
  else if opc = 0x21 then some .dioWrrb
  else if opc = 0x30 then some .spiBuild
  else none

/-! ### Decoding -/

/-- Why a command is malformed (30_encoding.md R103). -/
inductive DecodeError where
  /-- `L < 1`. -/
  | empty
  /-- `OPC` is not one of the seven. -/
  | unknownOpcode
  /-- `RSV` is not 0. -/
  | reservedBits
  /-- `A` is not 0 in a format that defines it as 0. -/
  | fieldANotZero
  /-- `B` is not 0 in a format that defines it as 0. -/
  | fieldBNotZero
  /-- Too short to hold the count words (30_encoding.md R104). -/
  | tooShort
  /-- `L` is not the length 30_encoding.md R104 computes. -/
  | wrongLength
  deriving DecidableEq, Repr

/-- Format R (30_encoding.md R93): `L = 3`. -/
def decodeR (h : Word) : List Word → Except DecodeError Instr
  | [offset, count] => .ok (.rawRead offset count ((fieldA h).setWidth 32) (fieldB h))
  | _ => .error .wrongLength

/-- Format RW (30_encoding.md R93): `L = 4 + NV`. -/
def decodeRW (h : Word) : List Word → Except DecodeError Instr
  | offset :: count :: nv :: values =>
    if values.length = nv.toNat then
      .ok (.rawWrite offset count ((fieldA h).setWidth 32) (fieldB h) values)
    else .error .wrongLength
  | _ => .error .tooShort

/-- The words of a format P body (30_encoding.md R96): `NP` and then `NP` pins. -/
def decodeP : List Word → Except DecodeError (List Word)
  | np :: pins => if pins.length = np.toNat then .ok pins else .error .wrongLength
  | [] => .error .tooShort

/-- The words of a format PC or PV body (30_encoding.md R97, R98): two counts, then that many
pins, then that many paired operands. The sum is taken in the naturals (R104). -/
def decodePairs : List Word → Except DecodeError (List Word × List Word)
  | np :: nc :: ops =>
    if ops.length = np.toNat + nc.toNat then .ok (ops.take np.toNat, ops.drop np.toNat)
    else .error .wrongLength
  | _ => .error .tooShort

/-- One optional bool (30_encoding.md R98). -/
def decodeOptBool (v : Word) : Option Bool :=
  if v = 0xFFFFFFFF then none else if v = 0 then some false else some true

/-- Format S (30_encoding.md R99): `L = 6`. -/
def decodeS (h : Word) : List Word → Except DecodeError Instr
  | [len, txbase, rxbase, delay, speed] =>
    .ok (.spiBuild len (fieldA h) txbase rxbase delay speed)
  | _ => .error .wrongLength

/-- The formats that define `A` and `B` as 0 (30_encoding.md R96 to R98, R103). -/
def requireZeroAB {α : Type} (h : Word) (k : Except DecodeError α) : Except DecodeError α :=
  if fieldA h ≠ 0 then .error .fieldANotZero
  else if fieldB h ≠ 0 then .error .fieldBNotZero
  else k

/-- The body of a command by its opcode (30_encoding.md R92). -/
def decodeBody (op : Opcode) (h : Word) (body : List Word) : Except DecodeError Instr :=
  match op with
  | .rawRead => decodeR h body
  | .rawWrite => decodeRW h body
  | .fselGet => requireZeroAB h ((decodeP body).map .fselGet)
  | .fselSet => requireZeroAB h ((decodePairs body).map fun pc => .fselSet pc.1 pc.2)
  | .dioRead => requireZeroAB h ((decodeP body).map .dioRead)
  | .dioWrrb =>
    requireZeroAB h ((decodePairs body).map fun pv => .dioWrrb pv.1 (pv.2.map decodeOptBool))
  | .spiBuild => if fieldB h ≠ 0 then .error .fieldBNotZero else decodeS h body

/-- The decoder, total on any words: a command, or the reason it is malformed
(30_encoding.md R103). -/
def decode : List Word → Except DecodeError Instr
  | [] => .error .empty
  | h :: body =>
    match opcodeOf (fieldOpc h) with
    | none => .error .unknownOpcode
    | some op => if fieldRsv h ≠ 0 then .error .reservedBits else decodeBody op h body

/-! ### Encoding -/

/-- A sequence's length as its count word (30_encoding.md R93, R96 to R98). -/
def countWord {α : Type} (xs : List α) : Word := BitVec.ofNat 32 xs.length

/-- One optional bool as a word; `true` is written 1, as 30_encoding.md section 7 does
(R98 reads any other value but 0 and `0xFFFFFFFF` as `true` too). -/
def encodeOptBool : Option Bool → Word
  | none => 0xFFFFFFFF
  | some false => 0
  | some true => 1

/-- The words of a command (30_encoding.md R91 to R99). -/
def encode : Instr → List Word
  | .rawRead offset count width order =>
    [header Opcode.rawRead.code (width.setWidth 8) order, offset, count]
  | .rawWrite offset count width order values =>
    header Opcode.rawWrite.code (width.setWidth 8) order :: offset :: count ::
      countWord values :: values
  | .fselGet pins => header Opcode.fselGet.code 0 0 :: countWord pins :: pins
  | .fselSet pins codes =>
    header Opcode.fselSet.code 0 0 :: countWord pins :: countWord codes :: (pins ++ codes)
  | .dioRead pins => header Opcode.dioRead.code 0 0 :: countWord pins :: pins
  | .dioWrrb pins values =>
    header Opcode.dioWrrb.code 0 0 :: countWord pins :: countWord values ::
      (pins ++ values.map encodeOptBool)
  | .spiBuild len extraBits txbase rxbase delay speed =>
    [header Opcode.spiBuild.code extraBits 0, len, txbase, rxbase, delay, speed]

/-! ### A table row's bits as a command -/

/-- The expected length of a command (30_encoding.md R104), from its opcode and its words
`W[1]`, `W[2]`, `W[3]`. -/
def expectedLength (op : Opcode) (w1 w2 w3 : Word) : Nat :=
  match op with
  | .rawRead => 3
  | .rawWrite => 4 + w3.toNat
  | .fselGet => 2 + w1.toNat
  | .fselSet => 3 + w1.toNat + w2.toNat
  | .dioRead => 2 + w1.toNat
  | .dioWrrb => 3 + w1.toNat + w2.toNat
  | .spiBuild => 6

/-- Word `k` of an instruction whose bits are `w`, bit 0 the least significant bit of `W[0]`. -/
def tableWord (w k : Nat) : Word := BitVec.ofNat 32 (w >>> (32 * k))

/-- The command words of an instruction given as `nbits` bits `w`, every bit above them 0: as
many words as 30_encoding.md R104 asks for, and at least the words the bits fill. -/
def tableCommand (nbits w : Nat) : List Word :=
  let given := (nbits + 31) / 32
  let length := match opcodeOf (fieldOpc (tableWord w 0)) with
    | some op => max given (expectedLength op (tableWord w 1) (tableWord w 2) (tableWord w 3))
    | none => given
  (List.range length).map (tableWord w)

/-- The instruction the decoder reads from the bits `w` of a row of spec/opcode_table.json. -/
def decodeTableWord (nbits w : Nat) : Option Instr :=
  match decode (tableCommand nbits w) with
  | .ok i => some i
  | .error _ => none

/-! ### Pseudo-operations (30_encoding.md R106): spellings of real commands -/

/-- `DIO.PEEK [pins]`. -/
def Instr.dioPeek (pins : List Word) : Instr := .dioWrrb pins (pins.map fun _ => none)

/-- `DIO.HIGH [pins]`. -/
def Instr.dioHigh (pins : List Word) : Instr := .dioWrrb pins (pins.map fun _ => some true)

/-- `DIO.LOW [pins]`. -/
def Instr.dioLow (pins : List Word) : Instr := .dioWrrb pins (pins.map fun _ => some false)

/-- `FSEL.SET1 p, c`. -/
def Instr.fselSet1 (p c : Word) : Instr := .fselSet [p] [c]

/-- `RAW.READ32 offset`. -/
def Instr.rawRead32 (offset : Word) : Instr := .rawRead offset 1 4 0

/-- `RAW.WRITE32 offset, v`. -/
def Instr.rawWrite32 (offset v : Word) : Instr := .rawWrite offset 1 4 0 [v]

end Sys2Proof
end

