-- ==== Sys2Proof/Config.lean ====
section
/-! DEFINITION. The parameters of the block (00_scope.md R8) and its free values: the opaque
constants that stand for what the spec leaves open. Nothing can be proved of their values. -/

namespace Sys2Proof

/-- The byte order the tag `NATIVE` stands for: `P_NATIVE_ORDER` (00_scope.md R8). -/
inductive ByteOrder where
  | little
  | big
  deriving DecidableEq, Repr

/-- What stands behind the bank: `P_BANK_KIND` (00_scope.md R8; 20_memory.md R51, R52). -/
inductive BankKind where
  /-- A plain byte store. -/
  | mem
  /-- The device semantics of 10_state.md R29 to R33. -/
  | gpio
  deriving DecidableEq, Repr

/-- The open parameters of 00_scope.md R8. They are configuration: no step changes them
(10_state.md R26). -/
structure Params where
  /-- `P_BANK_SIZE`, in bytes. -/
  bankSize : Nat
  /-- `P_NATIVE_ORDER`. -/
  native : ByteOrder
  /-- `P_BANK_KIND`. -/
  kind : BankKind
  /-- `P_LOOPBACK`. -/
  loopback : Bool
  deriving DecidableEq, Repr

/-- The reference values of 00_scope.md R8; the kind is the convention of 95_test_vectors.md.
DESIGN CHOICE (notes/assumptions/1.md), unsafe: only `State.reset` uses it. -/
def Params.reference : Params :=
  { bankSize := 0x1000, native := .little, kind := .mem, loopback := false }

/-- The byte at an offset of a MEM-kind bank that nothing has written: the start-state parameter
of 10_state.md R41 ("A model must not assume zero"). Free value, safe (notes/assumptions/2.md). -/
opaque Config.startByte : Nat → Byte

/-- `FSELV[n]` at reset: a start-state parameter (10_state.md R41). DESIGN CHOICE
(notes/assumptions/3.md). -/
opaque Config.startFselv : Nat → Word

/-- `OUTV[r]` at reset, before bits of no pin are cleared: a start-state parameter
(10_state.md R41). DESIGN CHOICE (notes/assumptions/3.md). -/
opaque Config.startOutv : Nat → Word

/-- The answers of the pin-level oracle and the values read from write-only registers and
unnamed offsets of a GPIO-kind bank, one for each draw (10_state.md R32, R33). Free value, safe
(notes/assumptions/8.md). -/
opaque Config.draw : Nat → Word

end Sys2Proof
end

