-- ==== Sys2Proof/Machine/State.lean ====
section
/-! DEFINITION. The state of the block, its bank and its ports, as plain data
(10_state.md; 20_memory.md R50 to R52, R58, R64; 30_encoding.md R91, R100), the reasons a step can
stop, and the state after reset. -/

namespace Sys2Proof.Machine

/-- `SEQ` (10_state.md R21). -/
inductive Seq where
  /-- Accepts one command. -/
  | idle
  /-- Runs the accepted command; accepts none. -/
  | busy
  deriving DecidableEq, Repr

/-- The three access widths, 1, 2 and 4 bytes (00_scope.md R7, R11). -/
inductive AccessWidth where
  | w1
  | w2
  | w4
  deriving DecidableEq, Repr

/-- Reading or writing the bank. -/
inductive AccessKind where
  | read
  | write
  deriving DecidableEq, Repr

/-- One entry `(kind, addr, n, value)` of the access trace; `value` is the native-order value on
the bank port (20_memory.md R58). -/
structure Access where
  kind : AccessKind
  addr : Nat
  width : AccessWidth
  value : Word
  deriving DecidableEq, Repr

/-- One write of the bank by another agent: another master or a second block instance
(20_memory.md R64; 60_exceptions.md R231). -/
structure EnvWrite where
  addr : Nat
  width : AccessWidth
  value : Word
  deriving DecidableEq, Repr

/-- What the host does at the command port: sends one framed command (30_encoding.md R91), or
asserts reset between operations (70_reset_and_hazards.md R250). -/
inductive PortEvent where
  | command (words : List Word)
  | reset
  deriving DecidableEq, Repr

/-- The working registers (10_state.md R22). -/
structure WorkRegs where
  /-- `SNAPF[0..5]`. -/
  snapf : Vector Word 6
  /-- `SNAPL[0..1]`. -/
  snapl : Vector Word 2
  /-- `WM[0..5]`. -/
  wm : Vector Word 6
  /-- `VM[0..5]`. -/
  vm : Vector Word 6
  /-- `SM[0..1]`. -/
  sm : Vector Word 2
  /-- `CM[0..1]`. -/
  cm : Vector Word 2
  /-- `RES`. -/
  res : List Word
  deriving DecidableEq, Repr

/-- The working registers when they hold no value (10_state.md R23, R39). DESIGN CHOICE, unsafe
(notes/assumptions/4.md): zeros and the empty sequence stand for "no value". -/
def WorkRegs.dropped : WorkRegs :=
  { snapf := #v[0, 0, 0, 0, 0, 0], snapl := #v[0, 0], wm := #v[0, 0, 0, 0, 0, 0],
    vm := #v[0, 0, 0, 0, 0, 0], sm := #v[0, 0], cm := #v[0, 0], res := [] }

/-- The bytes of a MEM-kind bank that have been written, addresses strictly rising
(`Memory.wf`). A byte not listed has not been written since the start of the run. -/
abbrev Memory := List Host.Cell

/-- The machine. INVENTORY.md names the rule of each field. -/
structure State where
  /-- The parameters of 00_scope.md R8; never changed. -/
  cfg : Params
  /-- `SEQ` (10_state.md R21). -/
  seq : Seq
  /-- The words of the command being executed: an input (10_state.md R26). -/
  cmd : List Word
  /-- What the host has put on the command port and the block has not taken, first first. -/
  inbox : List PortEvent
  /-- The responses emitted on the response port, oldest first (30_encoding.md R100). -/
  outbox : List (List Word)
  /-- The working registers (10_state.md R22). -/
  work : WorkRegs
  /-- The bytes of a MEM-kind bank (20_memory.md R51). -/
  mem : Memory
  /-- `FSELV[0..5]` of a GPIO-kind bank (10_state.md R29). -/
  fselv : Vector Word 6
  /-- `OUTV[0..1]` of a GPIO-kind bank (10_state.md R30, R37). -/
  outv : Vector Word 2
  /-- The environment's writes still to come: the head is made before the block's next access
  (20_memory.md R64). The empty list is an environment that writes no more, which is the model's
choice for the state after reset (notes/assumptions/9.md). -/
  env : List (List EnvWrite)
  /-- How many draws have been answered (10_state.md R32, R33). -/
  draws : Nat
  /-- The access trace of the operation in progress or last ended (20_memory.md R58). -/
  trace : List Access
  deriving DecidableEq, Repr

/-- The machine's faults. Both guard what `MemRead` and `MemWrite` require
(20_memory.md R53, R54); no operation reaches them. -/
inductive Fault where
  /-- Raised by `memRead` and `memWrite` for an access that leaves the bank (20_memory.md R50).
  Safe: the model stops. -/
  | outsideBank (addr : Nat)
  /-- Raised by `memRead` and `memWrite` for an access with `addr % n` not 0 (20_memory.md R59).
  Safe: the model stops. -/
  | misalignedAccess (addr : Nat)
  deriving DecidableEq, Repr

/-- Why the machine gives a command no meaning (60_exceptions.md R222). All are safe: a claim
says nothing of a refused command. -/
inductive Refusal where
  /-- Raised by an arm of `exec` whose instruction has no meaning yet. Safe. -/
  | notModelled (mnemonic : String)
  /-- Raised by `RAW.READ` and `RAW.WRITE` when `offset % width` is not 0
  (40_raw_accessor.md R135 (a)). Safe. -/
  | misaligned
  /-- Raised by `RAW.WRITE` when a value of the span is too wide for its element
  (40_raw_accessor.md R135 (b)). Safe. -/
  | valueTooWide
  /-- Raised by the FSEL and DIO operations when the bank is smaller than `0x3C` bytes
  (20_memory.md R69). Safe. -/
  | bankTooSmall
  deriving DecidableEq, Repr

/-- The machine right after reset (10_state.md R39, R41; 70_reset_and_hazards.md R250): `SEQ` is
IDLE, the working registers hold no value, the bank holds its start-state parameters, the ports
are empty. The bits of `OUTV[1]` that belong to no pin are 0 (10_state.md R37). DESIGN CHOICE,
unsafe for a claim about the run from here (notes/assumptions/9.md): `env` starts as `[]`, so in
that run no other agent ever writes, where the spec gives the environment no schedule and lets it
write at any time (10_state.md R20; 20_memory.md R64). -/
def State.reset : State :=
  { cfg := Params.reference
    seq := .idle
    cmd := []
    inbox := []
    outbox := []
    work := WorkRegs.dropped
    mem := []
    fselv := #v[Config.startFselv 0, Config.startFselv 1, Config.startFselv 2,
      Config.startFselv 3, Config.startFselv 4, Config.startFselv 5]
    outv := #v[Config.startOutv 0, Config.startOutv 1 &&& 0x003FFFFF]
    env := []
    draws := 0
    trace := [] }

end Sys2Proof.Machine
end

