-- ==== Sys2Proof/Machine/Flags.lean ====
section
/-! DEFINITION. The block keeps no flag, condition code or sticky error bit (10_state.md R25): an
operation's outcome is carried only by its response. This file holds that outcome: the status
codes, `INFO`, and the response words (30_encoding.md R100; 60_exceptions.md R210). -/

namespace Sys2Proof.Machine

/-- The five errors (60_exceptions.md R210). -/
inductive Err where
  | invalidPin
  | invalidFunctionCode
  | arityMismatch
  | outOfRange
  | invalidArgument
  deriving DecidableEq, Repr

/-- How an operation ended: `OK` or one of the five errors (60_exceptions.md R210). -/
inductive Status where
  | ok
  | error (e : Err)
  deriving DecidableEq, Repr

/-- The `STATUS` numbers (30_encoding.md R100). -/
def Status.code : Status → BitVec 8
  | .ok => 0
  | .error .invalidPin => 1
  | .error .invalidFunctionCode => 2
  | .error .arityMismatch => 3
  | .error .outOfRange => 4
  | .error .invalidArgument => 5

/-- One response: how the operation ended, `INFO` (60_exceptions.md R213) and the result words
(30_encoding.md R100). -/
structure Response where
  status : Status
  info : BitVec 8
  results : List Word
  deriving DecidableEq, Repr

/-- `Q[0]`: bits 7:0 `STATUS`, bits 15:8 `INFO`, bits 31:16 zero (30_encoding.md R100). -/
def statusWord (st : Status) (info : BitVec 8) : Word :=
  st.code.setWidth 32 ||| (info.setWidth 32 <<< 8)

/-- The response words `Q[0], NRES`, results (30_encoding.md R100). -/
def Response.words (q : Response) : List Word :=
  statusWord q.status q.info :: BitVec.ofNat 32 q.results.length :: q.results

/-- The response of an operation that ends with `OK` (30_encoding.md R101). -/
def okResponse (results : List Word) : Response := { status := .ok, info := 0, results := results }

/-- The response of an operation that raises an error: no results (30_encoding.md R100;
60_exceptions.md R214). -/
def errorResponse (e : Err) (info : BitVec 8) : Response :=
  { status := .error e, info := info, results := [] }

end Sys2Proof.Machine
end

