-- ==== Sys2Proof/Machine/Operands.lean ====
section
/-! DEFINITION. Operand forms: widths and order tags (30_encoding.md R94, R95), byte order
(20_memory.md R53 to R56, R68), pins, function codes and field locations (10_state.md R34 to R36),
and the register map (10_state.md R27). -/

namespace Sys2Proof.Machine

/-! ### Widths and byte order -/

/-- How many bytes an access moves. -/
def AccessWidth.bytes : AccessWidth → Nat
  | .w1 => 1
  | .w2 => 2
  | .w4 => 4

/-- The legal widths 1, 2 and 4, in bytes (30_encoding.md R94; 40_raw_accessor.md R131). -/
def parseWidth (width : Word) : Option AccessWidth :=
  if width = 1 then some .w1
  else if width = 2 then some .w2
  else if width = 4 then some .w4
  else none

/-- The order tags (20_memory.md R55). -/
inductive OrderTag where
  | native
  | big
  | little
  deriving DecidableEq, Repr

/-- `NATIVE=0, BIG=1, LITTLE=-1`, the tag read as two's complement (30_encoding.md R95). -/
def parseOrder (order : BitVec 8) : Option OrderTag :=
  if order.toInt = 0 then some .native
  else if order.toInt = 1 then some .big
  else if order.toInt = -1 then some .little
  else none

/-- `eff(order)` (20_memory.md R55). -/
def OrderTag.effective (native : ByteOrder) : OrderTag → ByteOrder
  | .native => native
  | .big => .big
  | .little => .little

/-- `bswap_n(v)` for `v < 2^(8n)` (20_memory.md R56). -/
def bswap (w : AccessWidth) (v : Word) : Word :=
  match w with
  | .w1 => v
  | .w2 => ((v &&& 0xFF) <<< 8) ||| (v >>> 8)
  | .w4 => ((v &&& 0xFF) <<< 24) ||| ((v &&& 0xFF00) <<< 8) ||| ((v >>> 8) &&& 0xFF00) |||
      (v >>> 24)

/-- `conv(order, n, v)` (20_memory.md R56). -/
def convert (native : ByteOrder) (tag : OrderTag) (w : AccessWidth) (v : Word) : Word :=
  if w ≠ .w1 ∧ tag.effective native ≠ native then bswap w v else v

/-- A value that fits an element: `v < 2^(8n)` (20_memory.md R54; 40_raw_accessor.md R135). -/
def fitsWidth (w : AccessWidth) (v : Word) : Bool :=
  v.toNat < 2 ^ (8 * w.bytes)

/-- `b[0] + 2^8*b[1] + ...` (20_memory.md R53, LITTLE). -/
def joinLittle : List Byte → Word
  | [] => 0
  | b :: bs => b.setWidth 32 ||| (joinLittle bs <<< 8)

/-- The natural a read returns for the bytes at rising offsets (20_memory.md R53). -/
def joinBytes (native : ByteOrder) (bs : List Byte) : Word :=
  match native with
  | .little => joinLittle bs
  | .big => joinLittle bs.reverse

/-- `b[i] = (v >> 8i) & 0xFF` for `i < n` (20_memory.md R54, LITTLE). -/
def splitLittle (n : Nat) (v : Word) : List Byte :=
  (List.range n).map fun i => (v >>> (8 * i)).setWidth 8

/-- The bytes a write stores at rising offsets (20_memory.md R54). -/
def splitBytes (native : ByteOrder) (w : AccessWidth) (v : Word) : List Byte :=
  match native with
  | .little => splitLittle w.bytes v
  | .big => (splitLittle w.bytes v).reverse

/-! ### Byte lanes of a 32-bit device register (20_memory.md R68) -/

/-- The lowest bit of lanes `j .. j+n-1`: lane `j` is bits `8j+7 : 8j` for LITTLE and bits
`31-8j : 24-8j` for BIG (20_memory.md R68). -/
def laneShift (native : ByteOrder) (j : Nat) (w : AccessWidth) : Nat :=
  match native with
  | .little => 8 * j
  | .big => 32 - 8 * (j + w.bytes)

/-- The bits of an element of `n` bytes: `2^(8n) - 1`. -/
def widthMask : AccessWidth → Word
  | .w1 => 0xFF
  | .w2 => 0xFFFF
  | .w4 => 0xFFFFFFFF

/-- A narrow read: the addressed lanes of the register value (20_memory.md R68). -/
def readLanes (native : ByteOrder) (j : Nat) (w : AccessWidth) (v : Word) : Word :=
  (v >>> laneShift native j w) &&& widthMask w

/-- The value written, placed in the addressed lanes, 0 elsewhere (20_memory.md R68). -/
def placeLanes (native : ByteOrder) (j : Nat) (w : AccessWidth) (v : Word) : Word :=
  (v &&& widthMask w) <<< laneShift native j w

/-- A narrow write to a storage register replaces only the addressed lanes
(20_memory.md R68). -/
def replaceLanes (native : ByteOrder) (j : Nat) (w : AccessWidth) (old v : Word) : Word :=
  (old &&& ~~~(widthMask w <<< laneShift native j w)) ||| placeLanes native j w v

/-! ### Pins, codes and field locations -/

/-- A valid pin index: a natural below `NPINS = 54` (10_state.md R34; 00_scope.md R7). -/
abbrev Pin := Fin 54

/-- The pin an operand word names, if it is valid (10_state.md R34). -/
def parsePin (p : Word) : Option Pin :=
  if h : p.toNat < 54 then some ⟨p.toNat, h⟩ else none

/-- A batch of pins, if every one is valid (41_pinmux_codec.md R153). -/
def parsePins : List Word → Option (List Pin)
  | [] => some []
  | p :: ps =>
    match parsePin p, parsePins ps with
    | some q, some qs => some (q :: qs)
    | _, _ => none

/-- The function code an operand word holds, if it is valid: `c <= 7` (10_state.md R35). -/
def parseCode (c : Word) : Option (BitVec 3) :=
  if c.toNat ≤ 7 then some (c.setWidth 3) else none

/-- `fsel_reg(p) = p / 10` (10_state.md R36). -/
def fselReg (p : Pin) : Fin 6 := ⟨p.val / 10, by have := p.isLt; omega⟩

/-- `fsel_shift(p) = 3 * (p % 10)` (10_state.md R36). -/
def fselShift (p : Pin) : Nat := 3 * (p.val % 10)

/-- `bit_reg(p) = p / 32` (10_state.md R36). -/
def bitReg (p : Pin) : Fin 2 := ⟨p.val / 32, by have := p.isLt; omega⟩

/-- `bit_shift(p) = p % 32` (10_state.md R36). -/
def bitShift (p : Pin) : Nat := p.val % 32

/-- The extract step `code(v, p) = (v >> s) & 7` (41_pinmux_codec.md R152). -/
def codeAt (v : Word) (p : Pin) : Word := (v >>> fselShift p) &&& 7

/-- The bits of a pin's function-select field: `7 << s` (41_pinmux_codec.md R152). -/
def fieldMask (p : Pin) : Word := (7 : Word) <<< fselShift p

/-- A code in its pin's field: `c << s` (41_pinmux_codec.md R152). -/
def fieldValue (p : Pin) (c : BitVec 3) : Word := c.setWidth 32 <<< fselShift p

/-- The bit of a pin in its set, clear or level register: `1 << b` (42_dio_batch.md R172). -/
def bitMask (p : Pin) : Word := (1 : Word) <<< bitShift p

/-- A pin's level in a level register value: `(v >> b) & 1` (42_dio_batch.md R170). -/
def levelAt (v : Word) (p : Pin) : Word := (v >>> bitShift p) &&& 1

/-- The write of one affected register: `(old & ~WM) | (VM & WM)` (41_pinmux_codec.md R151). -/
def mergeField (old wm vm : Word) : Word := (old &&& ~~~wm) ||| (vm &&& wm)

/-- The eight function codes by name (10_state.md R35). -/
inductive FunctionCode where
  | input
  | output
  | alt5
  | alt4
  | alt0
  | alt1
  | alt2
  | alt3
  deriving DecidableEq, Repr

/-- The numbers of the function codes (10_state.md R35). -/
def FunctionCode.code : FunctionCode → BitVec 3
  | .input => 0
  | .output => 1
  | .alt5 => 2
  | .alt4 => 3
  | .alt0 => 4
  | .alt1 => 5
  | .alt2 => 6
  | .alt3 => 7

/-- The code `OUT` as a register field reads (10_state.md R35). -/
def codeOut : Word := FunctionCode.output.code.setWidth 32

/-! ### The register map (10_state.md R27) -/

/-- What a 32-bit word of a GPIO-kind bank is (10_state.md R27, R33). -/
inductive GpioReg where
  | fsel (n : Fin 6)
  | set (r : Fin 2)
  | clr (r : Fin 2)
  | lev (r : Fin 2)
  | unnamed
  deriving DecidableEq, Repr

/-- The register at a word-aligned offset (10_state.md R27; 20_memory.md R62): the twelve of R27's
quotation and table. DEDUCED, unsafe (notes/assumptions/24.md): R27 says fourteen and lists twelve;
the model has no other, so every other offset is unnamed (R33). -/
def gpioRegAt : Nat → GpioReg
  | 0x00 => .fsel 0
  | 0x04 => .fsel 1
  | 0x08 => .fsel 2
  | 0x0C => .fsel 3
  | 0x10 => .fsel 4
  | 0x14 => .fsel 5
  | 0x1C => .set 0
  | 0x20 => .set 1
  | 0x28 => .clr 0
  | 0x2C => .clr 1
  | 0x34 => .lev 0
  | 0x38 => .lev 1
  | _ => .unnamed

/-- `FSELr` stands at `4*r` (10_state.md R36). -/
def fselOffset (r : Fin 6) : Nat := 4 * r.val

/-- `SETr` stands at `0x1C + 4*r` (10_state.md R36). -/
def setOffset (r : Fin 2) : Nat := 0x1C + 4 * r.val

/-- `CLRr` stands at `0x28 + 4*r` (10_state.md R36). -/
def clrOffset (r : Fin 2) : Nat := 0x28 + 4 * r.val

/-- `LEVr` stands at `0x34 + 4*r` (10_state.md R36). -/
def levOffset (r : Fin 2) : Nat := 0x34 + 4 * r.val

/-- The bytes the FSEL and DIO units reach: `0x38 + 4` (20_memory.md R69). -/
def pinUnitSpan : Nat := 0x3C

/-- `VALID[r]`: the bits of a set, clear or level register that belong to a pin
(10_state.md R30). -/
def validMask (r : Fin 2) : Word := if r = 0 then 0xFFFFFFFF else 0x003FFFFF

end Sys2Proof.Machine
end

