-- ==== Sys2Proof/Machine/Ops.lean ====
section
/-! DEFINITION. The named operations over the bank, the working registers and the ports: the byte
store, device registers, `MemRead` and `MemWrite` (20_memory.md), the environment between two
accesses (R64), raising an error and responding (60_exceptions.md R214; 10_state.md R21), and the
monad the operations' pseudocode is written in (00_scope.md R11). -/

namespace Sys2Proof.Machine

/-! ### The byte store of a MEM-kind bank (20_memory.md R51) -/

/-- The byte last stored at an address, if any was. -/
def Memory.lookup : Memory → Nat → Option Byte
  | [], _ => none
  | (k, c) :: rest, a => if a = k then some c else Memory.lookup rest a

/-- Storing one byte keeps addresses strictly rising. -/
def Memory.store : Memory → Nat → Byte → Memory
  | [], a, b => [(a, b)]
  | (k, c) :: rest, a, b =>
    if a < k then (a, b) :: (k, c) :: rest
    else if a = k then (a, b) :: rest
    else (k, c) :: Memory.store rest a b

/-- The canonical form: addresses strictly rising. What an unlisted address holds is "never
written", which no entry can equal. -/
abbrev Memory.wf (m : Memory) : Prop := (m.map Prod.fst).Pairwise (· < ·)

/-- The byte at an offset: the one last stored, or the start-state byte (20_memory.md R51;
10_state.md R41). -/
def Memory.byteAt (m : Memory) (a : Nat) : Byte :=
  match m.lookup a with
  | some b => b
  | none => Config.startByte a

/-- The `n` bytes at rising offsets from `a`. -/
def Memory.bytesAt (m : Memory) : Nat → Nat → List Byte
  | _, 0 => []
  | a, n + 1 => m.byteAt a :: Memory.bytesAt m (a + 1) n

/-- Storing bytes at rising offsets from `a`. -/
def Memory.storeBytes (m : Memory) : Nat → List Byte → Memory
  | _, [] => m
  | a, b :: bs => Memory.storeBytes (m.store a b) (a + 1) bs

/-! ### The device registers of a GPIO-kind bank (10_state.md R29 to R33, R40) -/

/-- The pin of bit `b` of a set, clear or level register: `32r + b`, if there is such a pin
(10_state.md R30). -/
def pinAtBit (r : Fin 2) (b : Nat) : Option Pin :=
  if h : 32 * r.val + b < 54 then some ⟨32 * r.val + b, h⟩ else none

/-- The pin's function-select field holds `OUT` (10_state.md R40). -/
def State.pinIsOut (s : State) (p : Pin) : Bool :=
  codeAt s.fselv[fselReg p] p = codeOut

/-- Bit `b` of a read of `LEVr`: the latch bit where the loopback law says so (10_state.md R40),
the oracle's bit everywhere else (R32). -/
def State.levelBit (s : State) (r : Fin 2) (drawn : Word) (b : Nat) : Bool :=
  match pinAtBit r b with
  | some p =>
    if s.cfg.loopback && s.pinIsOut p then (s.outv[r]).getLsbD b else drawn.getLsbD b
  | none => drawn.getLsbD b

/-- The value of a read of `LEVr` (10_state.md R32, R40). -/
def State.levelValue (s : State) (r : Fin 2) (drawn : Word) : Word :=
  BitVec.ofFnLE fun b : Fin 32 => s.levelBit r drawn b.val

/-- One draw of the oracle: any `u32` (10_state.md R32, R33), and the state that has answered
it. -/
def State.drawn (s : State) : Word × State :=
  (Config.draw s.draws, { s with draws := s.draws + 1 })

/-- The 32-bit value a read of a device register returns (10_state.md R29, R32, R33). -/
def State.gpioRead (s : State) (reg : GpioReg) : Word × State :=
  match reg with
  | .fsel n => (s.fselv[n], s)
  | .lev r => (s.levelValue r s.drawn.1, s.drawn.2)
  | .set _ | .clr _ | .unnamed => s.drawn

/-- Replacing `FSELV[n]` (10_state.md R29). -/
def State.setFselv (s : State) (n : Fin 6) (v : Word) : State :=
  { s with fselv := s.fselv.set n v }

/-- Replacing `OUTV[r]` (10_state.md R30, R31). -/
def State.setOutv (s : State) (r : Fin 2) (v : Word) : State :=
  { s with outv := s.outv.set r v }

/-- A write of lanes `j ..` of a device register: `FSELn` replaces the lanes, `SETr` and `CLRr`
act as the 32-bit write of the placed mask, a write elsewhere changes nothing
(10_state.md R29 to R33; 20_memory.md R68). -/
def State.gpioWrite (s : State) (reg : GpioReg) (j : Nat) (w : AccessWidth) (v : Word) : State :=
  match reg with
  | .fsel n => s.setFselv n (replaceLanes s.cfg.native j w s.fselv[n] v)
  | .set r => s.setOutv r (s.outv[r] ||| (placeLanes s.cfg.native j w v &&& validMask r))
  | .clr r => s.setOutv r (s.outv[r] &&& ~~~(placeLanes s.cfg.native j w v &&& validMask r))
  | .lev _ | .unnamed => s

/-! ### The bank (20_memory.md R51 to R54, R68) -/

/-- The access lies in the bank (20_memory.md R50, R53). -/
def State.inBank (s : State) (addr : Nat) (w : AccessWidth) : Bool :=
  addr + w.bytes ≤ s.cfg.bankSize

/-- `addr % n = 0` (20_memory.md R59). -/
def aligned (addr : Nat) (w : AccessWidth) : Bool :=
  addr % w.bytes = 0

/-- What one read of the bank returns, and the state after it: only a draw changes anything
(20_memory.md R53, R61). -/
def State.bankRead (s : State) (addr : Nat) (w : AccessWidth) : Word × State :=
  match s.cfg.kind with
  | .mem => (joinBytes s.cfg.native (s.mem.bytesAt addr w.bytes), s)
  | .gpio =>
    let r := s.gpioRead (gpioRegAt (addr - addr % 4))
    (readLanes s.cfg.native (addr % 4) w r.1, r.2)

/-- The bank after one write (20_memory.md R54, R68). -/
def State.bankWrite (s : State) (addr : Nat) (w : AccessWidth) (v : Word) : State :=
  match s.cfg.kind with
  | .mem => { s with mem := s.mem.storeBytes addr (splitBytes s.cfg.native w v) }
  | .gpio => s.gpioWrite (gpioRegAt (addr - addr % 4)) (addr % 4) w v

/-! ### The environment (20_memory.md R64) -/

/-- One write of another agent, through the same bank; an ill-formed one is no access
(20_memory.md R53, R54). -/
def State.envWrite (s : State) (e : EnvWrite) : State :=
  if s.inBank e.addr e.width && aligned e.addr e.width then s.bankWrite e.addr e.width e.value
  else s

/-- The environment's writes of one gap, in order. -/
def State.envWrites (s : State) : List EnvWrite → State
  | [] => s
  | e :: es => State.envWrites (s.envWrite e) es

/-- The environment's turn before an access of the block (20_memory.md R64). -/
def State.envTurn (s : State) : State :=
  match s.env with
  | [] => s
  | gap :: rest => ({ s with env := rest }).envWrites gap

/-! ### Working registers (10_state.md R22) -/

/-- `SNAPF[r] <- v`. -/
def State.setSnapf (s : State) (r : Fin 6) (v : Word) : State :=
  { s with work := { s.work with snapf := s.work.snapf.set r v } }

/-- `SNAPL[r] <- v`. -/
def State.setSnapl (s : State) (r : Fin 2) (v : Word) : State :=
  { s with work := { s.work with snapl := s.work.snapl.set r v } }

/-- `WM[0..5] <- 0 ; VM[0..5] <- 0` (41_pinmux_codec.md R151 step 2). -/
def State.clearFselMasks (s : State) : State :=
  { s with work := { s.work with wm := #v[0, 0, 0, 0, 0, 0], vm := #v[0, 0, 0, 0, 0, 0] } }

/-- `WM[r] <- WM[r] | (7 << s) ; VM[r] <- VM[r] | (c << s)` (41_pinmux_codec.md R152). -/
def State.accumulateCode (s : State) (p : Pin) (c : BitVec 3) : State :=
  { s with work := { s.work with
      wm := s.work.wm.set (fselReg p) (s.work.wm[fselReg p] ||| fieldMask p)
      vm := s.work.vm.set (fselReg p) (s.work.vm[fselReg p] ||| fieldValue p c) } }

/-- `SM[0..1] <- 0 ; CM[0..1] <- 0` (42_dio_batch.md R171 step 3). -/
def State.clearDioMasks (s : State) : State :=
  { s with work := { s.work with sm := #v[0, 0], cm := #v[0, 0] } }

/-- The mask step of 42_dio_batch.md R172: `true` sets the pin's bit in `SM`, `false` in `CM`,
`absent` in neither. -/
def State.accumulateLevel (s : State) (p : Pin) (v : Option Bool) : State :=
  match v with
  | none => s
  | some true =>
    { s with work := { s.work with
        sm := s.work.sm.set (bitReg p) (s.work.sm[bitReg p] ||| bitMask p) } }
  | some false =>
    { s with work := { s.work with
        cm := s.work.cm.set (bitReg p) (s.work.cm[bitReg p] ||| bitMask p) } }

/-- `RES <- []`. -/
def State.clearRes (s : State) : State :=
  { s with work := { s.work with res := [] } }

/-- `RES <- RES ++ [v]`. -/
def State.appendRes (s : State) (v : Word) : State :=
  { s with work := { s.work with res := s.work.res ++ [v] } }

/-! ### Accepting a command, responding, raising (10_state.md R21; 60_exceptions.md R214) -/

/-- The end of every operation: one response on the response port, the working registers
dropped, `SEQ <- IDLE` (10_state.md R21, R23; 60_exceptions.md R214, R219). -/
def State.finish (s : State) (q : Response) : State :=
  { s with seq := .idle, cmd := [], work := WorkRegs.dropped, outbox := s.outbox ++ [q.words] }

/-- `raise E(info)`: taking the error. Accesses already made stay made; nothing is saved and
there is no handler (60_exceptions.md R214). There is no return from it: the block is IDLE again
(R219). -/
def State.raise (s : State) (e : Err) (info : BitVec 8) : State :=
  s.finish (errorResponse e info)

/-- `respond OK, res` (00_scope.md R11). -/
def State.respondOk (s : State) (results : List Word) : State :=
  s.finish (okResponse results)

/-- A malformed command raises `InvalidArgument` before any bank access and before any other
check (30_encoding.md R103; 60_exceptions.md R216 (c)). -/
def State.raiseMalformed (s : State) : State :=
  s.raise .invalidArgument 0

/-- BUSY with a command to run (10_state.md R21). -/
def State.holdCommand (s : State) (words : List Word) : State :=
  { s with seq := .busy, cmd := words }

/-- IDLE to BUSY: the command is accepted and its access trace begins empty (10_state.md R21;
20_memory.md R58). -/
def State.accept (s : State) (words : List Word) : State :=
  ({ s with trace := [] }).holdCommand words

/-- The reset event between operations: `SEQ` is IDLE, the working registers hold no value, the
bank is untouched and no access is made (10_state.md R39; 70_reset_and_hazards.md R250). -/
def State.resetEvent (s : State) : State :=
  { s with seq := .idle, cmd := [], work := WorkRegs.dropped }

/-- What an IDLE block does with the next thing on the command port; with nothing there it waits
(10_state.md R21, R24; 70_reset_and_hazards.md R250). -/
def State.portStep (s : State) : State :=
  match s.inbox with
  | [] => s
  | .command words :: rest => ({ s with inbox := rest }).accept words
  | .reset :: rest => ({ s with inbox := rest }).resetEvent

/-! ### The pseudocode's monad (00_scope.md R11) -/

/-- Why an operation's pseudocode ends before its last line. -/
inductive Stop where
  /-- `raise E(info)` (60_exceptions.md R214). -/
  | raise (e : Err) (info : BitVec 8)
  /-- The model gives the command no meaning (60_exceptions.md R222). -/
  | refuse (r : Refusal)
  /-- An access the bank does not have (20_memory.md R53, R54). -/
  | fault (f : Fault)
  deriving DecidableEq, Repr

/-- Pseudocode: each line runs after the line before it has finished (00_scope.md R11), and a
stop keeps the state reached, so accesses made stay made (60_exceptions.md R214). -/
abbrev Op := EStateM Stop State

/-- `raise E(info)` in pseudocode. -/
def raiseErr {α : Type} (e : Err) (info : BitVec 8) : Op α := fun s => .error (.raise e info) s

/-- The refusals of 60_exceptions.md R222 in pseudocode. -/
def refuse {α : Type} (r : Refusal) : Op α := fun s => .error (.refuse r) s

/-- A change of state in pseudocode, such as `WM[r] <- v`. -/
def update (f : State → State) : Op Unit := fun s => .ok () (f s)

/-- The configuration and the registers, as pseudocode reads them. -/
def readState : Op State := fun s => .ok s s

/-- One access recorded in the trace (20_memory.md R58). -/
def State.record (s : State) (kind : AccessKind) (addr : Nat) (w : AccessWidth) (v : Word) :
    State :=
  { s with trace := s.trace ++ [{ kind := kind, addr := addr, width := w, value := v }] }

/-- `MemRead(addr, n)`: one access, after the environment's turn (20_memory.md R53, R58, R63,
R64). -/
def memRead (addr : Nat) (w : AccessWidth) : Op Word := fun s =>
  if s.inBank addr w then
    if aligned addr w then
      let r := s.envTurn.bankRead addr w
      .ok r.1 (r.2.record .read addr w r.1)
    else .error (.fault (.misalignedAccess addr)) s
  else .error (.fault (.outsideBank addr)) s

/-- `MemWrite(addr, n, v)`: one access, after the environment's turn (20_memory.md R54, R58,
R63, R64). -/
def memWrite (addr : Nat) (w : AccessWidth) (v : Word) : Op Unit := fun s =>
  if s.inBank addr w then
    if aligned addr w then
      .ok () ((s.envTurn.bankWrite addr w v).record .write addr w v)
    else .error (.fault (.misalignedAccess addr)) s
  else .error (.fault (.outsideBank addr)) s

/-- One command from its first line to its response (10_state.md R21): the pseudocode returns the
results of `respond OK, res`. -/
def runOp (op : Op (List Word)) (s : State) : Host.Outcome State Fault Refusal :=
  match op s with
  | .ok results t => .next (t.respondOk results)
  | .error (.raise e info) t => .next (t.raise e info)
  | .error (.refuse r) _ => .refused r
  | .error (.fault f) _ => .fault f

/-! ### Shared checks of the pin units -/

/-- The pin units need a bank of at least `0x3C` bytes (20_memory.md R69). DEDUCED, safe
(notes/assumptions/12.md): tested before anything else. -/
def requirePinBank : Op Unit := fun s =>
  if pinUnitSpan ≤ s.cfg.bankSize then .ok () s else .error (.refuse .bankTooSmall) s

/-- The pin pre-pass (41_pinmux_codec.md R153). -/
def checkPins (pins : List Word) : Op (List Pin) :=
  match parsePins pins with
  | some ps => pure ps
  | none => raiseErr .invalidPin 0

end Sys2Proof.Machine
end

