-- ==== Sys2Proof/Machine/Dio.lean ====
section
/-! DEFINITION. The DIO unit: `DIO.READ` and `DIO.WRRB` (42_dio_batch.md R170 to R177). -/

namespace Sys2Proof.Machine

/-- `SNAPL[0] <- MemRead(0x34, 4) ; SNAPL[1] <- MemRead(0x38, 4)` (42_dio_batch.md R170, R171),
afresh in every operation (R174). -/
def loadSnapl : Op Unit := do
  let v0 ← memRead (levOffset 0) .w4
  update fun s => s.setSnapl 0 v0
  let v1 ← memRead (levOffset 1) .w4
  update fun s => s.setSnapl 1 v1

/-- A pin's level from the snapshot, appended to `RES` (42_dio_batch.md R170, R171). -/
def appendLevel (p : Pin) : Op Unit :=
  update fun s => s.appendRes (levelAt s.work.snapl[bitReg p] p)

/-- Step 3 of 42_dio_batch.md R170: one level per pin, in order. -/
def gatherLevels : List Pin → Op Unit
  | [] => pure ()
  | p :: ps => do
    appendLevel p
    gatherLevels ps

/-- Step 3 of 42_dio_batch.md R171: the masks and the prior levels, in order; surplus values are
ignored. -/
def scanLevels : List Pin → List (Option Bool) → Op Unit
  | [], _ => pure ()
  | _ :: _, [] => raiseErr .arityMismatch 0
  | p :: ps, v :: vs => do
    update fun s => s.accumulateLevel p v
    appendLevel p
    scanLevels ps vs

/-- `assert_bits(r, m)`: the single access to `SETr` (42_dio_batch.md R173). -/
def assertBits (r : Fin 2) (m : Word) : Op Unit := memWrite (setOffset r) .w4 m

/-- `deassert_bits(r, m)`: the single access to `CLRr` (42_dio_batch.md R173). -/
def deassertBits (r : Fin 2) (m : Word) : Op Unit := memWrite (clrOffset r) .w4 m

/-- `if m != 0: ...`: a zero mask is never written (42_dio_batch.md R171). -/
def unlessZero (m : Word) (write : Word → Op Unit) : Op Unit :=
  if m ≠ 0 then write m else pure ()

/-- Step 4 of 42_dio_batch.md R171: set before clear, register 0 before 1. -/
def applyLevels : Op Unit := do
  let s ← readState
  unlessZero s.work.sm[(0 : Fin 2)] (assertBits 0)
  unlessZero s.work.sm[(1 : Fin 2)] (assertBits 1)
  unlessZero s.work.cm[(0 : Fin 2)] (deassertBits 0)
  unlessZero s.work.cm[(1 : Fin 2)] (deassertBits 1)

/-- `DIO.READ pins` (42_dio_batch.md R170). -/
def execDioRead (pins : List Word) (s : State) : Host.Outcome State Fault Refusal :=
  runOp (do
    requirePinBank
    let ps ← checkPins pins
    loadSnapl
    update State.clearRes
    gatherLevels ps
    return (← readState).work.res) s

/-- `DIO.WRRB pins, values` (42_dio_batch.md R171). -/
def execDioWrrb (pins : List Word) (values : List (Option Bool)) (s : State) :
    Host.Outcome State Fault Refusal :=
  runOp (do
    requirePinBank
    let ps ← checkPins pins
    loadSnapl
    update State.clearDioMasks
    update State.clearRes
    scanLevels ps values
    applyLevels
    return (← readState).work.res) s

end Sys2Proof.Machine
end

