-- ==== Sys2Proof/Machine/Fsel.lean ====
section
/-! DEFINITION. The FSEL unit: `FSEL.GET` and `FSEL.SET` (41_pinmux_codec.md R150 to R157). -/

namespace Sys2Proof.Machine

/-- The function-select registers in ascending order (41_pinmux_codec.md R150, R151). -/
def fselRegs : List (Fin 6) := [0, 1, 2, 3, 4, 5]

/-- Step 2 of 41_pinmux_codec.md R150: `SNAPF[r] <- MemRead(4*r, 4)` for each register. -/
def loadSnapf : List (Fin 6) → Op Unit
  | [] => pure ()
  | r :: rs => do
    let v ← memRead (fselOffset r) .w4
    update fun s => s.setSnapf r v
    loadSnapf rs

/-- Step 3 of 41_pinmux_codec.md R150: one code per pin from the snapshot, in order. -/
def gatherCodes : List Pin → Op Unit
  | [] => pure ()
  | p :: ps => do
    update fun s => s.appendRes (codeAt s.work.snapf[fselReg p] p)
    gatherCodes ps

/-- Steps 3 and 4 of 41_pinmux_codec.md R151: the masks, with the arity and code checks in
position order and surplus codes last. -/
def scanCodes : List Pin → List Word → Op Unit
  | [], [] => pure ()
  | [], _ :: _ => raiseErr .arityMismatch 1
  | _ :: _, [] => raiseErr .arityMismatch 0
  | p :: ps, c :: cs =>
    match parseCode c with
    | none => raiseErr .invalidFunctionCode 0
    | some code => do
      update fun s => s.accumulateCode p code
      scanCodes ps cs

/-- One register of step 5 of 41_pinmux_codec.md R151: a read-modify-write, or nothing where the
write-mask is zero. -/
def applyFselReg (r : Fin 6) : Op Unit := do
  let s ← readState
  if s.work.wm[r] ≠ 0 then
    let old ← memRead (fselOffset r) .w4
    memWrite (fselOffset r) .w4 (mergeField old s.work.wm[r] s.work.vm[r])
  else pure ()

/-- Step 5 of 41_pinmux_codec.md R151. -/
def applyFsel : List (Fin 6) → Op Unit
  | [] => pure ()
  | r :: rs => do
    applyFselReg r
    applyFsel rs

/-- `FSEL.GET pins` (41_pinmux_codec.md R150). -/
def execFselGet (pins : List Word) (s : State) : Host.Outcome State Fault Refusal :=
  runOp (do
    requirePinBank
    let ps ← checkPins pins
    loadSnapf fselRegs
    update State.clearRes
    gatherCodes ps
    return (← readState).work.res) s

/-- `FSEL.SET pins, codes` (41_pinmux_codec.md R151). -/
def execFselSet (pins codes : List Word) (s : State) : Host.Outcome State Fault Refusal :=
  runOp (do
    requirePinBank
    let ps ← checkPins pins
    update State.clearFselMasks
    scanCodes ps codes
    applyFsel fselRegs
    return []) s

end Sys2Proof.Machine
end

