-- ==== Sys2Proof/Machine/Raw.lean ====
section
/-! DEFINITION. The RAW unit: `RAW.READ` and `RAW.WRITE` (40_raw_accessor.md R130 to R135). -/

namespace Sys2Proof.Machine

/-- The argument check, before any other (40_raw_accessor.md R131): the tag is checked also when
the width is 1. -/
def checkRawArgs (width : Word) (order : BitVec 8) : Op (AccessWidth × OrderTag) :=
  match parseWidth width, parseOrder order with
  | some w, some tag => pure (w, tag)
  | _, _ => raiseErr .invalidArgument 0

/-- The bounds check of `RAW.READ`, in the naturals (40_raw_accessor.md R130). -/
def readInBounds (size : Nat) (offset count : Word) (w : AccessWidth) : Bool :=
  offset.toNat < size && w.bytes * count.toNat ≤ size - offset.toNat

/-- The bounds check of `RAW.WRITE`: the first element only, whatever `count` is
(40_raw_accessor.md R130). -/
def writeInBounds (size : Nat) (offset : Word) (w : AccessWidth) : Bool :=
  offset.toNat < size && w.bytes ≤ size - offset.toNat

/-- Every value of the span fits its element: `values[i] < 2^(8*width)` for
`i < min(count, len(values))` (40_raw_accessor.md R135 (b)). -/
def valuesFit (w : AccessWidth) (count : Nat) (values : List Word) : Bool :=
  (values.take count).all (fitsWidth w)

/-- `OutOfRange` unless the bounds hold (40_raw_accessor.md R130). -/
def checkBounds (inBounds : Bool) : Op Unit :=
  if inBounds then pure () else raiseErr .outOfRange 0

/-- A refusal unless the admission condition holds (40_raw_accessor.md R135). -/
def admitIf (r : Refusal) (condition : Bool) : Op Unit :=
  if condition then pure () else refuse r

/-- Step 5 of 40_raw_accessor.md R132: `n` elements from offset `a`, ascending. -/
def rawReadLoop (w : AccessWidth) (tag : OrderTag) : Nat → Nat → Op Unit
  | _, 0 => pure ()
  | a, n + 1 => do
    let raw ← memRead a w
    update fun s => s.appendRes (convert s.cfg.native tag w raw)
    rawReadLoop w tag (a + w.bytes) n

/-- Step 4 of 40_raw_accessor.md R133: `n` elements from offset `a`, ascending, until the values
run out or the span leaves the bank. -/
def rawWriteLoop (w : AccessWidth) (tag : OrderTag) : Nat → Nat → List Word → Op Unit
  | _, 0, _ => pure ()
  | _, _ + 1, [] => raiseErr .outOfRange 0
  | a, n + 1, v :: values => do
    let s ← readState
    checkBounds (s.inBank a w)
    memWrite a w (convert s.cfg.native tag w v)
    rawWriteLoop w tag (a + w.bytes) n values

/-- `RAW.READ offset, count, width, order` (40_raw_accessor.md R132). -/
def execRawRead (offset count width : Word) (order : BitVec 8) (s : State) :
    Host.Outcome State Fault Refusal :=
  runOp (do
    let (w, tag) ← checkRawArgs width order
    checkBounds (readInBounds s.cfg.bankSize offset count w)
    admitIf .misaligned (aligned offset.toNat w)
    update State.clearRes
    rawReadLoop w tag offset.toNat count.toNat
    return (← readState).work.res) s

/-- `RAW.WRITE offset, count, width, order, values` (40_raw_accessor.md R133, R134). -/
def execRawWrite (offset count width : Word) (order : BitVec 8) (values : List Word) (s : State) :
    Host.Outcome State Fault Refusal :=
  runOp (do
    let (w, tag) ← checkRawArgs width order
    checkBounds (writeInBounds s.cfg.bankSize offset w)
    admitIf .misaligned (aligned offset.toNat w)
    admitIf .valueTooWide (valuesFit w count.toNat values)
    rawWriteLoop w tag offset.toNat count.toNat values
    return []) s

end Sys2Proof.Machine
end

