-- ==== Sys2Proof/Machine/Spi.lean ====
section
/-! DEFINITION. The SPI unit: `SPI.BUILD` (43_spi_fragmenter.md R190 to R194), a pure plan with
no bank access. -/

namespace Sys2Proof.Machine

/-- A transfer descriptor (43_spi_fragmenter.md R191). -/
structure Descriptor where
  off : Nat
  len : Nat
  bpw : Nat
  delay : Word
  speed : Word
  deriving DecidableEq, Repr

/-- The plan of 43_spi_fragmenter.md R190 steps 2 and 3, case by case. -/
def buildTransfers (len extraBits : Nat) (delay speed : Word) : List Descriptor :=
  let d (off n bpw : Nat) : Descriptor :=
    { off := off, len := n, bpw := bpw, delay := delay, speed := speed }
  if len = 0 then []
  else if len = 1 then
    if extraBits = 0 then [d 0 1 8] else [d 0 1 extraBits]
  else
    if extraBits = 0 then [d 0 len 8] else [d 0 (len - 1) 8, d (len - 1) 1 extraBits]

/-- The six words of a descriptor; pointers are computed modulo `2^32` (30_encoding.md R102). -/
def Descriptor.words (txbase rxbase : Word) (d : Descriptor) : List Word :=
  [txbase + BitVec.ofNat 32 d.off, rxbase + BitVec.ofNat 32 d.off, BitVec.ofNat 32 d.len,
    BitVec.ofNat 32 d.bpw, d.delay, d.speed]

/-- The result words of a plan, descriptor by descriptor (30_encoding.md R101, R102). -/
def planWords (txbase rxbase : Word) : List Descriptor → List Word
  | [] => []
  | d :: ds => d.words txbase rxbase ++ planWords txbase rxbase ds

/-- `extra_bits > 7` raises `InvalidArgument`, first (43_spi_fragmenter.md R190 step 1, R192). -/
def checkExtraBits (extraBits : BitVec 8) : Op Unit :=
  if extraBits.toNat > 7 then raiseErr .invalidArgument 0 else pure ()

/-- `SPI.BUILD len, extra_bits, txbase, rxbase, delay, speed` (43_spi_fragmenter.md R190). -/
def execSpiBuild (len : Word) (extraBits : BitVec 8) (txbase rxbase delay speed : Word)
    (s : State) : Host.Outcome State Fault Refusal :=
  runOp (do
    checkExtraBits extraBits
    return planWords txbase rxbase (buildTransfers len.toNat extraBits.toNat delay speed)) s

end Sys2Proof.Machine
end

