-- ==== Sys2Proof/Machine/Dispatch.lean ====
section
/-! DEFINITION. One arm per command (30_encoding.md R92). -/

namespace Sys2Proof.Machine

def exec (i : Instr) (s : State) : Host.Outcome State Fault Refusal :=
  match i with
  | .rawRead offset count width order => Sys2Proof.Machine.execRawRead offset count width order s
  | .rawWrite offset count width order values => Sys2Proof.Machine.execRawWrite offset count width order values s
  | .fselGet pins => Sys2Proof.Machine.execFselGet pins s
  | .fselSet pins codes => Sys2Proof.Machine.execFselSet pins codes s
  | .dioRead pins => Sys2Proof.Machine.execDioRead pins s
  | .dioWrrb pins values => Sys2Proof.Machine.execDioWrrb pins values s
  | .spiBuild len extraBits txbase rxbase delay speed => Sys2Proof.Machine.execSpiBuild len extraBits txbase rxbase delay speed s

end Sys2Proof.Machine
end

