-- ==== Sys2Proof/Machine/Step.lean ====
section
/-! DEFINITION. One step of the block (10_state.md R21). IDLE: take the next thing on the command
port, or wait. BUSY: run the accepted command from its first line to its response; a malformed one
raises `InvalidArgument` before any bank access (30_encoding.md R103). -/

namespace Sys2Proof.Machine

/-- One step. -/
def step (s : State) : Host.Outcome State Fault Refusal :=
  match s.seq with
  | .idle => .next s.portStep
  | .busy =>
    match decode s.cmd with
    | .ok i => exec i s
    | .error _ => .next s.raiseMalformed

/-- `s` with the command of bits `w` accepted, so that the next step runs it
(notes/assumptions/5.md). -/
def State.withFetchWord (s : State) (nbits w : Nat) : State :=
  s.holdCommand (tableCommand nbits w)

end Sys2Proof.Machine
end

