-- ==== Sys2Proof/Safety.lean ====
section
/-! DEFINITION. What counts as a safe run, in the terms the statements use: the machine's
invariant, the premise `EXCL`, and the shape of a malformed command. -/

namespace Sys2Proof.Machine

/-- Every written byte lies in the bank (20_memory.md R50). -/
def State.memInBank (s : State) : Prop :=
  ∀ c ∈ s.mem, c.1 < s.cfg.bankSize

/-- `OUTV[1]` bits 31:22 are 0 (10_state.md R37): no latch bit without a pin. -/
def State.latchValid (s : State) : Prop :=
  ∀ r : Fin 2, s.outv[r] &&& ~~~(validMask r) = 0

/-- Between operations the working registers hold no value and no command is held
(10_state.md R23, R26). -/
def State.quietWhenIdle (s : State) : Prop :=
  s.seq = .idle → s.work = WorkRegs.dropped ∧ s.cmd = []

/-- The invariant of the machine: the byte store is in its canonical form and in the bank, the
latch has only pins' bits, an IDLE block remembers nothing. -/
structure State.Inv (s : State) : Prop where
  memCanonical : s.mem.wf
  memInBank : s.memInBank
  latchValid : s.latchValid
  quietWhenIdle : s.quietWhenIdle

/-- The premise `EXCL` (20_memory.md R64) for an operation of `n` accesses that starts here: no
other agent writes the bank between its first and its last access. What the environment writes
before the first access (the schedule's head) and after the last is free
(notes/assumptions/9.md). -/
def State.Excl (n : Nat) (s : State) : Prop :=
  ∀ gap ∈ (s.env.take n).tail, gap = []

/-- The bank as an operation of `n` accesses that starts here finds it at its first access: after
the environment's turn (20_memory.md R64), or as it stands where no access is made. -/
def State.atFirstAccess (n : Nat) (s : State) : State :=
  match n with
  | 0 => s
  | _ + 1 => s.envTurn

/-! ### What a statement says of the state after a command -/

/-- `t` is `s` after a command that ended with the response `q`, the bank, its environment and the
trace apart: the response is emitted, `SEQ` is IDLE, the working registers are dropped
(10_state.md R21, R23; 60_exceptions.md R214, R219). -/
structure Ended (s : State) (q : Response) (t : State) : Prop where
  cfg : t.cfg = s.cfg
  seq : t.seq = .idle
  cmd : t.cmd = []
  inbox : t.inbox = s.inbox
  outbox : t.outbox = s.outbox ++ [q.words]
  work : t.work = WorkRegs.dropped

/-- Every byte of memory, every function-select register and every latch bit reads as before. -/
structure SameBank (s t : State) : Prop where
  mem : t.mem = s.mem
  fselv : t.fselv = s.fselv
  outv : t.outv = s.outv

/-- The block made no bank access: nothing is traced, nothing is drawn, no other agent had its
turn, the bank is as before. -/
structure NoAccess (s t : State) : Prop extends SameBank s t where
  env : t.env = s.env
  draws : t.draws = s.draws
  trace : t.trace = s.trace

/-- `exec` ends the command with the response `q` and no bank access. -/
def EndsUntouched (i : Instr) (s : State) (q : Response) : Prop :=
  ∃ t, exec i s = .next t ∧ Ended s q t ∧ NoAccess s t

/-- The environment's turns before `n` accesses of the block (20_memory.md R64). -/
def State.envTurns : Nat → State → State
  | 0, s => s
  | n + 1, s => State.envTurns n s.envTurn

/-- What a read of the bank would return here. -/
def State.peek (s : State) (addr : Nat) (w : AccessWidth) : Word := (s.bankRead addr w).1

/-- The values of reads of one width at the given offsets, one after the other, each after the
environment's turn (20_memory.md R53, R63, R64). -/
def State.readsAt (w : AccessWidth) : List Nat → State → List Word
  | [], _ => []
  | a :: rest, s => s.envTurn.peek a w :: State.readsAt w rest (s.envTurn.bankRead a w).2

/-- The state after writes of one width at rising offsets from `a`, one after the other, each after
the environment's turn (20_memory.md R54, R63, R64). -/
def State.writesFrom (w : AccessWidth) : Nat → List Word → State → State
  | _, [], s => s
  | a, v :: vs, s => State.writesFrom w (a + w.bytes) vs (s.envTurn.bankWrite a w v)

/-- The state after the accesses of a trace, one after the other, each after the environment's turn:
a read changes no bank state, a write is made with its traced value (20_memory.md R58, R61, R63,
R64). -/
def State.afterAccesses : State → List Access → State
  | s, [] => s
  | s, a :: rest =>
    match a.kind with
    | .read => State.afterAccesses s.envTurn rest
    | .write => State.afterAccesses (s.envTurn.bankWrite a.addr a.width a.value) rest

/-- `offset, offset + width, ...`: the offsets of `n` elements (40_raw_accessor.md R132, R133). -/
def elementOffsets (w : AccessWidth) : Nat → Nat → List Nat
  | _, 0 => []
  | a, n + 1 => a :: elementOffsets w (a + w.bytes) n

/-- Accesses of one kind and width at rising offsets from `a`. -/
def accessesAt (kind : AccessKind) (w : AccessWidth) : Nat → List Word → List Access
  | _, [] => []
  | a, v :: vs =>
    { kind := kind, addr := a, width := w, value := v } :: accessesAt kind w (a + w.bytes) vs

/-- One trace entry of a 4-byte read. -/
def readEntry (addr : Nat) (v : Word) : Access :=
  { kind := .read, addr := addr, width := .w4, value := v }

/-- One trace entry of a 4-byte write. -/
def writeEntry (addr : Nat) (v : Word) : Access :=
  { kind := .write, addr := addr, width := .w4, value := v }

/-! ### Operands as the spec numbers them -/

/-- The legal raw arguments (40_raw_accessor.md R131). -/
def LegalRawArgs (width : Word) (order : BitVec 8) : Prop :=
  (width = 1 ∨ width = 2 ∨ width = 4) ∧ (order = 0 ∨ order = 1 ∨ order = 0xFF)

/-- The operand of a legal width (30_encoding.md R94). -/
def AccessWidth.operand (w : AccessWidth) : Word := BitVec.ofNat 32 w.bytes

/-- `NATIVE=0, BIG=1, LITTLE=-1` in 8 bits (30_encoding.md R95). -/
def OrderTag.operand : OrderTag → BitVec 8
  | .native => 0x00
  | .big => 0x01
  | .little => 0xFF

/-- The operand word of a valid pin (30_encoding.md R96). -/
def pinWord (p : Pin) : Word := BitVec.ofNat 32 p.val

/-- The operand word of a valid function code (30_encoding.md R97). -/
def codeWord (c : BitVec 3) : Word := c.setWidth 32

/-! ### The masks of a batch, said without the order of accumulation -/

/-- The OR of a list of words. -/
def orOver (ws : List Word) : Word := ws.foldr (· ||| ·) 0

/-- `WM[r]` of a batch: the fields of its pins in register `r` (41_pinmux_codec.md R152). -/
def batchWriteMask (r : Fin 6) (ps : List Pin) : Word :=
  orOver ((ps.filter fun p => fselReg p = r).map fun p => (7 : Word) <<< (3 * (p.val % 10)))

/-- `VM[r]` of a batch: the codes of its pins in register `r`, each in its field
(41_pinmux_codec.md R152). -/
def batchValueMask (r : Fin 6) (pcs : List (Pin × BitVec 3)) : Word :=
  orOver ((pcs.filter fun pc => fselReg pc.1 = r).map fun pc =>
    codeWord pc.2 <<< (3 * (pc.1.val % 10)))

/-- `SM[r]` (for `true`) or `CM[r]` (for `false`) of a batch (42_dio_batch.md R172). -/
def batchLevelMask (level : Bool) (r : Fin 2) (pvs : List (Pin × Option Bool)) : Word :=
  orOver ((pvs.filter fun pv => bitReg pv.1 = r && pv.2 = some level).map fun pv =>
    (1 : Word) <<< (pv.1.val % 32))

/-- The OR of the codes a batch gives for one pin (41_pinmux_codec.md R154, R156). -/
def batchCode (p : Pin) (pcs : List (Pin × BitVec 3)) : Word :=
  orOver ((pcs.filter fun pc => pc.1 = p).map fun pc => codeWord pc.2)

/-- The set and clear writes of a batch: non-zero masks only, set before clear, register 0 before
register 1 (42_dio_batch.md R171). -/
def batchLevelWrites (pvs : List (Pin × Option Bool)) : List Access :=
  ([(0x1C, batchLevelMask true 0 pvs), (0x20, batchLevelMask true 1 pvs),
    (0x28, batchLevelMask false 0 pvs), (0x2C, batchLevelMask false 1 pvs)].filter
      fun am => am.2 ≠ 0).map fun am => writeEntry am.1 am.2

/-- The function-select registers of a batch (41_pinmux_codec.md R151). -/
def affectedRegs (ps : List Pin) : List (Fin 6) :=
  ([0, 1, 2, 3, 4, 5] : List (Fin 6)).filter fun r => ∃ p ∈ ps, fselReg p = r

/-- The accesses of a successful `FSEL.SET`: a read and a write for each affected register
(70_reset_and_hazards.md R261). -/
def fselSetAccesses (ps : List Pin) : Nat := 2 * (affectedRegs ps).length

/-- The accesses of a successful `DIO.WRRB`: two reads, and a write for each non-zero mask
(70_reset_and_hazards.md R261). -/
def dioWrrbAccesses (pvs : List (Pin × Option Bool)) : Nat := 2 + (batchLevelWrites pvs).length

/-- A pin's prior level, from the two snapshot values (42_dio_batch.md R170, R171). -/
def snapshotLevel (v0 v1 : Word) (p : Pin) : Word :=
  ((if p.val < 32 then v0 else v1) >>> (p.val % 32)) &&& 1

/-- The level of a pin on a GPIO-kind bank: its latch bit where the loopback law says so
(10_state.md R40), its bit of the draw everywhere else (R32). -/
def State.pinLevel (s : State) (drawn : Word) (p : Pin) : Word :=
  if s.cfg.loopback = true ∧ (s.fselv[fselReg p] >>> (3 * (p.val % 10))) &&& 7 = 1 then
    (s.outv[bitReg p] >>> (p.val % 32)) &&& 1
  else (drawn >>> (p.val % 32)) &&& 1

/-- The latch bit of a pin (10_state.md R30). -/
def State.latchBit (s : State) (p : Pin) : Bool := s.outv[bitReg p].getLsbD (p.val % 32)

/-- No write that another agent makes before one of the next `n` accesses touches the latch bit of
the pin, whatever the bank then holds. -/
def State.EnvSpares (n : Nat) (p : Pin) (s : State) : Prop :=
  ∀ gap ∈ s.env.take n, ∀ e ∈ gap, ∀ x : State, x.cfg = s.cfg →
    (x.envWrite e).latchBit p = x.latchBit p

/-- Byte lane `k` of a register value (20_memory.md R68). -/
def laneByte (native : ByteOrder) (k : Nat) (v : Word) : Byte :=
  match native with
  | .little => v.extractLsb' (8 * k) 8
  | .big => v.extractLsb' (24 - 8 * k) 8

end Sys2Proof.Machine

namespace Sys2Proof

/-- The formats that define `A` as 0, and `B` as 0 (30_encoding.md R96 to R99). -/
def Opcode.zeroA : Opcode → Bool
  | .fselGet | .fselSet | .dioRead | .dioWrrb => true
  | .rawRead | .rawWrite | .spiBuild => false

/-- See `Opcode.zeroA`. -/
def Opcode.zeroB : Opcode → Bool
  | .fselGet | .fselSet | .dioRead | .dioWrrb | .spiBuild => true
  | .rawRead | .rawWrite => false

/-- The length 30_encoding.md R104 computes, where the command holds its count words. -/
def requiredLength (op : Opcode) (ws : List Word) : Option Nat :=
  match op with
  | .rawRead => some 3
  | .rawWrite => ws[3]?.map fun nv => 4 + nv.toNat
  | .fselGet | .dioRead => ws[1]?.map fun np => 2 + np.toNat
  | .fselSet | .dioWrrb => ws[1]?.bind fun np => ws[2]?.map fun nc => 3 + np.toNat + nc.toNat
  | .spiBuild => some 6

/-- A command is malformed, clause by clause as 30_encoding.md R103 and R104 say. -/
def Malformed (ws : List Word) : Prop :=
  match ws with
  | [] => True
  | h :: _ =>
    match opcodeOf (fieldOpc h) with
    | none => True
    | some op =>
      fieldRsv h ≠ 0 ∨ (op.zeroA ∧ fieldA h ≠ 0) ∨ (op.zeroB ∧ fieldB h ≠ 0) ∨
        requiredLength op ws ≠ some ws.length

end Sys2Proof
end

