-- ==== Sys2Proof/Certificates/Slice0/Obligations.lean ====
section
/-! DEFINITION. The statements for the provers. Each docstring names the rule of spec/ it
formalises. Pins, codes, widths and order tags that a rule calls valid are quantified as `Pin`,
`BitVec 3`, `AccessWidth` and `OrderTag` and handed to the command as operand words. -/

open Sys2Proof Sys2Proof.Machine

/-! ### Encoding -/

/-- Every command the words can express decodes from its own words (30_encoding.md R91 to R99,
R107): no operand bit is dropped. -/
def Obligations.DecodeReadsBackEncode : Prop :=
  ∀ i : Instr, i.wellFormed = true → decode (encode i) = .ok i

/-- What the decoder accepts is expressible, has the length of its encoding and is written back word
for word; of `DIO.WRRB` every word but those of the optional bools is, and each of these means what
30_encoding.md R98 says: `0xFFFFFFFF` absent, 0 false, every other value true. -/
def Obligations.EncodeWritesBackDecode : Prop :=
  ∀ (ws : List Word) (i : Instr), decode ws = .ok i →
    i.wellFormed = true ∧ (encode i).length = ws.length ∧ decode (encode i) = .ok i ∧
      ((∀ pins values, i ≠ .dioWrrb pins values) → encode i = ws) ∧
      (∀ pins values, i = .dioWrrb pins values → ∃ vals : List Word,
        ws = 0x00000021 :: BitVec.ofNat 32 pins.length :: BitVec.ofNat 32 values.length ::
          (pins ++ vals) ∧
        values = vals.map fun v =>
          if v = 0xFFFFFFFF then none else if v = 0 then some false else some true)

/-- 30_encoding.md R103, R104: the decoder refuses exactly the malformed commands. -/
def Obligations.DecoderRefusesExactlyMalformed : Prop :=
  ∀ ws : List Word, (∃ e, decode ws = .error e) ↔ Malformed ws

/-- 30_encoding.md R103: a malformed command raises `InvalidArgument` before any bank access. -/
def Obligations.MalformedCommandRaisesInvalidArgument : Prop :=
  ∀ s : State, s.seq = .busy → Malformed s.cmd →
    ∃ t, step s = .next t ∧ Ended s (errorResponse .invalidArgument 0) t ∧ NoAccess s t

/-- The ten worked encodings of 30_encoding.md section 7, in its order, and the decode vectors E1
and E2 of 95_test_vectors.md. -/
def Obligations.WorkedEncodingsDecode : Prop :=
  decode [0x00000401, 0x34, 1] = .ok (.rawRead 0x34 1 4 0) ∧
  decode [0x00010401, 0x00000000, 0x00000006] = .ok (.rawRead 0 6 4 0x01) ∧
  decode [0x00000402, 0x34, 1, 1, 5] = .ok (.rawWrite 0x34 1 4 0 [5]) ∧
  decode [0x00FF0202, 0x40, 2, 2, 0x1234, 0xBEEF] =
    .ok (.rawWrite 0x40 2 2 0xFF [0x1234, 0xBEEF]) ∧
  decode [0x00000010, 2, 4, 0x11] = .ok (.fselGet [4, 17]) ∧
  decode [0x00000011, 2, 2, 4, 0x11, 1, 4] = .ok (.fselSet [4, 17] [1, 4]) ∧
  decode [0x00000020, 3, 0, 1, 2] = .ok (.dioRead [0, 1, 2]) ∧
  decode [0x00000021, 2, 2, 3, 0x23, 1, 0] = .ok (.dioWrrb [3, 35] [some true, some false]) ∧
  decode [0x00000021, 1, 1, 7, 0xFFFFFFFF] = .ok (.dioWrrb [7] [none]) ∧
  decode [0x00000330, 3, 0x1000, 0x2000, 0, 0x0007A120] =
    .ok (.spiBuild 3 3 0x1000 0x2000 0 500000) ∧
  decode [0x00FF0401, 0x34, 1] = .ok (.rawRead 0x34 1 4 0xFF) ∧
  decode [0x00000801, 0, 1] = .ok (.rawRead 0 1 8 0)

/-- 30_encoding.md R100: the response words, the status numbers, and no results on an error. -/
def Obligations.ResponseWordsHoldStatusInfoResults : Prop :=
  (∀ q : Response, ∃ q0, q.words = q0 :: BitVec.ofNat 32 q.results.length :: q.results ∧
      q0.extractLsb' 0 8 = q.status.code ∧ q0.extractLsb' 8 8 = q.info ∧
      q0.extractLsb' 16 16 = 0) ∧
  Status.code .ok = 0 ∧ Status.code (.error .invalidPin) = 1 ∧
  Status.code (.error .invalidFunctionCode) = 2 ∧ Status.code (.error .arityMismatch) = 3 ∧
  Status.code (.error .outOfRange) = 4 ∧ Status.code (.error .invalidArgument) = 5 ∧
  (∀ e info, (errorResponse e info).results = [] ∧ (errorResponse e info).info = info ∧
    (errorResponse e info).status = .error e)

/-! ### The sequencer, reset, the ports -/

/-- 10_state.md R21: in BUSY the block runs the accepted command. `step` adds nothing around
`exec`: there is no program counter to move (R24). -/
def Obligations.StepRunsDecodedCommand : Prop :=
  ∀ (s : State) (i : Instr), s.seq = .busy → decode s.cmd = .ok i → i.wellFormed = true →
    step s = exec i s

/-- 10_state.md R21: in IDLE the block accepts one command and goes to BUSY, its trace begins
empty (20_memory.md R58), and nothing else changes; with nothing on the port it waits. The port
queue and the wait are the model's (notes/assumptions/5.md, 11.md). -/
def Obligations.IdleAcceptsOneCommand : Prop :=
  (∀ (s : State) (ws : List Word) (rest : List PortEvent), s.seq = .idle →
    s.inbox = .command ws :: rest →
      step s = .next { s with seq := .busy, cmd := ws, inbox := rest, trace := [] }) ∧
  (∀ s : State, s.seq = .idle → s.inbox = [] → step s = .next s)

/-- 70_reset_and_hazards.md R250: reset between operations puts `SEQ` in IDLE, leaves the bank
untouched and makes no bank access. The event on the port queue is the model's
(notes/assumptions/5.md, 10.md). -/
def Obligations.ResetEventLeavesBankUntouched : Prop :=
  ∀ (s : State) (rest : List PortEvent), s.seq = .idle → s.inbox = .reset :: rest →
    ∃ t, step s = .next t ∧ t.seq = .idle ∧ NoAccess s t ∧ t.work = WorkRegs.dropped ∧
      t.cfg = s.cfg ∧ t.inbox = rest ∧ t.outbox = s.outbox

/-- 10_state.md R21, 60_exceptions.md R219: a BUSY step that is not a refusal ends the command with
exactly one response, back in IDLE, and takes nothing from the command port. -/
def Obligations.BusyStepEndsWithOneResponse : Prop :=
  ∀ s t : State, s.seq = .busy → step s = .next t → ∃ q, Ended s q t

/-- 10_state.md R23: no operation reads what an earlier one left in a working register, and none
holds a value after an operation ("no value" is `WorkRegs.dropped`: notes/assumptions/4.md). -/
def Obligations.WorkingRegistersCarryNothingOver : Prop :=
  (∀ (i : Instr) (s : State) (left : WorkRegs), exec i { s with work := left } = exec i s) ∧
  (∀ (i : Instr) (s t : State), exec i s = .next t → t.work = WorkRegs.dropped)

/-- 10_state.md R26: the parameters never change while the block runs. -/
def Obligations.StepKeepsParameters : Prop :=
  ∀ s t : State, step s = .next t → t.cfg = s.cfg

/-- Every step keeps the machine's invariant: the byte store canonical and in the bank, no latch
bit without a pin (10_state.md R37), an IDLE block without working values (R23;
notes/assumptions/4.md, 5.md). -/
def Obligations.StepKeepsInvariant : Prop :=
  ∀ s t : State, s.Inv → step s = .next t → t.Inv

/-- The machine right after reset has the invariant, and its `SEQ` is IDLE (10_state.md R37, R39;
the empty ports and the unwritten bank are the model's: notes/assumptions/2.md, 3.md, 5.md). -/
def Obligations.ResetHasInvariant : Prop :=
  State.reset.Inv ∧ State.reset.seq = .idle

/-! ### Safety of the bank accesses -/

/-- 20_memory.md R50, R53, R54, R69: no command ever makes an access outside the bank or a
misaligned one, so the machine's faults (notes/assumptions/14.md) are never raised. -/
def Obligations.NoCommandFaults : Prop :=
  (∀ (i : Instr) (s : State) (f : Fault), exec i s ≠ .fault f) ∧
  (∀ (s : State) (f : Fault), step s ≠ .fault f)

/-- 20_memory.md R50, R58, R59: a command only appends to the trace, and every access it makes lies
in the bank and is aligned. -/
def Obligations.EveryAccessIsInBankAndAligned : Prop :=
  ∀ (i : Instr) (s t : State), exec i s = .next t →
    ∃ made, t.trace = s.trace ++ made ∧
      ∀ a ∈ made, a.addr + a.width.bytes ≤ s.cfg.bankSize ∧ a.addr % a.width.bytes = 0

/-- 20_memory.md R54, R58, R61, R63, R64: whatever the environment does, the bank a command leaves
is what its traced accesses leave, made one after the other, each after the environment's turn;
nothing else changes the bank, and every access takes one turn of the environment (the schedule
`env` is the model's: notes/assumptions/9.md). -/
def Obligations.BankIsWhatTracedAccessesLeave : Prop :=
  ∀ (i : Instr) (s t : State), exec i s = .next t →
    ∃ made, t.trace = s.trace ++ made ∧ SameBank (s.afterAccesses made) t ∧
      t.env = s.env.drop made.length

/-- 40_raw_accessor.md R135: exactly which raw commands are refused, and why: a misaligned one, or
a write whose span holds a value too wide for its element; tested only where R131 and R130 pass. -/
def Obligations.RawRefusedExactlyOutsideTheContract : Prop :=
  (∀ (s : State) (offset count width : Word) (order : BitVec 8) (r : Refusal),
    exec (.rawRead offset count width order) s = .refused r ↔
      r = .misaligned ∧ LegalRawArgs width order ∧ offset.toNat < s.cfg.bankSize ∧
        width.toNat * count.toNat ≤ s.cfg.bankSize - offset.toNat ∧
        offset.toNat % width.toNat ≠ 0) ∧
  (∀ (s : State) (offset count width : Word) (order : BitVec 8) (values : List Word)
      (r : Refusal),
    exec (.rawWrite offset count width order values) s = .refused r ↔
      LegalRawArgs width order ∧ offset.toNat < s.cfg.bankSize ∧
        width.toNat ≤ s.cfg.bankSize - offset.toNat ∧
        ((r = .misaligned ∧ offset.toNat % width.toNat ≠ 0) ∨
          (r = .valueTooWide ∧ offset.toNat % width.toNat = 0 ∧
            ∃ v ∈ values.take count.toNat, 2 ^ (8 * width.toNat) ≤ v.toNat)))

/-- 20_memory.md R69, 60_exceptions.md R222: a pin command is refused exactly on a bank smaller than
`0x3C` bytes, whatever its operands (the model's reading of the priority over R211:
notes/assumptions/12.md); `SPI.BUILD` never is. -/
def Obligations.PinCommandsRefusedExactlyOnSmallBanks : Prop :=
  (∀ (s : State) (pins codes : List Word) (values : List (Option Bool)) (i : Instr)
      (r : Refusal),
    i = .fselGet pins ∨ i = .fselSet pins codes ∨ i = .dioRead pins ∨ i = .dioWrrb pins values →
      (exec i s = .refused r ↔ r = .bankTooSmall ∧ s.cfg.bankSize < 0x3C)) ∧
  (∀ (s : State) (len : Word) (extra : BitVec 8) (tx rx delay speed : Word) (r : Refusal),
    exec (.spiBuild len extra tx rx delay speed) s ≠ .refused r)

/-! ### Byte order and the bank -/

/-- 20_memory.md R56: `bswap_n` reverses the `n` bytes and is its own inverse. -/
def Obligations.BswapReversesBytes : Prop :=
  ∀ (w : AccessWidth) (v : Word), v.toNat < 2 ^ (8 * w.bytes) →
    splitLittle w.bytes (bswap w v) = (splitLittle w.bytes v).reverse ∧
      bswap w (bswap w v) = v ∧ (bswap w v).toNat < 2 ^ (8 * w.bytes)

/-- 20_memory.md R54: after `MemWrite(addr, n, v)` on a MEM-kind bank `MemRead(addr, n)` returns
`v`, the `n` bytes are those R54 lists, and every other byte reads as before. -/
def Obligations.MemWriteThenMemRead : Prop :=
  ∀ (s : State) (addr : Nat) (w : AccessWidth) (v : Word), s.cfg.kind = .mem →
    v.toNat < 2 ^ (8 * w.bytes) →
      (s.bankWrite addr w v).peek addr w = v ∧
      (∀ i, i < w.bytes → (s.bankWrite addr w v).mem.byteAt (addr + i) =
        (v >>> (8 * (match s.cfg.native with
          | .little => i
          | .big => w.bytes - 1 - i))).setWidth 8) ∧
      (∀ a, a < addr ∨ addr + w.bytes ≤ a →
        (s.bankWrite addr w v).mem.byteAt a = s.mem.byteAt a)

/-- 20_memory.md R61, R53: a read returns what the bank holds once the environment has had its turn,
and changes no bank, block or port state: after it, only the trace, the draws and the environment's
schedule differ from the state the environment left. -/
def Obligations.ReadsHaveNoSideEffect : Prop :=
  ∀ (s t : State) (addr : Nat) (w : AccessWidth) (v : Word), memRead addr w s = .ok v t →
    v = s.envTurn.peek addr w ∧
      SameBank s.envTurn t ∧ t.cfg = s.cfg ∧ t.seq = s.seq ∧ t.cmd = s.cmd ∧ t.work = s.work ∧
      t.inbox = s.inbox ∧ t.outbox = s.outbox ∧
      t.trace = s.trace ++ [{ kind := .read, addr := addr, width := w, value := v }]

/-- 20_memory.md R68: on a GPIO-kind bank a narrow read of a register of the table of 10_state.md
R27 returns the addressed lanes of what a 32-bit read returns; a narrow write to `FSELn` replaces
only the addressed lanes; one to `SETr` or `CLRr` acts as the 32-bit write of the mask with 0
elsewhere. -/
def Obligations.NarrowAccessesActOnLanes : Prop :=
  ∀ (s : State) (base j : Nat) (w : AccessWidth) (v : Word), s.cfg.kind = .gpio →
    base ∈ [0x00, 0x04, 0x08, 0x0C, 0x10, 0x14, 0x1C, 0x20, 0x28, 0x2C, 0x34, 0x38] →
    j % w.bytes = 0 → j + w.bytes ≤ 4 → v.toNat < 2 ^ (8 * w.bytes) →
      s.peek (base + j) w = joinBytes s.cfg.native
        ((List.range w.bytes).map fun k => laneByte s.cfg.native (j + k) (s.peek base .w4)) ∧
      (∀ n, base = fselOffset n → ∀ k, k < 4 →
        laneByte s.cfg.native k (s.bankWrite (base + j) w v).fselv[n] =
          if j ≤ k ∧ k < j + w.bytes then (splitBytes s.cfg.native w v).getD (k - j) 0
          else laneByte s.cfg.native k s.fselv[n]) ∧
      (∀ r, base = setOffset r ∨ base = clrOffset r → ∃ m : Word,
        (∀ k, k < 4 → laneByte s.cfg.native k m =
          if j ≤ k ∧ k < j + w.bytes then (splitBytes s.cfg.native w v).getD (k - j) 0 else 0) ∧
        s.bankWrite (base + j) w v = s.bankWrite base .w4 m)

/-- 10_state.md R40: with `P_LOOPBACK = true` a read of `LEV[p/32]` returns the latch bit of every
pin whose function-select field holds `OUT`; all other bits are the oracle's draw (R32), in the
model an opaque constant (notes/assumptions/8.md). -/
def Obligations.LoopbackLaw : Prop :=
  ∀ (s : State) (r : Fin 2), s.cfg.kind = .gpio →
    (∀ p : Pin, bitReg p = r → s.cfg.loopback = true →
      (s.fselv[fselReg p] >>> (3 * (p.val % 10))) &&& 7 = 1 →
        (s.peek (levOffset r) .w4).getLsbD (p.val % 32) = s.outv[r].getLsbD (p.val % 32)) ∧
    (∀ b, b < 32 →
      (∀ p : Pin, bitReg p = r → p.val % 32 = b → s.cfg.loopback = true →
        (s.fselv[fselReg p] >>> (3 * (p.val % 10))) &&& 7 ≠ 1) →
      (s.peek (levOffset r) .w4).getLsbD b = (Config.draw s.draws).getLsbD b)

/-! ### RAW -/

/-- 40_raw_accessor.md R131: a width other than 1, 2, 4 or a tag other than 0, 1, -1 raises
`InvalidArgument` before any other check and before any bank access, in both operations. -/
def Obligations.RawIllegalArgumentRaises : Prop :=
  ∀ (s : State) (offset count width : Word) (order : BitVec 8) (values : List Word),
    ¬ LegalRawArgs width order →
      EndsUntouched (.rawRead offset count width order) s (errorResponse .invalidArgument 0) ∧
      EndsUntouched (.rawWrite offset count width order values) s
        (errorResponse .invalidArgument 0)

/-- 40_raw_accessor.md R130: the bounds checks, in the naturals, raise `OutOfRange` with no
access. -/
def Obligations.RawOutOfBoundsRaises : Prop :=
  ∀ (s : State) (offset count : Word) (w : AccessWidth) (tag : OrderTag) (values : List Word),
    (¬ (offset.toNat < s.cfg.bankSize ∧
        w.bytes * count.toNat ≤ s.cfg.bankSize - offset.toNat) →
      EndsUntouched (.rawRead offset count w.operand tag.operand) s
        (errorResponse .outOfRange 0)) ∧
    (¬ (offset.toNat < s.cfg.bankSize ∧ w.bytes ≤ s.cfg.bankSize - offset.toNat) →
      EndsUntouched (.rawWrite offset count w.operand tag.operand values) s
        (errorResponse .outOfRange 0))

/-- 40_raw_accessor.md R132: `RAW.READ` completes on every legal command, on either bank kind and
whatever the environment does: exactly `count` reads at ascending offsets, the values read those the
bank holds when each is read, the results their converted values, the bank as the environment left
it. -/
def Obligations.RawReadCompletes : Prop :=
  ∀ (s : State) (offset count : Word) (w : AccessWidth) (tag : OrderTag),
    offset.toNat < s.cfg.bankSize →
    w.bytes * count.toNat ≤ s.cfg.bankSize - offset.toNat → offset.toNat % w.bytes = 0 →
      ∃ (t : State) (vs : List Word),
        exec (.rawRead offset count w.operand tag.operand) s = .next t ∧
        vs = s.readsAt w (elementOffsets w offset.toNat count.toNat) ∧
        vs.length = count.toNat ∧
        Ended s (okResponse (vs.map (convert s.cfg.native tag w))) t ∧
        t.trace = s.trace ++ accessesAt .read w offset.toNat vs ∧
        SameBank (State.envTurns count.toNat s) t ∧
        (∀ v ∈ vs.map (convert s.cfg.native tag w), v.toNat < 2 ^ (8 * w.bytes))

/-- 40_raw_accessor.md R132 with 20_memory.md R51, R53, R56: on a MEM-kind bank under `EXCL`,
element `i` is the bytes that stood at `offset + i*width` at the first access, in the order the tag
stands for; nothing is changed. -/
def Obligations.RawReadReturnsBankBytes : Prop :=
  ∀ (s : State) (offset count : Word) (w : AccessWidth) (tag : OrderTag),
    s.cfg.kind = .mem → s.Excl count.toNat → offset.toNat < s.cfg.bankSize →
    w.bytes * count.toNat ≤ s.cfg.bankSize - offset.toNat → offset.toNat % w.bytes = 0 →
      ∃ t : State, exec (.rawRead offset count w.operand tag.operand) s = .next t ∧
        Ended s (okResponse ((List.range count.toNat).map fun i =>
          joinBytes (tag.effective s.cfg.native)
            ((s.atFirstAccess count.toNat).mem.bytesAt (offset.toNat + i * w.bytes)
              w.bytes))) t ∧
        SameBank (s.atFirstAccess count.toNat) t ∧ t.draws = s.draws

/-- 40_raw_accessor.md R133: `RAW.WRITE` completes when its span lies in the bank and the values
fill it, on either bank kind, at every width and whatever the environment does: exactly `count`
writes at ascending offsets of the converted values, the bank afterwards what those writes leave;
surplus values are not consumed (R134). -/
def Obligations.RawWriteCompletes : Prop :=
  ∀ (s : State) (offset count : Word) (w : AccessWidth) (tag : OrderTag) (values : List Word),
    offset.toNat < s.cfg.bankSize → w.bytes ≤ s.cfg.bankSize - offset.toNat →
    w.bytes * count.toNat ≤ s.cfg.bankSize - offset.toNat → offset.toNat % w.bytes = 0 →
    count.toNat ≤ values.length →
    (∀ v ∈ values.take count.toNat, v.toNat < 2 ^ (8 * w.bytes)) →
      ∃ t : State, exec (.rawWrite offset count w.operand tag.operand values) s = .next t ∧
        Ended s (okResponse []) t ∧
        t.trace = s.trace ++ accessesAt .write w offset.toNat
          ((values.take count.toNat).map (convert s.cfg.native tag w)) ∧
        SameBank (s.writesFrom w offset.toNat
          ((values.take count.toNat).map (convert s.cfg.native tag w))) t ∧
        t.draws = s.draws

/-- 40_raw_accessor.md R133, 70_reset_and_hazards.md R254: when the values run out or the span
leaves the bank, `OutOfRange` is raised after the elements before that position have been written,
and the bank is what those writes leave. -/
def Obligations.RawWriteRaisesAfterPrefix : Prop :=
  ∀ (s : State) (offset count : Word) (w : AccessWidth) (tag : OrderTag) (values : List Word)
      (n : Nat),
    offset.toNat < s.cfg.bankSize → w.bytes ≤ s.cfg.bankSize - offset.toNat →
    offset.toNat % w.bytes = 0 →
    (∀ v ∈ values.take count.toNat, v.toNat < 2 ^ (8 * w.bytes)) →
    n = min values.length ((s.cfg.bankSize - offset.toNat) / w.bytes) → n < count.toNat →
      ∃ t : State, exec (.rawWrite offset count w.operand tag.operand values) s = .next t ∧
        Ended s (errorResponse .outOfRange 0) t ∧
        t.trace = s.trace ++ accessesAt .write w offset.toNat
          ((values.take n).map (convert s.cfg.native tag w)) ∧
        SameBank (s.writesFrom w offset.toNat
          ((values.take n).map (convert s.cfg.native tag w))) t ∧
        t.draws = s.draws

/-- 40_raw_accessor.md R133 with 20_memory.md R51, R54, R56: on a MEM-kind bank under `EXCL` the
elements written (all of them, or the prefix before an error) stand in the bank in the order the
tag stands for, and every other byte, the latch and the function-select registers are as at the
first access. -/
def Obligations.RawWriteStoresElements : Prop :=
  ∀ (s : State) (offset count : Word) (w : AccessWidth) (tag : OrderTag) (values : List Word)
      (n : Nat),
    s.cfg.kind = .mem → s.Excl n → offset.toNat < s.cfg.bankSize →
    w.bytes ≤ s.cfg.bankSize - offset.toNat → offset.toNat % w.bytes = 0 →
    (∀ v ∈ values.take count.toNat, v.toNat < 2 ^ (8 * w.bytes)) →
    n = min count.toNat (min values.length ((s.cfg.bankSize - offset.toNat) / w.bytes)) →
      ∃ t : State, exec (.rawWrite offset count w.operand tag.operand values) s = .next t ∧
        (∀ i, i < n → t.mem.bytesAt (offset.toNat + i * w.bytes) w.bytes =
          splitBytes (tag.effective s.cfg.native) w (values.getD i 0)) ∧
        (∀ a, a < offset.toNat ∨ offset.toNat + n * w.bytes ≤ a →
          t.mem.byteAt a = (s.atFirstAccess n).mem.byteAt a) ∧
        t.fselv = (s.atFirstAccess n).fselv ∧ t.outv = (s.atFirstAccess n).outv ∧
        t.draws = s.draws

/-- 40_raw_accessor.md R136: on a MEM-kind bank under `EXCL` a read that finds the bank as a write
that responded `OK` left it returns the values, for every tag; with different effective orders it
returns them byte-swapped. -/
def Obligations.RawReadAfterWrite : Prop :=
  ∀ (s t u : State) (offset count : Word) (w : AccessWidth) (tagW tagR : OrderTag)
      (values : List Word),
    s.cfg.kind = .mem → s.Excl count.toNat → u.Excl count.toNat →
    exec (.rawWrite offset count w.operand tagW.operand values) s = .next t →
    Ended s (okResponse []) t → SameBank t (u.atFirstAccess count.toNat) → u.cfg = t.cfg →
      ∃ v : State, exec (.rawRead offset count w.operand tagR.operand) u = .next v ∧
        Ended u (okResponse ((values.take count.toNat).map fun x =>
          if tagW.effective s.cfg.native = tagR.effective s.cfg.native then x
          else bswap w x)) v

/-- 40_raw_accessor.md R137: on a MEM-kind bank a 4-byte raw write to an aligned offset, with the
tag `NATIVE` or the tag of the native order, stores exactly the value a later native 32-bit access
reads there; written to `LEV0` it is what a `DIO.READ` that finds the bank so decodes (pins 0 to
31). -/
def Obligations.RawWriteIsReadByPinUnits : Prop :=
  ∀ (s : State) (offset v : Word) (tag : OrderTag) (ps : List Pin), s.cfg.kind = .mem →
    tag.effective s.cfg.native = s.cfg.native →
    offset.toNat % 4 = 0 → offset.toNat + 4 ≤ s.cfg.bankSize → 0x3C ≤ s.cfg.bankSize →
    (∀ p ∈ ps, p.val < 32) →
      ∃ t : State, exec (.rawWrite offset 1 4 tag.operand [v]) s = .next t ∧
        Ended s (okResponse []) t ∧ t.peek offset.toNat .w4 = v ∧
        (offset.toNat = 0x34 → ∀ u : State, u.cfg = t.cfg → u.Excl 2 → SameBank t u.envTurn →
          ∃ x : State, exec (.dioRead (ps.map pinWord)) u = .next x ∧
            Ended u (okResponse (ps.map fun p => (v >>> p.val) &&& 1)) x)

/-- 10_state.md R29 with 20_memory.md R56, R68, GPIO kind, every width and tag: a raw write inside
`FSELn` replaces exactly the addressed byte lanes of `FSELV[n]` by the element's bytes in the tag's
order (a 4-byte one all 32 bits, by the converted value) and nothing else; a raw read returns the
addressed lanes in the tag's order. -/
def Obligations.GpioFselIsStorage : Prop :=
  ∀ (s : State) (n : Fin 6) (j : Nat) (w : AccessWidth) (tag : OrderTag) (v : Word),
    s.cfg.kind = .gpio → fselOffset n + 4 ≤ s.cfg.bankSize →
    j % w.bytes = 0 → j + w.bytes ≤ 4 → v.toNat < 2 ^ (8 * w.bytes) →
      (∃ (t : State) (x : Word),
        exec (.rawWrite (BitVec.ofNat 32 (fselOffset n + j)) 1 w.operand tag.operand [v]) s =
          .next t ∧
        Ended s (okResponse []) t ∧ t.fselv = s.envTurn.fselv.set n x ∧
        (∀ k, k < 4 → laneByte s.cfg.native k x =
          if j ≤ k ∧ k < j + w.bytes then
            (splitBytes (tag.effective s.cfg.native) w v).getD (k - j) 0
          else laneByte s.cfg.native k s.envTurn.fselv[n]) ∧
        (w = .w4 → x = convert s.cfg.native tag .w4 v) ∧
        t.outv = s.envTurn.outv ∧ t.mem = s.envTurn.mem ∧ t.draws = s.draws) ∧
      (∃ (t : State) (x : Word),
        exec (.rawRead (BitVec.ofNat 32 (fselOffset n + j)) 1 w.operand tag.operand) s =
          .next t ∧
        Ended s (okResponse [x]) t ∧
        x = joinBytes (tag.effective s.cfg.native)
          ((List.range w.bytes).map fun k =>
            laneByte s.cfg.native (j + k) s.envTurn.fselv[n]) ∧
        (w = .w4 → x = convert s.cfg.native tag .w4 s.envTurn.fselv[n]) ∧
        SameBank s.envTurn t ∧ t.draws = s.draws)

/-- 10_state.md R30, R31 with 20_memory.md R56, R68, GPIO kind, every width and tag: a raw write
inside `SETr` sets, inside `CLRr` clears, exactly the latch bits whose mask bit is 1 and that
belong to a pin, and nothing else; the mask has the element's bytes in the addressed lanes and 0
elsewhere (for a 4-byte element it is the converted value). -/
def Obligations.GpioSetAndClearDriveLatch : Prop :=
  (∀ (s : State) (r : Fin 2) (j : Nat) (w : AccessWidth) (tag : OrderTag) (v : Word),
    s.cfg.kind = .gpio → 0x3C ≤ s.cfg.bankSize →
    j % w.bytes = 0 → j + w.bytes ≤ 4 → v.toNat < 2 ^ (8 * w.bytes) →
      ∃ m : Word,
        (∀ k, k < 4 → laneByte s.cfg.native k m =
          if j ≤ k ∧ k < j + w.bytes then
            (splitBytes (tag.effective s.cfg.native) w v).getD (k - j) 0 else 0) ∧
        (w = .w4 → m = convert s.cfg.native tag .w4 v) ∧
        (∃ t : State,
          exec (.rawWrite (BitVec.ofNat 32 (setOffset r + j)) 1 w.operand tag.operand [v]) s =
            .next t ∧
          Ended s (okResponse []) t ∧
          t.outv = s.envTurn.outv.set r (s.envTurn.outv[r] ||| (m &&& validMask r)) ∧
          t.fselv = s.envTurn.fselv ∧ t.mem = s.envTurn.mem ∧ t.draws = s.draws) ∧
        (∃ t : State,
          exec (.rawWrite (BitVec.ofNat 32 (clrOffset r + j)) 1 w.operand tag.operand [v]) s =
            .next t ∧
          Ended s (okResponse []) t ∧
          t.outv = s.envTurn.outv.set r (s.envTurn.outv[r] &&& ~~~(m &&& validMask r)) ∧
          t.fselv = s.envTurn.fselv ∧ t.mem = s.envTurn.mem ∧ t.draws = s.draws)) ∧
  validMask 0 = 0xFFFFFFFF ∧ validMask 1 = 0x003FFFFF

/-- 10_state.md R32, R33, GPIO kind, every width and tag: a raw write inside `LEVr` or at an
offset the source does not name changes nothing; a raw read inside `SETr`, `CLRr` or at an unnamed
offset is one draw, of which it returns the addressed lanes (notes/assumptions/8.md, 17.md, and
24.md for which offsets the source names), and changes nothing. The bank is the one the
environment left. -/
def Obligations.GpioOtherOffsetsKeepNothing : Prop :=
  ∀ (s : State) (offset v : Word) (w : AccessWidth) (tag : OrderTag), s.cfg.kind = .gpio →
    offset.toNat % w.bytes = 0 → offset.toNat + w.bytes ≤ s.cfg.bankSize →
    v.toNat < 2 ^ (8 * w.bytes) →
      ((4 * (offset.toNat / 4) ∈ [0x18, 0x24, 0x30, 0x34, 0x38] ∨ 0x3C ≤ offset.toNat) →
        ∃ t : State, exec (.rawWrite offset 1 w.operand tag.operand [v]) s = .next t ∧
          Ended s (okResponse []) t ∧ SameBank s.envTurn t ∧ t.draws = s.draws) ∧
      ((4 * (offset.toNat / 4) ∈ [0x18, 0x1C, 0x20, 0x24, 0x28, 0x2C, 0x30] ∨
          0x3C ≤ offset.toNat) →
        ∃ t : State, exec (.rawRead offset 1 w.operand tag.operand) s = .next t ∧
          Ended s (okResponse [joinBytes (tag.effective s.cfg.native)
            ((List.range w.bytes).map fun k =>
              laneByte s.cfg.native (offset.toNat % 4 + k) (Config.draw s.draws))]) t ∧
          SameBank s.envTurn t ∧ t.draws = s.draws + 1)

/-! ### FSEL -/

/-- 60_exceptions.md R211: any invalid pin, at any position, raises `InvalidPin` in the four pin
operations, before any bank access and before any other operand is looked at. -/
def Obligations.InvalidPinRaisesBeforeAnyAccess : Prop :=
  ∀ (s : State) (pins codes : List Word) (values : List (Option Bool)),
    0x3C ≤ s.cfg.bankSize → (∃ p ∈ pins, 54 ≤ p.toNat) →
      EndsUntouched (.fselGet pins) s (errorResponse .invalidPin 0) ∧
      EndsUntouched (.fselSet pins codes) s (errorResponse .invalidPin 0) ∧
      EndsUntouched (.dioRead pins) s (errorResponse .invalidPin 0) ∧
      EndsUntouched (.dioWrrb pins values) s (errorResponse .invalidPin 0)

/-- 41_pinmux_codec.md R150: `FSEL.GET` completes on either bank kind and whatever the environment
does: six 4-byte reads in ascending order of what the registers hold when each is read, and one code
per pin extracted from the six values read. -/
def Obligations.FselGetCompletes : Prop :=
  ∀ (s : State) (ps : List Pin), 0x3C ≤ s.cfg.bankSize →
    ∃ (t : State) (snap : Fin 6 → Word), exec (.fselGet (ps.map pinWord)) s = .next t ∧
      [snap 0, snap 1, snap 2, snap 3, snap 4, snap 5] =
        s.readsAt .w4 [0x00, 0x04, 0x08, 0x0C, 0x10, 0x14] ∧
      Ended s (okResponse (ps.map fun p => (snap (fselReg p) >>> (3 * (p.val % 10))) &&& 7)) t ∧
      t.trace = s.trace ++ [readEntry 0x00 (snap 0), readEntry 0x04 (snap 1),
        readEntry 0x08 (snap 2), readEntry 0x0C (snap 3), readEntry 0x10 (snap 4),
        readEntry 0x14 (snap 5)] ∧
      SameBank (State.envTurns 6 s) t

/-- 41_pinmux_codec.md R150 under `EXCL`: the codes are those standing in the function-select
registers at the first read, and nothing is changed. -/
def Obligations.FselGetReturnsStandingCodes : Prop :=
  ∀ (s : State) (ps : List Pin), 0x3C ≤ s.cfg.bankSize → s.Excl 6 →
    ∃ t : State, exec (.fselGet (ps.map pinWord)) s = .next t ∧
      Ended s (okResponse (ps.map fun p =>
        (s.envTurn.peek (4 * (p.val / 10)) .w4 >>> (3 * (p.val % 10))) &&& 7)) t ∧
      SameBank s.envTurn t ∧ t.draws = s.draws

/-- 41_pinmux_codec.md R151: `FSEL.SET` completes under `EXCL`, on either bank kind: one
read-modify-write per affected register, in ascending order, nothing for any other; each register
ends as `(old & ~WM) | (VM & WM)`, `old` its value at the first access; no byte of an unaffected
register or outside the function-select registers, and no latch bit, changes. -/
def Obligations.FselSetCompletes : Prop :=
  ∀ (s b : State) (pcs : List (Pin × BitVec 3)), 0x3C ≤ s.cfg.bankSize →
    s.Excl (fselSetAccesses (pcs.map Prod.fst)) →
    b = s.atFirstAccess (fselSetAccesses (pcs.map Prod.fst)) →
    ∃ t : State,
      exec (.fselSet (pcs.map fun pc => pinWord pc.1) (pcs.map fun pc => codeWord pc.2)) s =
        .next t ∧
      Ended s (okResponse []) t ∧
      (∀ r : Fin 6, t.peek (4 * r.val) .w4 =
        (b.peek (4 * r.val) .w4 &&& ~~~(batchWriteMask r (pcs.map Prod.fst))) |||
          (batchValueMask r pcs &&& batchWriteMask r (pcs.map Prod.fst))) ∧
      t.trace = s.trace ++ ([0, 1, 2, 3, 4, 5] : List (Fin 6)).flatMap (fun r =>
        if ∃ pc ∈ pcs, fselReg pc.1 = r then
          [readEntry (4 * r.val) (b.peek (4 * r.val) .w4),
            writeEntry (4 * r.val) (t.peek (4 * r.val) .w4)]
        else []) ∧
      (∀ a, (∀ pc ∈ pcs, a / 4 ≠ pc.1.val / 10) → t.mem.byteAt a = b.mem.byteAt a) ∧
      (s.cfg.kind = .gpio → t.mem = b.mem) ∧
      (s.cfg.kind = .mem → t.fselv = b.fselv) ∧
      t.outv = b.outv ∧ t.draws = s.draws

/-- 41_pinmux_codec.md R151, R258: whatever the environment does, on either bank kind, `FSEL.SET`
makes exactly one read and then one write per affected register, ascending, the written value
computed from the value read; a zero mask makes no access. -/
def Obligations.FselSetTouchesOnlyAffectedRegisters : Prop :=
  ∀ (s : State) (pcs : List (Pin × BitVec 3)), 0x3C ≤ s.cfg.bankSize →
    ∃ (t : State) (old : Fin 6 → Word),
      exec (.fselSet (pcs.map fun pc => pinWord pc.1) (pcs.map fun pc => codeWord pc.2)) s =
        .next t ∧
      Ended s (okResponse []) t ∧
      t.trace = s.trace ++ ([0, 1, 2, 3, 4, 5] : List (Fin 6)).flatMap (fun r =>
        if ∃ pc ∈ pcs, fselReg pc.1 = r then
          [readEntry (4 * r.val) (old r), writeEntry (4 * r.val)
            ((old r &&& ~~~(batchWriteMask r (pcs.map Prod.fst))) |||
              (batchValueMask r pcs &&& batchWriteMask r (pcs.map Prod.fst)))]
        else [])

/-- 41_pinmux_codec.md R154, R156: after `FSEL.SET` under `EXCL` the field of every pin of the batch
holds the OR of the codes given for it, and every other bit of every function-select register (other
pins' fields, bits 31:30, the unused fields of `FSEL5`) keeps its value. -/
def Obligations.FselSetLeavesOtherFields : Prop :=
  ∀ (s b t : State) (pcs : List (Pin × BitVec 3)), 0x3C ≤ s.cfg.bankSize →
    s.Excl (fselSetAccesses (pcs.map Prod.fst)) →
    b = s.atFirstAccess (fselSetAccesses (pcs.map Prod.fst)) →
    exec (.fselSet (pcs.map fun pc => pinWord pc.1) (pcs.map fun pc => codeWord pc.2)) s =
      .next t →
      (∀ p ∈ pcs.map Prod.fst,
        (t.peek (4 * (p.val / 10)) .w4 >>> (3 * (p.val % 10))) &&& 7 = batchCode p pcs) ∧
      (∀ (r : Fin 6) (k : Nat),
        (∀ p ∈ pcs.map Prod.fst, p.val / 10 = r.val →
          ¬ (3 * (p.val % 10) ≤ k ∧ k < 3 * (p.val % 10) + 3)) →
        (t.peek (4 * r.val) .w4).getLsbD k = (b.peek (4 * r.val) .w4).getLsbD k)

/-- 41_pinmux_codec.md R155 (a): after `FSEL.SET [p], [code]` under `EXCL`, an `FSEL.GET` that
finds the bank as it was left returns `code` for `p` and for every other pin what an `FSEL.GET`
that finds the bank as the `FSEL.SET` found it returns. -/
def Obligations.FselRoundTripNoClobber : Prop :=
  ∀ (g s t u : State) (p : Pin) (c : BitVec 3) (qs : List Pin), 0x3C ≤ s.cfg.bankSize →
    g.Excl 6 → s.Excl 2 → u.Excl 6 → g.cfg = s.cfg → SameBank g.envTurn s.envTurn →
    exec (.fselSet [pinWord p] [codeWord c]) s = .next t →
    SameBank t u.envTurn → u.cfg = t.cfg →
      ∃ (before after : State) (codes : List Word),
        exec (.fselGet (qs.map pinWord)) g = .next before ∧
        Ended g (okResponse codes) before ∧ codes.length = qs.length ∧
        exec (.fselGet (qs.map pinWord)) u = .next after ∧
        Ended u (okResponse ((qs.zip codes).map fun qc =>
          if qc.1 = p then codeWord c else qc.2)) after

/-- 41_pinmux_codec.md R155 (b): under `EXCL` one batch over disjoint pin sets leaves in every
function-select register what the two batches leave one after the other, from a bank that the batch
and the first of the two find alike. -/
def Obligations.FselBatchEqualsSequence : Prop :=
  ∀ (s t s1 t1 u t2 : State) (as bs : List (Pin × BitVec 3)), 0x3C ≤ s.cfg.bankSize →
    s.Excl (fselSetAccesses ((as ++ bs).map Prod.fst)) →
    s1.Excl (fselSetAccesses (as.map Prod.fst)) →
    u.Excl (fselSetAccesses (bs.map Prod.fst)) → (∀ a ∈ as, ∀ b ∈ bs, a.1 ≠ b.1) →
    exec (.fselSet ((as ++ bs).map fun pc => pinWord pc.1)
      ((as ++ bs).map fun pc => codeWord pc.2)) s = .next t →
    s1.cfg = s.cfg →
    SameBank (s.atFirstAccess (fselSetAccesses ((as ++ bs).map Prod.fst)))
      (s1.atFirstAccess (fselSetAccesses (as.map Prod.fst))) →
    exec (.fselSet (as.map fun pc => pinWord pc.1) (as.map fun pc => codeWord pc.2)) s1 =
      .next t1 →
    SameBank t1 (u.atFirstAccess (fselSetAccesses (bs.map Prod.fst))) → u.cfg = t1.cfg →
    exec (.fselSet (bs.map fun pc => pinWord pc.1) (bs.map fun pc => codeWord pc.2)) u =
      .next t2 →
      ∀ r : Fin 6, t.peek (4 * r.val) .w4 = t2.peek (4 * r.val) .w4

/-- 60_exceptions.md R212: a code paired with a pin and greater than 7 raises
`InvalidFunctionCode` with no bank access. -/
def Obligations.InvalidCodeRaises : Prop :=
  ∀ (s : State) (ps : List Pin) (codes : List Word), 0x3C ≤ s.cfg.bankSize →
    (∃ c ∈ codes.take ps.length, 7 < c.toNat) →
      EndsUntouched (.fselSet (ps.map pinWord) codes) s (errorResponse .invalidFunctionCode 0)

/-- 60_exceptions.md R213: `ArityMismatch` and its `INFO`: codes ran out (0), pins ran out (1, the
surplus not range-checked), values ran out (0, after the two snapshot reads and with no write);
surplus values are no error. -/
def Obligations.ArityMismatchRaises : Prop :=
  (∀ (s : State) (ps : List Pin) (codes : List Word), 0x3C ≤ s.cfg.bankSize →
    (∀ c ∈ codes.take ps.length, c.toNat ≤ 7) →
      (codes.length < ps.length →
        EndsUntouched (.fselSet (ps.map pinWord) codes) s (errorResponse .arityMismatch 0)) ∧
      (ps.length < codes.length →
        EndsUntouched (.fselSet (ps.map pinWord) codes) s (errorResponse .arityMismatch 1))) ∧
  (∀ (s : State) (ps : List Pin) (values : List (Option Bool)), 0x3C ≤ s.cfg.bankSize →
    (values.length < ps.length →
      ∃ (t : State) (v0 v1 : Word), exec (.dioWrrb (ps.map pinWord) values) s = .next t ∧
        Ended s (errorResponse .arityMismatch 0) t ∧
        t.trace = s.trace ++ [readEntry 0x34 v0, readEntry 0x38 v1] ∧
        SameBank (State.envTurns 2 s) t) ∧
    (ps.length < values.length →
      exec (.dioWrrb (ps.map pinWord) values) s =
        exec (.dioWrrb (ps.map pinWord) (values.take ps.length)) s))

/-- 70_reset_and_hazards.md R252: a write of `FSELn` by another agent between the read and the write
of `FSEL.SET` is overwritten: the register ends as computed from the older value, whatever the
other agent wrote (the schedule `env` is the model's: notes/assumptions/9.md). -/
def Obligations.LostUpdateInFselSet : Prop :=
  ∀ (s : State) (p : Pin) (c : BitVec 3) (x : Word), s.cfg.kind = .gpio →
    0x3C ≤ s.cfg.bankSize →
    s.env = [[], [{ addr := 4 * (p.val / 10), width := .w4, value := x }]] →
      ∃ t : State, exec (.fselSet [pinWord p] [codeWord c]) s = .next t ∧
        Ended s (okResponse []) t ∧
        t.fselv = s.fselv.set (fselReg p)
          ((s.fselv[fselReg p] &&& ~~~((7 : Word) <<< (3 * (p.val % 10)))) |||
            (codeWord c <<< (3 * (p.val % 10)))) ∧
        t.outv = s.outv ∧ t.mem = s.mem

/-- 41_pinmux_codec.md R157, 10_state.md R36: lanes of different pins never overlap, and no lane
leaves its register's 30 bits. -/
def Obligations.FselLanesAreDisjoint : Prop :=
  ∀ p q : Pin, p ≠ q →
    (fselReg p ≠ fselReg q ∨ fieldMask p &&& fieldMask q = 0) ∧ (fieldMask p).toNat < 2 ^ 30

/-! ### DIO -/

/-- 42_dio_batch.md R170: `DIO.READ` completes on either bank kind and whatever the environment
does: two reads, `0x34` then `0x38`, of what the bank holds when each is made, and one level per pin
from the two values read; no write. -/
def Obligations.DioReadCompletes : Prop :=
  ∀ (s : State) (ps : List Pin), 0x3C ≤ s.cfg.bankSize →
    ∃ (t : State) (v0 v1 : Word), exec (.dioRead (ps.map pinWord)) s = .next t ∧
      [v0, v1] = s.readsAt .w4 [0x34, 0x38] ∧
      Ended s (okResponse (ps.map (snapshotLevel v0 v1))) t ∧
      t.trace = s.trace ++ [readEntry 0x34 v0, readEntry 0x38 v1] ∧
      SameBank (State.envTurns 2 s) t

/-- 42_dio_batch.md R171, R174: `DIO.WRRB` completes on either bank kind and whatever the
environment does: the two snapshot reads of what the bank holds then, then the writes of the
non-zero masks, set before clear; the results are the levels of the snapshot, before any write; the
bank is what these accesses leave, each after the environment's turn. -/
def Obligations.DioWrrbCompletes : Prop :=
  ∀ (s : State) (ps : List Pin) (values : List (Option Bool)), 0x3C ≤ s.cfg.bankSize →
    ps.length ≤ values.length →
      ∃ (t : State) (v0 v1 : Word), exec (.dioWrrb (ps.map pinWord) values) s = .next t ∧
        [v0, v1] = s.readsAt .w4 [0x34, 0x38] ∧
        Ended s (okResponse (ps.map (snapshotLevel v0 v1))) t ∧
        t.trace = s.trace ++ ([readEntry 0x34 v0, readEntry 0x38 v1] ++
          batchLevelWrites (ps.zip values)) ∧
        SameBank (s.afterAccesses ([readEntry 0x34 v0, readEntry 0x38 v1] ++
          batchLevelWrites (ps.zip values))) t

/-- 20_memory.md R66 with 42_dio_batch.md R176, R177, on a GPIO-kind bank and whatever other agents
do meanwhile: `DIO.WRRB` leaves the latch bit of every pin it gives no level as the environment
alone would; a pin whose bit no other agent writes meanwhile ends at the level given, the clear
winning; function selects and memory are what the environment alone leaves (the schedule `env` is
the model's: notes/assumptions/9.md). -/
def Obligations.DioWrrbIsAtomicPerBit : Prop :=
  ∀ (s e : State) (ps : List Pin) (values : List (Option Bool)), s.cfg.kind = .gpio →
    0x3C ≤ s.cfg.bankSize → ps.length ≤ values.length →
    e = State.envTurns (dioWrrbAccesses (ps.zip values)) s →
      ∃ t : State, exec (.dioWrrb (ps.map pinWord) values) s = .next t ∧
        (∀ q : Pin, (∀ v, (q, some v) ∉ ps.zip values) → t.latchBit q = e.latchBit q) ∧
        (∀ q : Pin, s.EnvSpares (dioWrrbAccesses (ps.zip values)) q →
          t.latchBit q =
            if (q, some false) ∈ ps.zip values then false
            else if (q, some true) ∈ ps.zip values then true
            else s.latchBit q) ∧
        t.fselv = e.fselv ∧ t.mem = e.mem

/-- 42_dio_batch.md R170, R171 with 10_state.md R32, R40, on a GPIO-kind bank with no other agent
between the two snapshot reads: the level `DIO.READ` and `DIO.WRRB` return for a pin is its latch
bit where the loopback law ties them, and else its bit of the draw of its level register
(notes/assumptions/8.md). -/
def Obligations.DioLevelsFollowLoopback : Prop :=
  ∀ (s : State) (ps : List Pin) (values : List (Option Bool)), s.cfg.kind = .gpio →
    0x3C ≤ s.cfg.bankSize → s.Excl 2 →
      (∃ t : State, exec (.dioRead (ps.map pinWord)) s = .next t ∧
        Ended s (okResponse (ps.map fun p =>
          s.envTurn.pinLevel (Config.draw (s.draws + p.val / 32)) p)) t ∧
        SameBank s.envTurn t ∧ t.draws = s.draws + 2) ∧
      (ps.length ≤ values.length →
        ∃ t : State, exec (.dioWrrb (ps.map pinWord) values) s = .next t ∧
          Ended s (okResponse (ps.map fun p =>
            s.envTurn.pinLevel (Config.draw (s.draws + p.val / 32)) p)) t ∧
          t.draws = s.draws + 2)

/-- 42_dio_batch.md R176, R177: on a GPIO-kind bank under `EXCL`, the latch bit of every pin after
`DIO.WRRB` is 0 if some position gives it `false`, else 1 if some gives it `true`, else as before;
no function-select register and no byte of memory changes. -/
def Obligations.DioWrrbDrivesLatch : Prop :=
  ∀ (s : State) (ps : List Pin) (values : List (Option Bool)), s.cfg.kind = .gpio →
    s.Excl (dioWrrbAccesses (ps.zip values)) → 0x3C ≤ s.cfg.bankSize →
    ps.length ≤ values.length →
      ∃ t : State, exec (.dioWrrb (ps.map pinWord) values) s = .next t ∧
        (∀ q : Pin, t.outv[bitReg q].getLsbD (q.val % 32) =
          if (q, some false) ∈ ps.zip values then false
          else if (q, some true) ∈ ps.zip values then true
          else s.envTurn.outv[bitReg q].getLsbD (q.val % 32)) ∧
        t.fselv = s.envTurn.fselv ∧ t.mem = s.envTurn.mem

/-- 42_dio_batch.md R171 on a MEM-kind bank under `EXCL`: the levels are those standing at `0x34`
and `0x38` at the first access, and no byte outside the set and clear registers of a non-zero mask
changes. -/
def Obligations.DioWrrbStoresMasks : Prop :=
  ∀ (s : State) (ps : List Pin) (values : List (Option Bool)), s.cfg.kind = .mem →
    s.Excl (dioWrrbAccesses (ps.zip values)) → 0x3C ≤ s.cfg.bankSize →
    ps.length ≤ values.length →
      ∃ t : State, exec (.dioWrrb (ps.map pinWord) values) s = .next t ∧
        Ended s (okResponse (ps.map
          (snapshotLevel (s.envTurn.peek 0x34 .w4) (s.envTurn.peek 0x38 .w4)))) t ∧
        (∀ e ∈ batchLevelWrites (ps.zip values), t.peek e.addr .w4 = e.value) ∧
        (∀ a, (∀ e ∈ batchLevelWrites (ps.zip values), a < e.addr ∨ e.addr + 4 ≤ a) →
          t.mem.byteAt a = s.envTurn.mem.byteAt a) ∧
        t.fselv = s.envTurn.fselv ∧ t.outv = s.envTurn.outv ∧ t.draws = s.draws

/-- 42_dio_batch.md R175 (a): with every value `absent`, `DIO.WRRB` is the pure read `DIO.READ`:
the same outcome from the same state, so the same results, the same trace and no write. On a GPIO-
kind bank R175 (a) needs the level oracle to answer both operations alike; here it does because
both start from the same draw counter (the model's choice: notes/assumptions/8.md). -/
def Obligations.AllAbsentIsPureRead : Prop :=
  ∀ (s : State) (pins : List Word) (n : Nat), pins.length ≤ n →
    exec (.dioWrrb pins (List.replicate n none)) s = exec (.dioRead pins) s

/-- 42_dio_batch.md R175 (b), the source's worked masks: `DIO.WRRB [3, 35], [true, false]` writes
exactly `0x1C <- 8` and `0x2C <- 8`. -/
def Obligations.WorkedMasksAreExact : Prop :=
  ∀ s : State, 0x3C ≤ s.cfg.bankSize →
    ∃ (t : State) (v0 v1 : Word),
      exec (.dioWrrb [3, 35] [some true, some false]) s = .next t ∧
      t.trace = s.trace ++ [readEntry 0x34 v0, readEntry 0x38 v1, writeEntry 0x1C 8,
        writeEntry 0x2C 8] ∧
      Ended s (okResponse [(v0 >>> 3) &&& 1, (v1 >>> 3) &&& 1]) t

/-! ### SPI -/

/-- 43_spi_fragmenter.md R190 with 30_encoding.md R102: `SPI.BUILD` case by case, in every state:
`InvalidArgument` first, then 0, 1 or 2 descriptors of six words, pointers modulo `2^32`; no bank
access and no state changed but the response. -/
def Obligations.SpiBuildPlansTransfers : Prop :=
  ∀ (s : State) (len : Word) (extra : BitVec 8) (tx rx delay speed : Word),
    EndsUntouched (.spiBuild len extra tx rx delay speed) s
      (if 7 < extra.toNat then errorResponse .invalidArgument 0
      else if len = 0 then okResponse []
      else if len = 1 ∧ extra = 0 then okResponse [tx, rx, 1, 8, delay, speed]
      else if len = 1 then okResponse [tx, rx, 1, extra.setWidth 32, delay, speed]
      else if extra = 0 then okResponse [tx, rx, len, 8, delay, speed]
      else okResponse [tx, rx, len - 1, 8, delay, speed,
        tx + (len - 1), rx + (len - 1), 1, extra.setWidth 32, delay, speed])

/-- 43_spi_fragmenter.md R193: the laws of the plan, for every length and `extra_bits <= 7`. -/
def Obligations.SpiPlanTilesTheBuffer : Prop :=
  ∀ (len extra : Nat) (delay speed : Word), extra ≤ 7 →
    let d := buildTransfers len extra delay speed
    (d.length = 0 ↔ len = 0) ∧ (d.length = 2 ↔ 1 < len ∧ 0 < extra) ∧ d.length ≤ 2 ∧
    (∀ x, d[0]? = some x → x.off = 0) ∧
    (∀ k x y, d[k]? = some x → d[k + 1]? = some y → y.off = x.off + x.len) ∧
    (d.map Descriptor.len).sum = len ∧
    (∀ k x, d[k]? = some x → x.bpw ≠ 8 → k + 1 = d.length) ∧
    (∀ x, d.getLast? = some x → (x.bpw = extra ↔ 0 < extra)) ∧
    (∀ x ∈ d, x.bpw < 8 → x.len = 1) ∧ (∀ x ∈ d, 1 ≤ x.bpw ∧ x.bpw ≤ 8) ∧
    (∀ x ∈ d, x.delay = delay ∧ x.speed = speed)
end

