-- ==== Sys2Proof/Laws/Memory.lean ====
section
/-! SUPPORT. The byte store: read after write, a write leaves every other address alone, and every
operation keeps the canonical form. -/

namespace Sys2Proof.Machine

theorem Memory.lookup_store (m : Memory) (a : Nat) (b : Byte) (k : Nat) :
    (m.store a b).lookup k = if k = a then some b else m.lookup k := by
  induction m with
  | nil => simp [Memory.store, Memory.lookup]
  | cons c rest ih =>
    obtain ⟨j, d⟩ := c
    simp only [Memory.store]
    split
    · simp [Memory.lookup]
    · split
      · subst_vars
        simp only [Memory.lookup]
        split <;> simp_all
      · simp only [Memory.lookup, ih]
        split <;> split <;> simp_all

/-- One byte after one store. -/
theorem Memory.byteAt_store (m : Memory) (a : Nat) (b : Byte) (k : Nat) :
    (m.store a b).byteAt k = if k = a then b else m.byteAt k := by
  simp only [Memory.byteAt, Memory.lookup_store]
  split <;> rename_i h <;> split at h <;> simp_all

/-- The addresses a store lists. -/
theorem Memory.mem_store {m : Memory} {a : Nat} {b : Byte} {c : Host.Cell}
    (h : c ∈ m.store a b) : c = (a, b) ∨ c ∈ m := by
  induction m with
  | nil => simpa [Memory.store] using h
  | cons d rest ih =>
    obtain ⟨j, d⟩ := d
    simp only [Memory.store] at h
    split at h
    · simpa using h
    · split at h
      · rcases List.mem_cons.mp h with h | h
        · exact .inl h
        · exact .inr (List.mem_cons_of_mem _ h)
      · rcases List.mem_cons.mp h with h | h
        · exact .inr (h ▸ List.mem_cons_self)
        · exact (ih h).imp_right (List.mem_cons_of_mem _)

/-- A store keeps the canonical form. -/
theorem Memory.store_wf {m : Memory} (h : m.wf) (a : Nat) (b : Byte) : (m.store a b).wf := by
  induction m with
  | nil => simp [Memory.store, Memory.wf]
  | cons c rest ih =>
    obtain ⟨j, d⟩ := c
    have hj := List.pairwise_cons.mp (show ((j, d) :: rest |>.map Prod.fst).Pairwise (· < ·) from h)
    simp only [Memory.store]
    split
    · rename_i hlt
      refine List.pairwise_cons.mpr ⟨?_, h⟩
      intro k hk
      rcases List.mem_cons.mp hk with rfl | hk
      · exact hlt
      · exact Nat.lt_trans hlt (hj.1 k hk)
    · split
      · subst_vars
        exact h
      · refine List.pairwise_cons.mpr ⟨?_, ih hj.2⟩
        intro k hk
        obtain ⟨e, he, rfl⟩ := List.mem_map.mp hk
        rcases Memory.mem_store he with rfl | he
        · simp only; omega
        · exact hj.1 _ (List.mem_map_of_mem he)

/-- Storing bytes keeps the canonical form. -/
theorem Memory.storeBytes_wf {m : Memory} (h : m.wf) (a : Nat) (bs : List Byte) :
    (m.storeBytes a bs).wf := by
  induction bs generalizing m a with
  | nil => exact h
  | cons b bs ih => exact ih (Memory.store_wf h a b) (a + 1)

/-- The addresses that storing bytes lists. -/
theorem Memory.mem_storeBytes {m : Memory} {a : Nat} {bs : List Byte} {c : Host.Cell}
    (h : c ∈ m.storeBytes a bs) : (a ≤ c.1 ∧ c.1 < a + bs.length) ∨ c ∈ m := by
  induction bs generalizing m a with
  | nil => exact .inr h
  | cons b bs ih =>
    simp only [List.length_cons]
    rcases ih h with h | h
    · exact .inl ⟨by omega, by omega⟩
    · rcases Memory.mem_store h with rfl | h
      · exact .inl ⟨Nat.le_refl _, by simp⟩
      · exact .inr h

/-- One byte after storing bytes. -/
theorem Memory.byteAt_storeBytes (m : Memory) (a : Nat) (bs : List Byte) (k : Nat) :
    (m.storeBytes a bs).byteAt k =
      if a ≤ k ∧ k < a + bs.length then bs.getD (k - a) 0 else m.byteAt k := by
  induction bs generalizing m a with
  | nil =>
    simp only [Memory.storeBytes, List.length_nil]
    split
    · omega
    · rfl
  | cons b bs ih =>
    simp only [Memory.storeBytes, ih, Memory.byteAt_store, List.length_cons]
    by_cases h1 : k = a
    · subst h1
      simp
    · by_cases h2 : a + 1 ≤ k ∧ k < a + 1 + bs.length
      · rw [if_pos h2, if_pos (by omega), show k - a = (k - (a + 1)) + 1 by omega]
        simp
      · rw [if_neg h2, if_neg h1, if_neg (by omega)]

@[simp] theorem Memory.length_bytesAt (m : Memory) (a n : Nat) : (m.bytesAt a n).length = n := by
  induction n generalizing a with
  | zero => rfl
  | succ n ih => simp [Memory.bytesAt, ih]

/-- The byte at a position of a run of bytes. -/
theorem Memory.getElem_bytesAt (m : Memory) (a n i : Nat) (h : i < (m.bytesAt a n).length) :
    (m.bytesAt a n)[i] = m.byteAt (a + i) := by
  induction n generalizing a i with
  | zero => simp [Memory.bytesAt] at h
  | succ n ih =>
    cases i with
    | zero => rfl
    | succ i =>
      simp only [Memory.bytesAt, List.getElem_cons_succ, ih]
      congr 1
      omega

/-- Bytes read where bytes were just stored. -/
theorem Memory.bytesAt_storeBytes_self (m : Memory) (a : Nat) (bs : List Byte) :
    (m.storeBytes a bs).bytesAt a bs.length = bs := by
  refine List.ext_getElem (by simp) fun i h1 h2 => ?_
  rw [Memory.getElem_bytesAt, Memory.byteAt_storeBytes, if_pos (by omega)]
  simp [h2]

/-- Bytes read apart from where bytes were stored. -/
theorem Memory.bytesAt_storeBytes_other (m : Memory) (a k n : Nat) (bs : List Byte)
    (h : k + n ≤ a ∨ a + bs.length ≤ k) :
    (m.storeBytes a bs).bytesAt k n = m.bytesAt k n := by
  refine List.ext_getElem (by simp) fun i h1 h2 => ?_
  simp only [Memory.length_bytesAt] at h2
  rw [Memory.getElem_bytesAt, Memory.getElem_bytesAt, Memory.byteAt_storeBytes, if_neg (by omega)]

end Sys2Proof.Machine
end

