-- ==== Sys2Proof/Laws/State.lean ====
section
/-! SUPPORT. One lemma for each field of `State` under each named update: no later proof unfolds a
record update. -/

namespace Sys2Proof.Machine

variable (s : State)

/-! ### `State.finish` -/

@[simp] theorem State.finish_cfg (q : Response) : (s.finish q).cfg = s.cfg := rfl
@[simp] theorem State.finish_seq (q : Response) : (s.finish q).seq = .idle := rfl
@[simp] theorem State.finish_cmd (q : Response) : (s.finish q).cmd = [] := rfl
@[simp] theorem State.finish_inbox (q : Response) : (s.finish q).inbox = s.inbox := rfl
@[simp] theorem State.finish_outbox (q : Response) :
    (s.finish q).outbox = s.outbox ++ [q.words] := rfl
@[simp] theorem State.finish_work (q : Response) : (s.finish q).work = WorkRegs.dropped := rfl
@[simp] theorem State.finish_mem (q : Response) : (s.finish q).mem = s.mem := rfl
@[simp] theorem State.finish_fselv (q : Response) : (s.finish q).fselv = s.fselv := rfl
@[simp] theorem State.finish_outv (q : Response) : (s.finish q).outv = s.outv := rfl
@[simp] theorem State.finish_env (q : Response) : (s.finish q).env = s.env := rfl
@[simp] theorem State.finish_draws (q : Response) : (s.finish q).draws = s.draws := rfl
@[simp] theorem State.finish_trace (q : Response) : (s.finish q).trace = s.trace := rfl

/-! ### `State.raise` -/

@[simp] theorem State.raise_cfg (e : Err) (info : BitVec 8) : (s.raise e info).cfg = s.cfg := rfl
@[simp] theorem State.raise_seq (e : Err) (info : BitVec 8) : (s.raise e info).seq = .idle := rfl
@[simp] theorem State.raise_cmd (e : Err) (info : BitVec 8) : (s.raise e info).cmd = [] := rfl
@[simp] theorem State.raise_inbox (e : Err) (info : BitVec 8) :
    (s.raise e info).inbox = s.inbox := rfl
@[simp] theorem State.raise_outbox (e : Err) (info : BitVec 8) :
    (s.raise e info).outbox = s.outbox ++ [(errorResponse e info).words] := rfl
@[simp] theorem State.raise_work (e : Err) (info : BitVec 8) :
    (s.raise e info).work = WorkRegs.dropped := rfl
@[simp] theorem State.raise_mem (e : Err) (info : BitVec 8) : (s.raise e info).mem = s.mem := rfl
@[simp] theorem State.raise_fselv (e : Err) (info : BitVec 8) :
    (s.raise e info).fselv = s.fselv := rfl
@[simp] theorem State.raise_outv (e : Err) (info : BitVec 8) :
    (s.raise e info).outv = s.outv := rfl
@[simp] theorem State.raise_env (e : Err) (info : BitVec 8) : (s.raise e info).env = s.env := rfl
@[simp] theorem State.raise_draws (e : Err) (info : BitVec 8) :
    (s.raise e info).draws = s.draws := rfl
@[simp] theorem State.raise_trace (e : Err) (info : BitVec 8) :
    (s.raise e info).trace = s.trace := rfl

/-! ### `State.respondOk` -/

@[simp] theorem State.respondOk_cfg (rs : List Word) : (s.respondOk rs).cfg = s.cfg := rfl
@[simp] theorem State.respondOk_seq (rs : List Word) : (s.respondOk rs).seq = .idle := rfl
@[simp] theorem State.respondOk_cmd (rs : List Word) : (s.respondOk rs).cmd = [] := rfl
@[simp] theorem State.respondOk_inbox (rs : List Word) : (s.respondOk rs).inbox = s.inbox := rfl
@[simp] theorem State.respondOk_outbox (rs : List Word) :
    (s.respondOk rs).outbox = s.outbox ++ [(okResponse rs).words] := rfl
@[simp] theorem State.respondOk_work (rs : List Word) :
    (s.respondOk rs).work = WorkRegs.dropped := rfl
@[simp] theorem State.respondOk_mem (rs : List Word) : (s.respondOk rs).mem = s.mem := rfl
@[simp] theorem State.respondOk_fselv (rs : List Word) : (s.respondOk rs).fselv = s.fselv := rfl
@[simp] theorem State.respondOk_outv (rs : List Word) : (s.respondOk rs).outv = s.outv := rfl
@[simp] theorem State.respondOk_env (rs : List Word) : (s.respondOk rs).env = s.env := rfl
@[simp] theorem State.respondOk_draws (rs : List Word) : (s.respondOk rs).draws = s.draws := rfl
@[simp] theorem State.respondOk_trace (rs : List Word) : (s.respondOk rs).trace = s.trace := rfl

/-! ### `State.holdCommand` -/

@[simp] theorem State.holdCommand_cfg (ws : List Word) : (s.holdCommand ws).cfg = s.cfg := rfl
@[simp] theorem State.holdCommand_seq (ws : List Word) : (s.holdCommand ws).seq = .busy := rfl
@[simp] theorem State.holdCommand_cmd (ws : List Word) : (s.holdCommand ws).cmd = ws := rfl
@[simp] theorem State.holdCommand_inbox (ws : List Word) :
    (s.holdCommand ws).inbox = s.inbox := rfl
@[simp] theorem State.holdCommand_outbox (ws : List Word) :
    (s.holdCommand ws).outbox = s.outbox := rfl
@[simp] theorem State.holdCommand_work (ws : List Word) : (s.holdCommand ws).work = s.work := rfl
@[simp] theorem State.holdCommand_mem (ws : List Word) : (s.holdCommand ws).mem = s.mem := rfl
@[simp] theorem State.holdCommand_fselv (ws : List Word) :
    (s.holdCommand ws).fselv = s.fselv := rfl
@[simp] theorem State.holdCommand_outv (ws : List Word) : (s.holdCommand ws).outv = s.outv := rfl
@[simp] theorem State.holdCommand_env (ws : List Word) : (s.holdCommand ws).env = s.env := rfl
@[simp] theorem State.holdCommand_draws (ws : List Word) :
    (s.holdCommand ws).draws = s.draws := rfl
@[simp] theorem State.holdCommand_trace (ws : List Word) :
    (s.holdCommand ws).trace = s.trace := rfl

/-! ### `State.accept` -/

@[simp] theorem State.accept_cfg (ws : List Word) : (s.accept ws).cfg = s.cfg := rfl
@[simp] theorem State.accept_seq (ws : List Word) : (s.accept ws).seq = .busy := rfl
@[simp] theorem State.accept_cmd (ws : List Word) : (s.accept ws).cmd = ws := rfl
@[simp] theorem State.accept_inbox (ws : List Word) : (s.accept ws).inbox = s.inbox := rfl
@[simp] theorem State.accept_outbox (ws : List Word) : (s.accept ws).outbox = s.outbox := rfl
@[simp] theorem State.accept_work (ws : List Word) : (s.accept ws).work = s.work := rfl
@[simp] theorem State.accept_mem (ws : List Word) : (s.accept ws).mem = s.mem := rfl
@[simp] theorem State.accept_fselv (ws : List Word) : (s.accept ws).fselv = s.fselv := rfl
@[simp] theorem State.accept_outv (ws : List Word) : (s.accept ws).outv = s.outv := rfl
@[simp] theorem State.accept_env (ws : List Word) : (s.accept ws).env = s.env := rfl
@[simp] theorem State.accept_draws (ws : List Word) : (s.accept ws).draws = s.draws := rfl
@[simp] theorem State.accept_trace (ws : List Word) : (s.accept ws).trace = [] := rfl

/-! ### `State.resetEvent` -/

@[simp] theorem State.resetEvent_cfg : s.resetEvent.cfg = s.cfg := rfl
@[simp] theorem State.resetEvent_seq : s.resetEvent.seq = .idle := rfl
@[simp] theorem State.resetEvent_cmd : s.resetEvent.cmd = [] := rfl
@[simp] theorem State.resetEvent_inbox : s.resetEvent.inbox = s.inbox := rfl
@[simp] theorem State.resetEvent_outbox : s.resetEvent.outbox = s.outbox := rfl
@[simp] theorem State.resetEvent_work : s.resetEvent.work = WorkRegs.dropped := rfl
@[simp] theorem State.resetEvent_mem : s.resetEvent.mem = s.mem := rfl
@[simp] theorem State.resetEvent_fselv : s.resetEvent.fselv = s.fselv := rfl
@[simp] theorem State.resetEvent_outv : s.resetEvent.outv = s.outv := rfl
@[simp] theorem State.resetEvent_env : s.resetEvent.env = s.env := rfl
@[simp] theorem State.resetEvent_draws : s.resetEvent.draws = s.draws := rfl
@[simp] theorem State.resetEvent_trace : s.resetEvent.trace = s.trace := rfl

/-! ### `State.record` -/

@[simp] theorem State.record_cfg (k : AccessKind) (a : Nat) (w : AccessWidth) (v : Word) :
    (s.record k a w v).cfg = s.cfg := rfl
@[simp] theorem State.record_seq (k : AccessKind) (a : Nat) (w : AccessWidth) (v : Word) :
    (s.record k a w v).seq = s.seq := rfl
@[simp] theorem State.record_cmd (k : AccessKind) (a : Nat) (w : AccessWidth) (v : Word) :
    (s.record k a w v).cmd = s.cmd := rfl
@[simp] theorem State.record_inbox (k : AccessKind) (a : Nat) (w : AccessWidth) (v : Word) :
    (s.record k a w v).inbox = s.inbox := rfl
@[simp] theorem State.record_outbox (k : AccessKind) (a : Nat) (w : AccessWidth) (v : Word) :
    (s.record k a w v).outbox = s.outbox := rfl
@[simp] theorem State.record_work (k : AccessKind) (a : Nat) (w : AccessWidth) (v : Word) :
    (s.record k a w v).work = s.work := rfl
@[simp] theorem State.record_mem (k : AccessKind) (a : Nat) (w : AccessWidth) (v : Word) :
    (s.record k a w v).mem = s.mem := rfl
@[simp] theorem State.record_fselv (k : AccessKind) (a : Nat) (w : AccessWidth) (v : Word) :
    (s.record k a w v).fselv = s.fselv := rfl
@[simp] theorem State.record_outv (k : AccessKind) (a : Nat) (w : AccessWidth) (v : Word) :
    (s.record k a w v).outv = s.outv := rfl
@[simp] theorem State.record_env (k : AccessKind) (a : Nat) (w : AccessWidth) (v : Word) :
    (s.record k a w v).env = s.env := rfl
@[simp] theorem State.record_draws (k : AccessKind) (a : Nat) (w : AccessWidth) (v : Word) :
    (s.record k a w v).draws = s.draws := rfl
@[simp] theorem State.record_trace (k : AccessKind) (a : Nat) (w : AccessWidth) (v : Word) :
    (s.record k a w v).trace = s.trace ++ [{ kind := k, addr := a, width := w, value := v }] := rfl

/-! ### `State.setFselv` -/

@[simp] theorem State.setFselv_cfg (n : Fin 6) (v : Word) : (s.setFselv n v).cfg = s.cfg := rfl
@[simp] theorem State.setFselv_seq (n : Fin 6) (v : Word) : (s.setFselv n v).seq = s.seq := rfl
@[simp] theorem State.setFselv_cmd (n : Fin 6) (v : Word) : (s.setFselv n v).cmd = s.cmd := rfl
@[simp] theorem State.setFselv_inbox (n : Fin 6) (v : Word) :
    (s.setFselv n v).inbox = s.inbox := rfl
@[simp] theorem State.setFselv_outbox (n : Fin 6) (v : Word) :
    (s.setFselv n v).outbox = s.outbox := rfl
@[simp] theorem State.setFselv_work (n : Fin 6) (v : Word) : (s.setFselv n v).work = s.work := rfl
@[simp] theorem State.setFselv_mem (n : Fin 6) (v : Word) : (s.setFselv n v).mem = s.mem := rfl
@[simp] theorem State.setFselv_fselv (n : Fin 6) (v : Word) :
    (s.setFselv n v).fselv = s.fselv.set n v := rfl
@[simp] theorem State.setFselv_outv (n : Fin 6) (v : Word) : (s.setFselv n v).outv = s.outv := rfl
@[simp] theorem State.setFselv_env (n : Fin 6) (v : Word) : (s.setFselv n v).env = s.env := rfl
@[simp] theorem State.setFselv_draws (n : Fin 6) (v : Word) :
    (s.setFselv n v).draws = s.draws := rfl
@[simp] theorem State.setFselv_trace (n : Fin 6) (v : Word) :
    (s.setFselv n v).trace = s.trace := rfl

/-! ### `State.setOutv` -/

@[simp] theorem State.setOutv_cfg (r : Fin 2) (v : Word) : (s.setOutv r v).cfg = s.cfg := rfl
@[simp] theorem State.setOutv_seq (r : Fin 2) (v : Word) : (s.setOutv r v).seq = s.seq := rfl
@[simp] theorem State.setOutv_cmd (r : Fin 2) (v : Word) : (s.setOutv r v).cmd = s.cmd := rfl
@[simp] theorem State.setOutv_inbox (r : Fin 2) (v : Word) :
    (s.setOutv r v).inbox = s.inbox := rfl
@[simp] theorem State.setOutv_outbox (r : Fin 2) (v : Word) :
    (s.setOutv r v).outbox = s.outbox := rfl
@[simp] theorem State.setOutv_work (r : Fin 2) (v : Word) : (s.setOutv r v).work = s.work := rfl
@[simp] theorem State.setOutv_mem (r : Fin 2) (v : Word) : (s.setOutv r v).mem = s.mem := rfl
@[simp] theorem State.setOutv_fselv (r : Fin 2) (v : Word) :
    (s.setOutv r v).fselv = s.fselv := rfl
@[simp] theorem State.setOutv_outv (r : Fin 2) (v : Word) :
    (s.setOutv r v).outv = s.outv.set r v := rfl
@[simp] theorem State.setOutv_env (r : Fin 2) (v : Word) : (s.setOutv r v).env = s.env := rfl
@[simp] theorem State.setOutv_draws (r : Fin 2) (v : Word) :
    (s.setOutv r v).draws = s.draws := rfl
@[simp] theorem State.setOutv_trace (r : Fin 2) (v : Word) :
    (s.setOutv r v).trace = s.trace := rfl

/-! ### `State.setSnapf` -/

@[simp] theorem State.setSnapf_cfg (r : Fin 6) (v : Word) : (s.setSnapf r v).cfg = s.cfg := rfl
@[simp] theorem State.setSnapf_seq (r : Fin 6) (v : Word) : (s.setSnapf r v).seq = s.seq := rfl
@[simp] theorem State.setSnapf_cmd (r : Fin 6) (v : Word) : (s.setSnapf r v).cmd = s.cmd := rfl
@[simp] theorem State.setSnapf_inbox (r : Fin 6) (v : Word) :
    (s.setSnapf r v).inbox = s.inbox := rfl
@[simp] theorem State.setSnapf_outbox (r : Fin 6) (v : Word) :
    (s.setSnapf r v).outbox = s.outbox := rfl
@[simp] theorem State.setSnapf_work (r : Fin 6) (v : Word) :
    (s.setSnapf r v).work = ({ s.work with snapf := s.work.snapf.set r v } : WorkRegs) := rfl
@[simp] theorem State.setSnapf_mem (r : Fin 6) (v : Word) : (s.setSnapf r v).mem = s.mem := rfl
@[simp] theorem State.setSnapf_fselv (r : Fin 6) (v : Word) :
    (s.setSnapf r v).fselv = s.fselv := rfl
@[simp] theorem State.setSnapf_outv (r : Fin 6) (v : Word) : (s.setSnapf r v).outv = s.outv := rfl
@[simp] theorem State.setSnapf_env (r : Fin 6) (v : Word) : (s.setSnapf r v).env = s.env := rfl
@[simp] theorem State.setSnapf_draws (r : Fin 6) (v : Word) :
    (s.setSnapf r v).draws = s.draws := rfl
@[simp] theorem State.setSnapf_trace (r : Fin 6) (v : Word) :
    (s.setSnapf r v).trace = s.trace := rfl

/-! ### `State.setSnapl` -/

@[simp] theorem State.setSnapl_cfg (r : Fin 2) (v : Word) : (s.setSnapl r v).cfg = s.cfg := rfl
@[simp] theorem State.setSnapl_seq (r : Fin 2) (v : Word) : (s.setSnapl r v).seq = s.seq := rfl
@[simp] theorem State.setSnapl_cmd (r : Fin 2) (v : Word) : (s.setSnapl r v).cmd = s.cmd := rfl
@[simp] theorem State.setSnapl_inbox (r : Fin 2) (v : Word) :
    (s.setSnapl r v).inbox = s.inbox := rfl
@[simp] theorem State.setSnapl_outbox (r : Fin 2) (v : Word) :
    (s.setSnapl r v).outbox = s.outbox := rfl
@[simp] theorem State.setSnapl_work (r : Fin 2) (v : Word) :
    (s.setSnapl r v).work = ({ s.work with snapl := s.work.snapl.set r v } : WorkRegs) := rfl
@[simp] theorem State.setSnapl_mem (r : Fin 2) (v : Word) : (s.setSnapl r v).mem = s.mem := rfl
@[simp] theorem State.setSnapl_fselv (r : Fin 2) (v : Word) :
    (s.setSnapl r v).fselv = s.fselv := rfl
@[simp] theorem State.setSnapl_outv (r : Fin 2) (v : Word) : (s.setSnapl r v).outv = s.outv := rfl
@[simp] theorem State.setSnapl_env (r : Fin 2) (v : Word) : (s.setSnapl r v).env = s.env := rfl
@[simp] theorem State.setSnapl_draws (r : Fin 2) (v : Word) :
    (s.setSnapl r v).draws = s.draws := rfl
@[simp] theorem State.setSnapl_trace (r : Fin 2) (v : Word) :
    (s.setSnapl r v).trace = s.trace := rfl

/-! ### `State.clearFselMasks` -/

@[simp] theorem State.clearFselMasks_cfg : s.clearFselMasks.cfg = s.cfg := rfl
@[simp] theorem State.clearFselMasks_seq : s.clearFselMasks.seq = s.seq := rfl
@[simp] theorem State.clearFselMasks_cmd : s.clearFselMasks.cmd = s.cmd := rfl
@[simp] theorem State.clearFselMasks_inbox : s.clearFselMasks.inbox = s.inbox := rfl
@[simp] theorem State.clearFselMasks_outbox : s.clearFselMasks.outbox = s.outbox := rfl
@[simp] theorem State.clearFselMasks_work :
    s.clearFselMasks.work = ({ s.work with wm := #v[0, 0, 0, 0, 0, 0], vm := #v[0, 0, 0, 0, 0, 0] } : WorkRegs) := rfl
@[simp] theorem State.clearFselMasks_mem : s.clearFselMasks.mem = s.mem := rfl
@[simp] theorem State.clearFselMasks_fselv : s.clearFselMasks.fselv = s.fselv := rfl
@[simp] theorem State.clearFselMasks_outv : s.clearFselMasks.outv = s.outv := rfl
@[simp] theorem State.clearFselMasks_env : s.clearFselMasks.env = s.env := rfl
@[simp] theorem State.clearFselMasks_draws : s.clearFselMasks.draws = s.draws := rfl
@[simp] theorem State.clearFselMasks_trace : s.clearFselMasks.trace = s.trace := rfl

/-! ### `State.clearDioMasks` -/

@[simp] theorem State.clearDioMasks_cfg : s.clearDioMasks.cfg = s.cfg := rfl
@[simp] theorem State.clearDioMasks_seq : s.clearDioMasks.seq = s.seq := rfl
@[simp] theorem State.clearDioMasks_cmd : s.clearDioMasks.cmd = s.cmd := rfl
@[simp] theorem State.clearDioMasks_inbox : s.clearDioMasks.inbox = s.inbox := rfl
@[simp] theorem State.clearDioMasks_outbox : s.clearDioMasks.outbox = s.outbox := rfl
@[simp] theorem State.clearDioMasks_work :
    s.clearDioMasks.work = ({ s.work with sm := #v[0, 0], cm := #v[0, 0] } : WorkRegs) := rfl
@[simp] theorem State.clearDioMasks_mem : s.clearDioMasks.mem = s.mem := rfl
@[simp] theorem State.clearDioMasks_fselv : s.clearDioMasks.fselv = s.fselv := rfl
@[simp] theorem State.clearDioMasks_outv : s.clearDioMasks.outv = s.outv := rfl
@[simp] theorem State.clearDioMasks_env : s.clearDioMasks.env = s.env := rfl
@[simp] theorem State.clearDioMasks_draws : s.clearDioMasks.draws = s.draws := rfl
@[simp] theorem State.clearDioMasks_trace : s.clearDioMasks.trace = s.trace := rfl

/-! ### `State.clearRes` -/

@[simp] theorem State.clearRes_cfg : s.clearRes.cfg = s.cfg := rfl
@[simp] theorem State.clearRes_seq : s.clearRes.seq = s.seq := rfl
@[simp] theorem State.clearRes_cmd : s.clearRes.cmd = s.cmd := rfl
@[simp] theorem State.clearRes_inbox : s.clearRes.inbox = s.inbox := rfl
@[simp] theorem State.clearRes_outbox : s.clearRes.outbox = s.outbox := rfl
@[simp] theorem State.clearRes_work :
    s.clearRes.work = ({ s.work with res := [] } : WorkRegs) := rfl
@[simp] theorem State.clearRes_mem : s.clearRes.mem = s.mem := rfl
@[simp] theorem State.clearRes_fselv : s.clearRes.fselv = s.fselv := rfl
@[simp] theorem State.clearRes_outv : s.clearRes.outv = s.outv := rfl
@[simp] theorem State.clearRes_env : s.clearRes.env = s.env := rfl
@[simp] theorem State.clearRes_draws : s.clearRes.draws = s.draws := rfl
@[simp] theorem State.clearRes_trace : s.clearRes.trace = s.trace := rfl

/-! ### `State.appendRes` -/

@[simp] theorem State.appendRes_cfg (v : Word) : (s.appendRes v).cfg = s.cfg := rfl
@[simp] theorem State.appendRes_seq (v : Word) : (s.appendRes v).seq = s.seq := rfl
@[simp] theorem State.appendRes_cmd (v : Word) : (s.appendRes v).cmd = s.cmd := rfl
@[simp] theorem State.appendRes_inbox (v : Word) : (s.appendRes v).inbox = s.inbox := rfl
@[simp] theorem State.appendRes_outbox (v : Word) : (s.appendRes v).outbox = s.outbox := rfl
@[simp] theorem State.appendRes_work (v : Word) :
    (s.appendRes v).work = ({ s.work with res := s.work.res ++ [v] } : WorkRegs) := rfl
@[simp] theorem State.appendRes_mem (v : Word) : (s.appendRes v).mem = s.mem := rfl
@[simp] theorem State.appendRes_fselv (v : Word) : (s.appendRes v).fselv = s.fselv := rfl
@[simp] theorem State.appendRes_outv (v : Word) : (s.appendRes v).outv = s.outv := rfl
@[simp] theorem State.appendRes_env (v : Word) : (s.appendRes v).env = s.env := rfl
@[simp] theorem State.appendRes_draws (v : Word) : (s.appendRes v).draws = s.draws := rfl
@[simp] theorem State.appendRes_trace (v : Word) : (s.appendRes v).trace = s.trace := rfl

/-! ### `State.accumulateCode` -/

@[simp] theorem State.accumulateCode_cfg (p : Pin) (c : BitVec 3) :
    (s.accumulateCode p c).cfg = s.cfg := rfl
@[simp] theorem State.accumulateCode_seq (p : Pin) (c : BitVec 3) :
    (s.accumulateCode p c).seq = s.seq := rfl
@[simp] theorem State.accumulateCode_cmd (p : Pin) (c : BitVec 3) :
    (s.accumulateCode p c).cmd = s.cmd := rfl
@[simp] theorem State.accumulateCode_inbox (p : Pin) (c : BitVec 3) :
    (s.accumulateCode p c).inbox = s.inbox := rfl
@[simp] theorem State.accumulateCode_outbox (p : Pin) (c : BitVec 3) :
    (s.accumulateCode p c).outbox = s.outbox := rfl
@[simp] theorem State.accumulateCode_work (p : Pin) (c : BitVec 3) :
    (s.accumulateCode p c).work = ({ s.work with
      wm := s.work.wm.set (fselReg p) (s.work.wm[fselReg p] ||| fieldMask p)
      vm := s.work.vm.set (fselReg p) (s.work.vm[fselReg p] ||| fieldValue p c) } : WorkRegs) := rfl
@[simp] theorem State.accumulateCode_mem (p : Pin) (c : BitVec 3) :
    (s.accumulateCode p c).mem = s.mem := rfl
@[simp] theorem State.accumulateCode_fselv (p : Pin) (c : BitVec 3) :
    (s.accumulateCode p c).fselv = s.fselv := rfl
@[simp] theorem State.accumulateCode_outv (p : Pin) (c : BitVec 3) :
    (s.accumulateCode p c).outv = s.outv := rfl
@[simp] theorem State.accumulateCode_env (p : Pin) (c : BitVec 3) :
    (s.accumulateCode p c).env = s.env := rfl
@[simp] theorem State.accumulateCode_draws (p : Pin) (c : BitVec 3) :
    (s.accumulateCode p c).draws = s.draws := rfl
@[simp] theorem State.accumulateCode_trace (p : Pin) (c : BitVec 3) :
    (s.accumulateCode p c).trace = s.trace := rfl

/-! ### `State.accumulateLevel` -/

@[simp] theorem State.accumulateLevel_cfg (p : Pin) (v : Option Bool) :
    (s.accumulateLevel p v).cfg = s.cfg := by
  rcases v with _ | _ | _ <;> rfl
@[simp] theorem State.accumulateLevel_seq (p : Pin) (v : Option Bool) :
    (s.accumulateLevel p v).seq = s.seq := by
  rcases v with _ | _ | _ <;> rfl
@[simp] theorem State.accumulateLevel_cmd (p : Pin) (v : Option Bool) :
    (s.accumulateLevel p v).cmd = s.cmd := by
  rcases v with _ | _ | _ <;> rfl
@[simp] theorem State.accumulateLevel_inbox (p : Pin) (v : Option Bool) :
    (s.accumulateLevel p v).inbox = s.inbox := by
  rcases v with _ | _ | _ <;> rfl
@[simp] theorem State.accumulateLevel_outbox (p : Pin) (v : Option Bool) :
    (s.accumulateLevel p v).outbox = s.outbox := by
  rcases v with _ | _ | _ <;> rfl
@[simp] theorem State.accumulateLevel_mem (p : Pin) (v : Option Bool) :
    (s.accumulateLevel p v).mem = s.mem := by
  rcases v with _ | _ | _ <;> rfl
@[simp] theorem State.accumulateLevel_fselv (p : Pin) (v : Option Bool) :
    (s.accumulateLevel p v).fselv = s.fselv := by
  rcases v with _ | _ | _ <;> rfl
@[simp] theorem State.accumulateLevel_outv (p : Pin) (v : Option Bool) :
    (s.accumulateLevel p v).outv = s.outv := by
  rcases v with _ | _ | _ <;> rfl
@[simp] theorem State.accumulateLevel_env (p : Pin) (v : Option Bool) :
    (s.accumulateLevel p v).env = s.env := by
  rcases v with _ | _ | _ <;> rfl
@[simp] theorem State.accumulateLevel_draws (p : Pin) (v : Option Bool) :
    (s.accumulateLevel p v).draws = s.draws := by
  rcases v with _ | _ | _ <;> rfl
@[simp] theorem State.accumulateLevel_trace (p : Pin) (v : Option Bool) :
    (s.accumulateLevel p v).trace = s.trace := by
  rcases v with _ | _ | _ <;> rfl

/-! ### `State.drawn` -/

@[simp] theorem State.drawn_fst : s.drawn.1 = Config.draw s.draws := rfl
@[simp] theorem State.drawn_cfg : s.drawn.2.cfg = s.cfg := rfl
@[simp] theorem State.drawn_seq : s.drawn.2.seq = s.seq := rfl
@[simp] theorem State.drawn_cmd : s.drawn.2.cmd = s.cmd := rfl
@[simp] theorem State.drawn_inbox : s.drawn.2.inbox = s.inbox := rfl
@[simp] theorem State.drawn_outbox : s.drawn.2.outbox = s.outbox := rfl
@[simp] theorem State.drawn_work : s.drawn.2.work = s.work := rfl
@[simp] theorem State.drawn_mem : s.drawn.2.mem = s.mem := rfl
@[simp] theorem State.drawn_fselv : s.drawn.2.fselv = s.fselv := rfl
@[simp] theorem State.drawn_outv : s.drawn.2.outv = s.outv := rfl
@[simp] theorem State.drawn_env : s.drawn.2.env = s.env := rfl
@[simp] theorem State.drawn_draws : s.drawn.2.draws = s.draws + 1 := rfl
@[simp] theorem State.drawn_trace : s.drawn.2.trace = s.trace := rfl

end Sys2Proof.Machine
end

