-- ==== Sys2Proof/Laws/Env.lean ====
section
/-! SUPPORT. What a write of the bank, the environment's turn and a read of the bank leave alone. -/

namespace Sys2Proof.Machine

variable (s : State)

/-! ### One write of the bank: only `mem`, `fselv` and `outv` can change -/

@[simp] theorem State.gpioWrite_cfg (reg : GpioReg) (j : Nat) (w : AccessWidth) (v : Word) :
    (s.gpioWrite reg j w v).cfg = s.cfg := by
  cases reg <;> rfl

@[simp] theorem State.gpioWrite_seq (reg : GpioReg) (j : Nat) (w : AccessWidth) (v : Word) :
    (s.gpioWrite reg j w v).seq = s.seq := by
  cases reg <;> rfl

@[simp] theorem State.gpioWrite_cmd (reg : GpioReg) (j : Nat) (w : AccessWidth) (v : Word) :
    (s.gpioWrite reg j w v).cmd = s.cmd := by
  cases reg <;> rfl

@[simp] theorem State.gpioWrite_inbox (reg : GpioReg) (j : Nat) (w : AccessWidth) (v : Word) :
    (s.gpioWrite reg j w v).inbox = s.inbox := by
  cases reg <;> rfl

@[simp] theorem State.gpioWrite_outbox (reg : GpioReg) (j : Nat) (w : AccessWidth) (v : Word) :
    (s.gpioWrite reg j w v).outbox = s.outbox := by
  cases reg <;> rfl

@[simp] theorem State.gpioWrite_work (reg : GpioReg) (j : Nat) (w : AccessWidth) (v : Word) :
    (s.gpioWrite reg j w v).work = s.work := by
  cases reg <;> rfl

@[simp] theorem State.gpioWrite_env (reg : GpioReg) (j : Nat) (w : AccessWidth) (v : Word) :
    (s.gpioWrite reg j w v).env = s.env := by
  cases reg <;> rfl

@[simp] theorem State.gpioWrite_draws (reg : GpioReg) (j : Nat) (w : AccessWidth) (v : Word) :
    (s.gpioWrite reg j w v).draws = s.draws := by
  cases reg <;> rfl

@[simp] theorem State.gpioWrite_trace (reg : GpioReg) (j : Nat) (w : AccessWidth) (v : Word) :
    (s.gpioWrite reg j w v).trace = s.trace := by
  cases reg <;> rfl

@[simp] theorem State.gpioWrite_mem (reg : GpioReg) (j : Nat) (w : AccessWidth) (v : Word) :
    (s.gpioWrite reg j w v).mem = s.mem := by
  cases reg <;> rfl

@[simp] theorem State.bankWrite_cfg (a : Nat) (w : AccessWidth) (v : Word) :
    (s.bankWrite a w v).cfg = s.cfg := by
  unfold State.bankWrite
  split <;> simp

@[simp] theorem State.bankWrite_seq (a : Nat) (w : AccessWidth) (v : Word) :
    (s.bankWrite a w v).seq = s.seq := by
  unfold State.bankWrite
  split <;> simp

@[simp] theorem State.bankWrite_cmd (a : Nat) (w : AccessWidth) (v : Word) :
    (s.bankWrite a w v).cmd = s.cmd := by
  unfold State.bankWrite
  split <;> simp

@[simp] theorem State.bankWrite_inbox (a : Nat) (w : AccessWidth) (v : Word) :
    (s.bankWrite a w v).inbox = s.inbox := by
  unfold State.bankWrite
  split <;> simp

@[simp] theorem State.bankWrite_outbox (a : Nat) (w : AccessWidth) (v : Word) :
    (s.bankWrite a w v).outbox = s.outbox := by
  unfold State.bankWrite
  split <;> simp

@[simp] theorem State.bankWrite_work (a : Nat) (w : AccessWidth) (v : Word) :
    (s.bankWrite a w v).work = s.work := by
  unfold State.bankWrite
  split <;> simp

@[simp] theorem State.bankWrite_env (a : Nat) (w : AccessWidth) (v : Word) :
    (s.bankWrite a w v).env = s.env := by
  unfold State.bankWrite
  split <;> simp

@[simp] theorem State.bankWrite_draws (a : Nat) (w : AccessWidth) (v : Word) :
    (s.bankWrite a w v).draws = s.draws := by
  unfold State.bankWrite
  split <;> simp

@[simp] theorem State.bankWrite_trace (a : Nat) (w : AccessWidth) (v : Word) :
    (s.bankWrite a w v).trace = s.trace := by
  unfold State.bankWrite
  split <;> simp

/-! ### The environment: only `mem`, `fselv`, `outv` and its own schedule can change -/

@[simp] theorem State.envWrite_cfg (e : EnvWrite) : (s.envWrite e).cfg = s.cfg := by
  unfold State.envWrite
  split <;> simp

@[simp] theorem State.envWrite_seq (e : EnvWrite) : (s.envWrite e).seq = s.seq := by
  unfold State.envWrite
  split <;> simp

@[simp] theorem State.envWrite_cmd (e : EnvWrite) : (s.envWrite e).cmd = s.cmd := by
  unfold State.envWrite
  split <;> simp

@[simp] theorem State.envWrite_inbox (e : EnvWrite) : (s.envWrite e).inbox = s.inbox := by
  unfold State.envWrite
  split <;> simp

@[simp] theorem State.envWrite_outbox (e : EnvWrite) : (s.envWrite e).outbox = s.outbox := by
  unfold State.envWrite
  split <;> simp

@[simp] theorem State.envWrite_work (e : EnvWrite) : (s.envWrite e).work = s.work := by
  unfold State.envWrite
  split <;> simp

@[simp] theorem State.envWrite_env (e : EnvWrite) : (s.envWrite e).env = s.env := by
  unfold State.envWrite
  split <;> simp

@[simp] theorem State.envWrite_draws (e : EnvWrite) : (s.envWrite e).draws = s.draws := by
  unfold State.envWrite
  split <;> simp

@[simp] theorem State.envWrite_trace (e : EnvWrite) : (s.envWrite e).trace = s.trace := by
  unfold State.envWrite
  split <;> simp

@[simp] theorem State.envWrites_cfg (gap : List EnvWrite) : (s.envWrites gap).cfg = s.cfg := by
  induction gap generalizing s with
  | nil => rfl
  | cons e es ih => simp [State.envWrites, ih]

@[simp] theorem State.envWrites_seq (gap : List EnvWrite) : (s.envWrites gap).seq = s.seq := by
  induction gap generalizing s with
  | nil => rfl
  | cons e es ih => simp [State.envWrites, ih]

@[simp] theorem State.envWrites_cmd (gap : List EnvWrite) : (s.envWrites gap).cmd = s.cmd := by
  induction gap generalizing s with
  | nil => rfl
  | cons e es ih => simp [State.envWrites, ih]

@[simp] theorem State.envWrites_inbox (gap : List EnvWrite) : (s.envWrites gap).inbox = s.inbox := by
  induction gap generalizing s with
  | nil => rfl
  | cons e es ih => simp [State.envWrites, ih]

@[simp] theorem State.envWrites_outbox (gap : List EnvWrite) : (s.envWrites gap).outbox = s.outbox := by
  induction gap generalizing s with
  | nil => rfl
  | cons e es ih => simp [State.envWrites, ih]

@[simp] theorem State.envWrites_work (gap : List EnvWrite) : (s.envWrites gap).work = s.work := by
  induction gap generalizing s with
  | nil => rfl
  | cons e es ih => simp [State.envWrites, ih]

@[simp] theorem State.envWrites_env (gap : List EnvWrite) : (s.envWrites gap).env = s.env := by
  induction gap generalizing s with
  | nil => rfl
  | cons e es ih => simp [State.envWrites, ih]

@[simp] theorem State.envWrites_draws (gap : List EnvWrite) : (s.envWrites gap).draws = s.draws := by
  induction gap generalizing s with
  | nil => rfl
  | cons e es ih => simp [State.envWrites, ih]

@[simp] theorem State.envWrites_trace (gap : List EnvWrite) : (s.envWrites gap).trace = s.trace := by
  induction gap generalizing s with
  | nil => rfl
  | cons e es ih => simp [State.envWrites, ih]

@[simp] theorem State.envTurn_cfg : s.envTurn.cfg = s.cfg := by
  unfold State.envTurn
  split <;> simp

@[simp] theorem State.envTurn_seq : s.envTurn.seq = s.seq := by
  unfold State.envTurn
  split <;> simp

@[simp] theorem State.envTurn_cmd : s.envTurn.cmd = s.cmd := by
  unfold State.envTurn
  split <;> simp

@[simp] theorem State.envTurn_inbox : s.envTurn.inbox = s.inbox := by
  unfold State.envTurn
  split <;> simp

@[simp] theorem State.envTurn_outbox : s.envTurn.outbox = s.outbox := by
  unfold State.envTurn
  split <;> simp

@[simp] theorem State.envTurn_work : s.envTurn.work = s.work := by
  unfold State.envTurn
  split <;> simp

@[simp] theorem State.envTurn_draws : s.envTurn.draws = s.draws := by
  unfold State.envTurn
  split <;> simp

@[simp] theorem State.envTurn_trace : s.envTurn.trace = s.trace := by
  unfold State.envTurn
  split <;> simp

@[simp] theorem State.envTurn_env : s.envTurn.env = s.env.tail := by
  unfold State.envTurn
  split <;> simp_all

/-! ### One read of the bank: only `draws` can change (20_memory.md R61) -/

@[simp] theorem State.gpioRead_cfg (reg : GpioReg) : (s.gpioRead reg).2.cfg = s.cfg := by
  cases reg <;> rfl

@[simp] theorem State.gpioRead_seq (reg : GpioReg) : (s.gpioRead reg).2.seq = s.seq := by
  cases reg <;> rfl

@[simp] theorem State.gpioRead_cmd (reg : GpioReg) : (s.gpioRead reg).2.cmd = s.cmd := by
  cases reg <;> rfl

@[simp] theorem State.gpioRead_inbox (reg : GpioReg) : (s.gpioRead reg).2.inbox = s.inbox := by
  cases reg <;> rfl

@[simp] theorem State.gpioRead_outbox (reg : GpioReg) : (s.gpioRead reg).2.outbox = s.outbox := by
  cases reg <;> rfl

@[simp] theorem State.gpioRead_work (reg : GpioReg) : (s.gpioRead reg).2.work = s.work := by
  cases reg <;> rfl

@[simp] theorem State.gpioRead_mem (reg : GpioReg) : (s.gpioRead reg).2.mem = s.mem := by
  cases reg <;> rfl

@[simp] theorem State.gpioRead_fselv (reg : GpioReg) : (s.gpioRead reg).2.fselv = s.fselv := by
  cases reg <;> rfl

@[simp] theorem State.gpioRead_outv (reg : GpioReg) : (s.gpioRead reg).2.outv = s.outv := by
  cases reg <;> rfl

@[simp] theorem State.gpioRead_env (reg : GpioReg) : (s.gpioRead reg).2.env = s.env := by
  cases reg <;> rfl

@[simp] theorem State.gpioRead_trace (reg : GpioReg) : (s.gpioRead reg).2.trace = s.trace := by
  cases reg <;> rfl

@[simp] theorem State.bankRead_cfg (a : Nat) (w : AccessWidth) :
    (s.bankRead a w).2.cfg = s.cfg := by
  unfold State.bankRead
  split <;> simp

@[simp] theorem State.bankRead_seq (a : Nat) (w : AccessWidth) :
    (s.bankRead a w).2.seq = s.seq := by
  unfold State.bankRead
  split <;> simp

@[simp] theorem State.bankRead_cmd (a : Nat) (w : AccessWidth) :
    (s.bankRead a w).2.cmd = s.cmd := by
  unfold State.bankRead
  split <;> simp

@[simp] theorem State.bankRead_inbox (a : Nat) (w : AccessWidth) :
    (s.bankRead a w).2.inbox = s.inbox := by
  unfold State.bankRead
  split <;> simp

@[simp] theorem State.bankRead_outbox (a : Nat) (w : AccessWidth) :
    (s.bankRead a w).2.outbox = s.outbox := by
  unfold State.bankRead
  split <;> simp

@[simp] theorem State.bankRead_work (a : Nat) (w : AccessWidth) :
    (s.bankRead a w).2.work = s.work := by
  unfold State.bankRead
  split <;> simp

@[simp] theorem State.bankRead_mem (a : Nat) (w : AccessWidth) :
    (s.bankRead a w).2.mem = s.mem := by
  unfold State.bankRead
  split <;> simp

@[simp] theorem State.bankRead_fselv (a : Nat) (w : AccessWidth) :
    (s.bankRead a w).2.fselv = s.fselv := by
  unfold State.bankRead
  split <;> simp

@[simp] theorem State.bankRead_outv (a : Nat) (w : AccessWidth) :
    (s.bankRead a w).2.outv = s.outv := by
  unfold State.bankRead
  split <;> simp

@[simp] theorem State.bankRead_env (a : Nat) (w : AccessWidth) :
    (s.bankRead a w).2.env = s.env := by
  unfold State.bankRead
  split <;> simp

@[simp] theorem State.bankRead_trace (a : Nat) (w : AccessWidth) :
    (s.bankRead a w).2.trace = s.trace := by
  unfold State.bankRead
  split <;> simp

/-! ### An environment that writes nothing in the next gap (20_memory.md R64) -/

/-- Where the next gap is empty the environment's turn only advances its schedule. -/
theorem State.envTurn_quiet (h : ∀ gap ∈ s.env.take 1, gap = []) :
    s.envTurn = { s with env := s.env.tail } := by
  unfold State.envTurn
  split
  · rename_i he
    simp only [he, List.tail_nil]
    rw [← he]
  · rename_i gap rest he
    have hg : gap = [] := h gap (by simp [he])
    subst hg
    simp [State.envWrites, he]

end Sys2Proof.Machine
end

