-- ==== Sys2Proof/Laws/Ops.lean ====
section
/-! SUPPORT. What the pseudocode's monad and the two bank accesses can do, said once. -/

namespace Sys2Proof.Machine

/-! ### The monad -/

@[simp] theorem Op.pure_run {α : Type} (a : α) (s : State) : (pure a : Op α) s = .ok a s := rfl

/-- Running one line and then the rest (00_scope.md R11). -/
theorem Op.bind_run {α β : Type} (x : Op α) (f : α → Op β) (s : State) :
    (x >>= f) s = match x s with
      | .ok a t => f a t
      | .error e t => .error e t := by
  cases h : x s <;> simp [bind, EStateM.bind, h]

theorem Op.bind_ok {α β : Type} {x : Op α} {f : α → Op β} {s t : State} {a : α}
    (h : x s = .ok a t) : (x >>= f) s = f a t := by
  rw [Op.bind_run, h]

theorem Op.bind_error {α β : Type} {x : Op α} {f : α → Op β} {s t : State} {e : Stop}
    (h : x s = .error e t) : (x >>= f) s = .error e t := by
  rw [Op.bind_run, h]

/-- If a sequence of two parts answers, each part answered. -/
theorem Op.of_bind_ok {α β : Type} {x : Op α} {f : α → Op β} {s u : State} {b : β}
    (h : (x >>= f) s = .ok b u) : ∃ a t, x s = .ok a t ∧ f a t = .ok b u := by
  rw [Op.bind_run] at h
  split at h
  · exact ⟨_, _, ‹_›, h⟩
  · cases h

/-- If a sequence of two parts stops, one of them stopped. -/
theorem Op.of_bind_error {α β : Type} {x : Op α} {f : α → Op β} {s u : State} {e : Stop}
    (h : (x >>= f) s = .error e u) :
    x s = .error e u ∨ ∃ a t, x s = .ok a t ∧ f a t = .error e u := by
  rw [Op.bind_run] at h
  split at h
  · exact .inr ⟨_, _, ‹_›, h⟩
  · cases h
    exact .inl ‹_›

@[simp] theorem update_run (f : State → State) (s : State) : update f s = .ok () (f s) := rfl

@[simp] theorem readState_run (s : State) : readState s = .ok s s := rfl

@[simp] theorem raiseErr_run {α : Type} (e : Err) (info : BitVec 8) (s : State) :
    (raiseErr e info : Op α) s = .error (.raise e info) s := rfl

@[simp] theorem refuse_run {α : Type} (r : Refusal) (s : State) :
    (refuse r : Op α) s = .error (.refuse r) s := rfl

/-! ### The two accesses -/

/-- A read inside the bank and aligned answers, whatever the environment does. -/
theorem memRead_run {s : State} {addr : Nat} {w : AccessWidth}
    (hb : addr + w.bytes ≤ s.cfg.bankSize) (ha : addr % w.bytes = 0) :
    memRead addr w s = .ok (s.envTurn.bankRead addr w).1
      ((s.envTurn.bankRead addr w).2.record .read addr w (s.envTurn.bankRead addr w).1) := by
  simp [memRead, State.inBank, aligned, hb, ha]

/-- A write inside the bank and aligned answers, whatever the environment does. -/
theorem memWrite_run {s : State} {addr : Nat} {w : AccessWidth} (v : Word)
    (hb : addr + w.bytes ≤ s.cfg.bankSize) (ha : addr % w.bytes = 0) :
    memWrite addr w v s = .ok ()
      ((s.envTurn.bankWrite addr w v).record .write addr w v) := by
  simp [memWrite, State.inBank, aligned, hb, ha]

/-- The three cases of a read. -/
theorem memRead_cases (s : State) (addr : Nat) (w : AccessWidth) :
    (addr + w.bytes ≤ s.cfg.bankSize ∧ addr % w.bytes = 0 ∧
      memRead addr w s = .ok (s.envTurn.bankRead addr w).1
        ((s.envTurn.bankRead addr w).2.record .read addr w (s.envTurn.bankRead addr w).1)) ∨
      (¬ (addr + w.bytes ≤ s.cfg.bankSize ∧ addr % w.bytes = 0) ∧
        ∃ f, memRead addr w s = .error (.fault f) s) := by
  by_cases hb : addr + w.bytes ≤ s.cfg.bankSize
  · by_cases ha : addr % w.bytes = 0
    · exact .inl ⟨hb, ha, memRead_run hb ha⟩
    · exact .inr ⟨fun h => ha h.2, _, by simp [memRead, State.inBank, aligned, hb, ha]; rfl⟩
  · exact .inr ⟨fun h => hb h.1, _, by simp [memRead, State.inBank, hb]; rfl⟩

/-- The three cases of a write. -/
theorem memWrite_cases (s : State) (addr : Nat) (w : AccessWidth) (v : Word) :
    (addr + w.bytes ≤ s.cfg.bankSize ∧ addr % w.bytes = 0 ∧
      memWrite addr w v s = .ok () ((s.envTurn.bankWrite addr w v).record .write addr w v)) ∨
      (¬ (addr + w.bytes ≤ s.cfg.bankSize ∧ addr % w.bytes = 0) ∧
        ∃ f, memWrite addr w v s = .error (.fault f) s) := by
  by_cases hb : addr + w.bytes ≤ s.cfg.bankSize
  · by_cases ha : addr % w.bytes = 0
    · exact .inl ⟨hb, ha, memWrite_run v hb ha⟩
    · exact .inr ⟨fun h => ha h.2, _, by simp [memWrite, State.inBank, aligned, hb, ha]; rfl⟩
  · exact .inr ⟨fun h => hb h.1, _, by simp [memWrite, State.inBank, hb]; rfl⟩

/-- All a read can answer: the access was legal, and this is the state after it. -/
theorem memRead_ok {s t : State} {addr : Nat} {w : AccessWidth} {v : Word}
    (h : memRead addr w s = .ok v t) :
    addr + w.bytes ≤ s.cfg.bankSize ∧ addr % w.bytes = 0 ∧
      v = (s.envTurn.bankRead addr w).1 ∧
      t = (s.envTurn.bankRead addr w).2.record .read addr w v := by
  rcases memRead_cases s addr w with ⟨hb, ha, hr⟩ | ⟨-, f, hr⟩ <;> rw [hr] at h <;> cases h
  exact ⟨hb, ha, rfl, rfl⟩

/-- All a write can answer: the access was legal, and this is the state after it. -/
theorem memWrite_ok {s t : State} {addr : Nat} {w : AccessWidth} {v : Word}
    (h : memWrite addr w v s = .ok () t) :
    addr + w.bytes ≤ s.cfg.bankSize ∧ addr % w.bytes = 0 ∧
      t = (s.envTurn.bankWrite addr w v).record .write addr w v := by
  rcases memWrite_cases s addr w v with ⟨hb, ha, hr⟩ | ⟨-, f, hr⟩ <;> rw [hr] at h <;> cases h
  exact ⟨hb, ha, rfl⟩

/-! ### From pseudocode to the outcome of a command -/

theorem runOp_ok {op : Op (List Word)} {s t : State} {rs : List Word} (h : op s = .ok rs t) :
    runOp op s = .next (t.respondOk rs) := by
  simp [runOp, h]

theorem runOp_raise {op : Op (List Word)} {s t : State} {e : Err} {info : BitVec 8}
    (h : op s = .error (.raise e info) t) : runOp op s = .next (t.raise e info) := by
  simp [runOp, h]

theorem runOp_refuse {op : Op (List Word)} {s t : State} {r : Refusal}
    (h : op s = .error (.refuse r) t) : runOp op s = .refused r := by
  simp [runOp, h]

/-- All a command can answer: a response, `OK` or an error, to the state the pseudocode reached. -/
theorem runOp_next {op : Op (List Word)} {s u : State} (h : runOp op s = .next u) :
    (∃ rs t, op s = .ok rs t ∧ u = t.respondOk rs) ∨
      ∃ e info t, op s = .error (.raise e info) t ∧ u = t.raise e info := by
  simp only [runOp] at h
  split at h
  · cases h; exact .inl ⟨_, _, ‹_›, rfl⟩
  · cases h; exact .inr ⟨_, _, _, ‹_›, rfl⟩
  · cases h
  · cases h

/-- A command is refused only where its pseudocode refuses. -/
theorem runOp_refused {op : Op (List Word)} {s : State} {r : Refusal}
    (h : runOp op s = .refused r) : ∃ t, op s = .error (.refuse r) t := by
  simp only [runOp] at h
  split at h
  · cases h
  · cases h
  · cases h; exact ⟨_, ‹_›⟩
  · cases h

/-- A command faults only where its pseudocode faults. -/
theorem runOp_fault {op : Op (List Word)} {s : State} {f : Fault}
    (h : runOp op s = .fault f) : ∃ t, op s = .error (.fault f) t := by
  simp only [runOp] at h
  split at h
  · cases h
  · cases h
  · cases h
  · cases h; exact ⟨_, ‹_›⟩

end Sys2Proof.Machine
end

