-- ==== Sys2Proof/Laws/Excl.lean ====
section
/-! SUPPORT. Two accesses and the environment between them, said relative to the state the
environment leaves; and what a quiet environment, the premise `EXCL` (20_memory.md R64), adds. -/

namespace Sys2Proof.Machine

/-! ### Relations between the state before and after a line of pseudocode -/

/-- All that a bank write, the environment's turn and a read look at is the same. -/
structure SameForBank (s t : State) : Prop where
  bank : SameBank s t
  cfg : t.cfg = s.cfg
  env : t.env = s.env

/-- What no line of pseudocode changes is the same. -/
structure SameControl (s t : State) : Prop where
  cfg : t.cfg = s.cfg
  seq : t.seq = s.seq
  cmd : t.cmd = s.cmd
  inbox : t.inbox = s.inbox
  outbox : t.outbox = s.outbox

theorem SameBank.refl (s : State) : SameBank s s := ⟨rfl, rfl, rfl⟩

theorem SameBank.trans {s t u : State} (h : SameBank s t) (k : SameBank t u) : SameBank s u :=
  ⟨k.1.trans h.1, k.2.trans h.2, k.3.trans h.3⟩

theorem SameForBank.refl (s : State) : SameForBank s s := ⟨.refl s, rfl, rfl⟩

theorem SameForBank.trans {s t u : State} (h : SameForBank s t) (k : SameForBank t u) :
    SameForBank s u :=
  ⟨h.1.trans k.1, k.2.trans h.2, k.3.trans h.3⟩

theorem SameControl.refl (s : State) : SameControl s s := ⟨rfl, rfl, rfl, rfl, rfl⟩

theorem SameControl.trans {s t u : State} (h : SameControl s t) (k : SameControl t u) :
    SameControl s u :=
  ⟨k.1.trans h.1, k.2.trans h.2, k.3.trans h.3, k.4.trans h.4, k.5.trans h.5⟩

/-- A command whose pseudocode kept the control state ends as `Ended` says. -/
theorem SameControl.ended {s t : State} (h : SameControl s t) (q : Response) :
    Ended s q (t.finish q) :=
  ⟨h.cfg, rfl, rfl, h.inbox, by simp [h.outbox], rfl⟩

/-! ### The bank and the environment look at nothing else -/

theorem bankWrite_sameBank {s t : State} (h : SameBank s t) (hc : t.cfg = s.cfg) (a : Nat)
    (w : AccessWidth) (v : Word) : SameBank (s.bankWrite a w v) (t.bankWrite a w v) := by
  obtain ⟨h1, h2, h3⟩ := h
  unfold State.bankWrite
  rw [hc]
  split
  · exact ⟨by simp [h1], by simpa using h2, by simpa using h3⟩
  · unfold State.gpioWrite
    split <;> refine ⟨?_, ?_, ?_⟩ <;> simp [*]

theorem bankWrite_sameForBank {s t : State} (h : SameForBank s t) (a : Nat) (w : AccessWidth)
    (v : Word) : SameForBank (s.bankWrite a w v) (t.bankWrite a w v) :=
  ⟨bankWrite_sameBank h.bank h.cfg a w v, by simp [h.cfg], by simp [h.env]⟩

theorem envWrite_sameForBank {s t : State} (h : SameForBank s t) (e : EnvWrite) :
    SameForBank (s.envWrite e) (t.envWrite e) := by
  unfold State.envWrite State.inBank
  rw [h.cfg]
  split
  · exact bankWrite_sameForBank h _ _ _
  · exact h

theorem envWrites_sameForBank {s t : State} (h : SameForBank s t) (gap : List EnvWrite) :
    SameForBank (s.envWrites gap) (t.envWrites gap) := by
  induction gap generalizing s t with
  | nil => exact h
  | cons e es ih => exact ih (envWrite_sameForBank h e)

theorem envTurn_sameForBank {s t : State} (h : SameForBank s t) :
    SameForBank s.envTurn t.envTurn := by
  unfold State.envTurn
  rw [h.env]
  split
  · exact h
  · rename_i gap rest _
    exact envWrites_sameForBank (s := { s with env := rest }) (t := { t with env := rest })
      ⟨⟨h.1.1, h.1.2, h.1.3⟩, h.2, rfl⟩ gap

theorem envTurns_sameForBank {s t : State} (h : SameForBank s t) (n : Nat) :
    SameForBank (State.envTurns n s) (State.envTurns n t) := by
  induction n generalizing s t with
  | zero => exact h
  | succ n ih => exact ih (envTurn_sameForBank h)

theorem peek_congr {s t : State} (h : SameBank s t) (hc : t.cfg = s.cfg)
    (hd : t.draws = s.draws) (a : Nat) (w : AccessWidth) : t.peek a w = s.peek a w := by
  obtain ⟨h1, h2, h3⟩ := h
  unfold State.peek State.bankRead
  rw [hc]
  split
  · simp [h1]
  · unfold State.gpioRead
    split <;> simp [*, State.levelValue, State.levelBit, State.pinIsOut]

@[simp] theorem finish_peek (t : State) (q : Response) (a : Nat) (w : AccessWidth) :
    (t.finish q).peek a w = t.peek a w :=
  peek_congr (s := t) (t := t.finish q) ⟨rfl, rfl, rfl⟩ rfl rfl a w

/-! ### One access, whatever the environment does -/

/-- A read answers the same, and draws the same, from states the bank cannot tell apart. -/
theorem bankRead_congr {s t : State} (h : SameForBank s t) (hd : t.draws = s.draws) (a : Nat)
    (w : AccessWidth) : (t.bankRead a w).1 = (s.bankRead a w).1 ∧
      (t.bankRead a w).2.draws = (s.bankRead a w).2.draws := by
  refine ⟨peek_congr h.bank h.cfg hd a w, ?_⟩
  unfold State.bankRead
  rw [h.cfg]
  split
  · exact hd
  · unfold State.gpioRead
    split <;> simp [State.drawn, hd]

/-- A run of reads answers the same from states the bank cannot tell apart. -/
theorem readsAt_congr (w : AccessWidth) (offsets : List Nat) {s t : State} (h : SameForBank s t)
    (hd : t.draws = s.draws) : t.readsAt w offsets = s.readsAt w offsets := by
  induction offsets generalizing s t with
  | nil => rfl
  | cons a rest ih =>
    have ht := envTurn_sameForBank h
    obtain ⟨h1, h2⟩ := bankRead_congr ht (by simp [hd]) a w
    simp only [State.readsAt, State.peek, h1]
    congr 1
    refine ih ⟨⟨?_, ?_, ?_⟩, ?_, ?_⟩ h2 <;>
      simp [ht.bank.mem, ht.bank.fselv, ht.bank.outv, h.cfg, h.env]

/-- After one read the next ones find what they find after the same read of the bank. -/
theorem readsAt_after {s t u : State} {a : Nat} {w : AccessWidth} (h : SameForBank s.envTurn t)
    (hd : t.draws = (s.envTurn.bankRead a w).2.draws) (hu : SameForBank t u)
    (hud : u.draws = t.draws) (offsets : List Nat) :
    u.readsAt w offsets = (s.envTurn.bankRead a w).2.readsAt w offsets :=
  readsAt_congr w offsets (SameForBank.trans (SameForBank.trans
    ⟨⟨by simp, by simp, by simp⟩, by simp, by simp⟩ h) hu) (hud.trans hd)

/-- A run of writes leaves the same bank from states the bank cannot tell apart. -/
theorem writesFrom_sameForBank (w : AccessWidth) (a : Nat) (vs : List Word) {s t : State}
    (h : SameForBank s t) : SameForBank (s.writesFrom w a vs) (t.writesFrom w a vs) := by
  induction vs generalizing a s t with
  | nil => exact h
  | cons v vs ih => exact ih _ (bankWrite_sameForBank (envTurn_sameForBank h) a w v)

/-- The accesses of a trace leave the same bank from states the bank cannot tell apart. -/
theorem afterAccesses_sameForBank (made : List Access) {s t : State} (h : SameForBank s t) :
    SameForBank (s.afterAccesses made) (t.afterAccesses made) := by
  induction made generalizing s t with
  | nil => exact h
  | cons a rest ih =>
    unfold State.afterAccesses
    cases a.kind
    · exact ih (envTurn_sameForBank h)
    · exact ih (bankWrite_sameForBank (envTurn_sameForBank h) _ _ _)

theorem afterAccesses_append (s : State) (made more : List Access) :
    s.afterAccesses (made ++ more) = (s.afterAccesses made).afterAccesses more := by
  induction made generalizing s with
  | nil => rfl
  | cons a rest ih =>
    simp only [List.cons_append, State.afterAccesses]
    cases a.kind <;> exact ih _

/-- Every access takes one gap of the environment's schedule. -/
@[simp] theorem afterAccesses_env (s : State) (made : List Access) :
    (s.afterAccesses made).env = s.env.drop made.length := by
  induction made generalizing s with
  | nil => rfl
  | cons a rest ih =>
    unfold State.afterAccesses
    cases a.kind <;> simp [ih, List.drop_tail]

/-- All a legal `MemRead` does (20_memory.md R53, R58, R61). -/
theorem memRead_spec {s : State} {addr : Nat} {w : AccessWidth}
    (hb : addr + w.bytes ≤ s.cfg.bankSize) (ha : addr % w.bytes = 0) :
    ∃ t v, memRead addr w s = .ok v t ∧ SameControl s t ∧ t.work = s.work ∧
      SameForBank s.envTurn t ∧
      t.trace = s.trace ++ [{ kind := .read, addr := addr, width := w, value := v }] ∧
      v = s.envTurn.peek addr w ∧ t.draws = (s.envTurn.bankRead addr w).2.draws :=
  ⟨_, _, memRead_run hb ha, ⟨by simp, by simp, by simp, by simp, by simp⟩, by simp,
    ⟨⟨by simp, by simp, by simp⟩, by simp, by simp⟩, by simp, rfl, by simp⟩

/-- All a legal `MemWrite` does (20_memory.md R54, R58). -/
theorem memWrite_spec {s : State} {addr : Nat} {w : AccessWidth} (v : Word)
    (hb : addr + w.bytes ≤ s.cfg.bankSize) (ha : addr % w.bytes = 0) :
    ∃ t, memWrite addr w v s = .ok () t ∧ SameControl s t ∧ t.work = s.work ∧
      SameForBank (s.envTurn.bankWrite addr w v) t ∧
      t.trace = s.trace ++ [{ kind := .write, addr := addr, width := w, value := v }] ∧
      t.draws = s.draws :=
  ⟨_, memWrite_run v hb ha, ⟨by simp, by simp, by simp, by simp, by simp⟩, by simp,
    ⟨⟨by simp, by simp, by simp⟩, by simp, by simp⟩, by simp, by simp⟩

/-! ### An environment that writes nothing for a while -/

/-- The environment writes nothing before the next `n` accesses: `EXCL` as seen from an operation's
first access. -/
def State.Quiet (n : Nat) (s : State) : Prop := ∀ gap ∈ s.env.take n, gap = []

theorem quiet_zero (s : State) : s.Quiet 0 := by simp [State.Quiet]

theorem quiet_mono {s : State} {m n : Nat} (h : s.Quiet n) (hm : m ≤ n) : s.Quiet m :=
  fun gap hg => h gap ((List.take_subset_take_left _ hm) hg)

theorem quiet_of_env {s t : State} {n : Nat} (h : s.Quiet n) (he : t.env = s.env) : t.Quiet n := by
  unfold State.Quiet
  rw [he]
  exact h

theorem quiet_drop {s t : State} {m n : Nat} (h : s.Quiet (n + m)) (he : t.env = s.env.drop m) :
    t.Quiet n := by
  intro gap hg
  refine h gap ?_
  rw [he, List.take_drop, Nat.add_comm] at hg
  exact List.mem_of_mem_drop hg

theorem quiet_tail {s t : State} {n : Nat} (h : s.Quiet (n + 1)) (he : t.env = s.env.tail) :
    t.Quiet n :=
  quiet_drop (m := 1) h (by simpa using he)

/-- What is left of the schedule under `EXCL` once the operation's first access is made. -/
theorem excl_quiet {s t : State} {n : Nat} (h : s.Excl (n + 1)) (he : t.env = s.env.tail) :
    t.Quiet n := by
  intro gap hg
  rw [he] at hg
  refine h gap ?_
  cases hs : s.env <;> simp_all

theorem quiet_envTurn {s : State} {n : Nat} (h : s.Quiet (n + 1)) :
    s.envTurn = { s with env := s.env.tail } :=
  State.envTurn_quiet s (quiet_mono h (by omega))

theorem quiet_sameBank {s : State} {n : Nat} (h : s.Quiet (n + 1)) : SameBank s s.envTurn := by
  rw [quiet_envTurn h]
  exact ⟨rfl, rfl, rfl⟩

theorem quiet_peek {s : State} {n : Nat} (h : s.Quiet (n + 1)) (a : Nat) (w : AccessWidth) :
    s.envTurn.peek a w = s.peek a w :=
  peek_congr (quiet_sameBank h) (by simp) (by simp) a w

theorem quiet_envTurns {s : State} {n : Nat} (h : s.Quiet n) :
    SameBank s (State.envTurns n s) := by
  induction n generalizing s with
  | zero => exact .refl s
  | succ n ih => exact (quiet_sameBank h).trans (ih (quiet_tail h (by simp)))

/-! ### Operands as the statements number them -/

@[simp] theorem parseWidth_operand (w : AccessWidth) : parseWidth w.operand = some w := by
  cases w <;> rfl

@[simp] theorem parseOrder_operand (tag : OrderTag) : parseOrder tag.operand = some tag := by
  cases tag <;> rfl

@[simp] theorem operand_toNat (w : AccessWidth) : w.operand.toNat = w.bytes := by
  cases w <;> rfl

theorem bytes_pos (w : AccessWidth) : 0 < w.bytes := by
  cases w <;> decide

@[simp] theorem parsePin_pinWord (p : Pin) : parsePin (pinWord p) = some p := by
  have h : (pinWord p).toNat = p.val := by
    simp only [pinWord, BitVec.toNat_ofNat]
    omega
  unfold parsePin
  rw [dif_pos (by rw [h]; exact p.isLt)]
  exact congrArg some (Fin.ext h)

@[simp] theorem parsePins_pinWords (ps : List Pin) : parsePins (ps.map pinWord) = some ps := by
  induction ps with
  | nil => rfl
  | cons p ps ih => simp [parsePins, ih]

theorem codeWord_le (c : BitVec 3) : (codeWord c).toNat ≤ 7 := by
  simp only [codeWord, BitVec.toNat_setWidth]
  omega

@[simp] theorem parseCode_codeWord (c : BitVec 3) : parseCode (codeWord c) = some c := by
  simp only [parseCode, codeWord_le, if_true]
  congr 1
  simp [codeWord]

/-! ### The shared checks -/

theorem requirePinBank_ok {s : State} (h : 0x3C ≤ s.cfg.bankSize) :
    requirePinBank s = .ok () s := by
  simp [requirePinBank, pinUnitSpan, h]

theorem requirePinBank_refuse {s : State} (h : ¬ 0x3C ≤ s.cfg.bankSize) :
    requirePinBank s = .error (.refuse .bankTooSmall) s := by
  simp [requirePinBank, pinUnitSpan, h]

theorem checkPins_pinWords (ps : List Pin) : checkPins (ps.map pinWord) = pure ps := by
  simp [checkPins]

end Sys2Proof.Machine
end

