-- ==== Sys2Proof/Laws/Alone.lean ====
section
/-! SUPPORT. What the premise `EXCL` gives (20_memory.md R64): an operation of `n` accesses runs as
it would from the bank it finds at its first access with no other agent at all. `exec_alone` says
so of every command; a statement under `EXCL` need only be proved where the schedule is empty. -/

namespace Sys2Proof.Machine

/-- The machine after the environment's next turn, with no further agent. -/
def State.alone (s : State) : State := { s.envTurn with env := [] }

@[simp] theorem alone_cfg (s : State) : s.alone.cfg = s.cfg := by simp [State.alone]
@[simp] theorem alone_seq (s : State) : s.alone.seq = s.seq := by simp [State.alone]
@[simp] theorem alone_cmd (s : State) : s.alone.cmd = s.cmd := by simp [State.alone]
@[simp] theorem alone_inbox (s : State) : s.alone.inbox = s.inbox := by simp [State.alone]
@[simp] theorem alone_outbox (s : State) : s.alone.outbox = s.outbox := by simp [State.alone]
@[simp] theorem alone_work (s : State) : s.alone.work = s.work := by simp [State.alone]
@[simp] theorem alone_mem (s : State) : s.alone.mem = s.envTurn.mem := rfl
@[simp] theorem alone_fselv (s : State) : s.alone.fselv = s.envTurn.fselv := rfl
@[simp] theorem alone_outv (s : State) : s.alone.outv = s.envTurn.outv := rfl
@[simp] theorem alone_env (s : State) : s.alone.env = [] := rfl
@[simp] theorem alone_draws (s : State) : s.alone.draws = s.draws := by simp [State.alone]
@[simp] theorem alone_trace (s : State) : s.alone.trace = s.trace := by simp [State.alone]

theorem alone_sameBank (s : State) : SameBank s.envTurn s.alone := ⟨rfl, rfl, rfl⟩

theorem envTurn_of_env_nil {s : State} (h : s.env = []) : s.envTurn = s := by
  unfold State.envTurn
  rw [h]

@[simp] theorem alone_envTurn (s : State) : s.alone.envTurn = s.alone := envTurn_of_env_nil rfl

/-- Where the next gap is empty nothing but the schedule goes. -/
theorem alone_of_quiet {s : State} {k : Nat} (h : s.Quiet (k + 1)) :
    s.alone = { s with env := [] } := by
  rw [State.alone, quiet_envTurn h]

/-! ### The bank looks at neither the schedule nor the working registers -/

theorem bankRead_env (s : State) (e : List (List EnvWrite)) (a : Nat) (w : AccessWidth) :
    ({ s with env := e }).bankRead a w =
      ((s.bankRead a w).1, { (s.bankRead a w).2 with env := e }) := by
  unfold State.bankRead
  dsimp only
  split
  · rfl
  · unfold State.gpioRead
    split <;> rfl

theorem bankWrite_env (s : State) (e : List (List EnvWrite)) (a : Nat) (w : AccessWidth)
    (v : Word) : ({ s with env := e }).bankWrite a w v = { s.bankWrite a w v with env := e } := by
  unfold State.bankWrite
  dsimp only
  split
  · rfl
  · unfold State.gpioWrite
    split <;> rfl

theorem alone_bankRead (s : State) (a : Nat) (w : AccessWidth) :
    s.alone.bankRead a w =
      ((s.envTurn.bankRead a w).1, { (s.envTurn.bankRead a w).2 with env := [] }) :=
  bankRead_env s.envTurn [] a w

theorem alone_bankWrite (s : State) (a : Nat) (w : AccessWidth) (v : Word) :
    s.alone.bankWrite a w v = { s.envTurn.bankWrite a w v with env := [] } :=
  bankWrite_env s.envTurn [] a w v

theorem bankWrite_work (s : State) (x : WorkRegs) (a : Nat) (w : AccessWidth) (v : Word) :
    ({ s with work := x }).bankWrite a w v = { s.bankWrite a w v with work := x } := by
  unfold State.bankWrite
  dsimp only
  split
  · rfl
  · unfold State.gpioWrite
    split <;> rfl

theorem envWrite_work (s : State) (x : WorkRegs) (e : EnvWrite) :
    ({ s with work := x }).envWrite e = { s.envWrite e with work := x } := by
  unfold State.envWrite State.inBank
  split
  · exact bankWrite_work _ _ _ _ _
  · rfl

theorem envWrites_work (s : State) (x : WorkRegs) (gap : List EnvWrite) :
    ({ s with work := x }).envWrites gap = { s.envWrites gap with work := x } := by
  induction gap generalizing s with
  | nil => rfl
  | cons e es ih => rw [State.envWrites, envWrite_work, ih, State.envWrites]

theorem envTurn_work (s : State) (x : WorkRegs) :
    ({ s with work := x }).envTurn = { s.envTurn with work := x } := by
  unfold State.envTurn
  dsimp only
  split
  · rfl
  · rename_i gap rest _
    exact envWrites_work { s with env := rest } x gap

theorem alone_update_work (s : State) (x : WorkRegs) :
    ({ s with work := x }).alone = { s.alone with work := x } := by
  rw [State.alone, envTurn_work]
  rfl

/-! ### A run and its shadow with no other agent -/

/-- `s'` is `s` without other agents, with `m` accesses made and at most `k` to come: before the
first access the environment has had its turn in `s'`; after it only the schedule differs. -/
inductive Shadow (k : Nat) (s s' : State) : Nat → Prop where
  | before : s.Excl k → s' = s.alone → Shadow k s s' 0
  | after {m : Nat} : s.Quiet k → s' = { s with env := [] } → Shadow k s s' (m + 1)

theorem Shadow.cfg {k m : Nat} {s s' : State} (h : Shadow k s s' m) : s'.cfg = s.cfg := by
  cases h with
  | before _ h => simp [h]
  | after _ h => simp [h]

theorem Shadow.work {k m : Nat} {s s' : State} (h : Shadow k s s' m) : s'.work = s.work := by
  cases h with
  | before _ h => simp [h]
  | after _ h => simp [h]

theorem Shadow.trace {k m : Nat} {s s' : State} (h : Shadow k s s' m) : s'.trace = s.trace := by
  cases h with
  | before _ h => simp [h]
  | after _ h => simp [h]

/-- Where an access is to come, the shadow is the machine as that access finds it. -/
theorem Shadow.alone {k m : Nat} {s s' : State} (h : Shadow (k + 1) s s' m) : s' = s.alone := by
  cases h with
  | before _ h => exact h
  | after hq h => rw [h, alone_of_quiet hq]

/-- One access later. -/
theorem Shadow.next {k m : Nat} {s s' t : State} (h : Shadow (k + 1) s s' m)
    (he : t.env = s.env.tail) : Shadow k t { t with env := [] } (m + 1) := by
  cases h with
  | before hx _ => exact .after (excl_quiet hx he) rfl
  | after hq _ => exact .after (quiet_tail hq he) rfl

theorem Shadow.update_work {k m : Nat} {s s' : State} (h : Shadow k s s' m) (x : WorkRegs) :
    Shadow k { s with work := x } { s' with work := x } m := by
  cases h with
  | before hx h =>
    subst h
    exact .before hx (alone_update_work s x).symm
  | after hq h =>
    subst h
    exact .after hq rfl

/-- The state a result holds. -/
def finalState {α : Type} : EStateM.Result Stop State α → State
  | .ok _ t => t
  | .error _ t => t

/-- The same result in another state. -/
def atState {α : Type} (r : EStateM.Result Stop State α) (t : State) :
    EStateM.Result Stop State α :=
  match r with
  | .ok a _ => .ok a t
  | .error e _ => .error e t

/-- Pseudocode that only adds to the trace, and of which a shadow run with `d <= k` accesses tells
the run. -/
structure Op.HasShadow {α : Type} (x : Op α) : Prop where
  grows : ∀ s, ∃ d, (finalState (x s)).trace.length = s.trace.length + d
  follows : ∀ (m k d : Nat) (s s' : State), Shadow k s s' m →
    (finalState (x s')).trace.length = s'.trace.length + d → d ≤ k →
      ∃ t, x s = atState (x s') t ∧ t.env = s.env.drop d ∧
        Shadow (k - d) t (finalState (x s')) (m + d)

/-- Pseudocode that answers from the configuration alone, without touching the state. -/
theorem Op.HasShadow.still {α : Type} {x : Op α} (hf : ∀ s, finalState (x s) = s)
    (hr : ∀ s s', s'.cfg = s.cfg → x s = atState (x s') s) : Op.HasShadow x where
  grows s := ⟨0, by rw [hf]; rfl⟩
  follows m k d s s' h hd _ := by
    rw [hf] at hd ⊢
    obtain rfl : d = 0 := by omega
    exact ⟨s, hr s s' h.cfg, rfl, h⟩

theorem Op.HasShadow.pure {α : Type} (a : α) : Op.HasShadow (pure a : Op α) :=
  .still (fun _ => rfl) fun _ _ _ => rfl

theorem Op.HasShadow.raiseErr {α : Type} (e : Err) (info : BitVec 8) :
    Op.HasShadow (raiseErr e info : Op α) :=
  .still (fun _ => rfl) fun _ _ _ => rfl

theorem Op.HasShadow.refuse {α : Type} (r : Refusal) : Op.HasShadow (refuse r : Op α) :=
  .still (fun _ => rfl) fun _ _ _ => rfl

theorem Op.HasShadow.requirePinBank : Op.HasShadow requirePinBank := by
  refine .still (fun s => ?_) fun s s' h => ?_
  · unfold Machine.requirePinBank
    split <;> rfl
  · unfold Machine.requirePinBank
    rw [h]
    split <;> rfl

/-- A change of working registers that looks at nothing but them and the configuration. -/
theorem Op.HasShadow.update {f : State → State} (g : Params → WorkRegs → WorkRegs)
    (hf : ∀ s, f s = { s with work := g s.cfg s.work }) : Op.HasShadow (update f) where
  grows s := ⟨0, by simp [finalState, hf]⟩
  follows m k d s s' h hd _ := by
    simp only [update_run, finalState, hf] at hd ⊢
    obtain rfl : d = 0 := by omega
    refine ⟨f s, by rw [hf]; rfl, by simp [hf], ?_⟩
    have := h.update_work (g s.cfg s.work)
    rw [hf, h.work]
    simpa [h.cfg] using this

theorem Op.HasShadow.bind {α β : Type} {x : Op α} {f : α → Op β} (hx : Op.HasShadow x)
    (hf : ∀ a, Op.HasShadow (f a)) : Op.HasShadow (x >>= f) where
  grows s := by
    obtain ⟨d, h⟩ := hx.grows s
    cases hr : x s with
    | error e t => exact ⟨d, by rw [Op.bind_error hr, ← h, hr]; rfl⟩
    | ok a t =>
      obtain ⟨d', h'⟩ := (hf a).grows t
      refine ⟨d + d', ?_⟩
      rw [hr] at h
      rw [Op.bind_ok hr, h', ← Nat.add_assoc, ← h]
      rfl
  follows m k d s s' h hd hk := by
    obtain ⟨d1, h1⟩ := hx.grows s'
    cases hr : x s' with
    | error e t' =>
      have hx' := hx.follows m k d1 s s' h h1
      rw [Op.bind_error hr] at hd ⊢
      rw [hr] at h1 hx'
      simp only [finalState] at h1 hd
      obtain rfl : d1 = d := by omega
      obtain ⟨t, ht, he, hs⟩ := hx' hk
      exact ⟨t, Op.bind_error ht, he, hs⟩
    | ok a t' =>
      have hx' := hx.follows m k d1 s s' h h1
      rw [Op.bind_ok hr] at hd ⊢
      rw [hr] at h1 hx'
      obtain ⟨d2, h2⟩ := (hf a).grows t'
      simp only [finalState] at h1
      obtain rfl : d = d1 + d2 := by omega
      obtain ⟨t, ht, he, hs⟩ := hx' (by omega)
      obtain ⟨u, hu, he', hs'⟩ := (hf a).follows _ _ _ _ _ hs h2 (by omega)
      refine ⟨u, by rw [Op.bind_ok ht]; exact hu, by rw [he', he, List.drop_drop], ?_⟩
      rw [Nat.sub_sub, Nat.add_assoc] at hs'
      exact hs'

/-- Pseudocode that reads the registers and the configuration, and nothing else of the state. -/
theorem Op.HasShadow.readState {α : Type} {f : State → Op α} (hf : ∀ s, Op.HasShadow (f s))
    (hc : ∀ s s' : State, s'.cfg = s.cfg → s'.work = s.work → f s' = f s) :
    Op.HasShadow (readState >>= f) where
  grows s := (hf s).grows s
  follows m k d s s' h hd hk := by
    have hr : (Machine.readState >>= f) s' = f s s' := by
      rw [Op.bind_ok (readState_run s'), hc s s' h.cfg h.work]
    rw [hr] at hd ⊢
    exact (hf s).follows m k d s s' h hd hk

theorem Op.HasShadow.ite {α : Type} {c : Prop} [Decidable c] {x y : Op α} (hx : Op.HasShadow x)
    (hy : Op.HasShadow y) : Op.HasShadow (if c then x else y) := by
  split
  · exact hx
  · exact hy

/-! ### The two accesses -/

theorem Op.HasShadow.memRead (addr : Nat) (w : AccessWidth) : Op.HasShadow (memRead addr w) where
  grows s := by
    rcases memRead_cases s addr w with ⟨-, -, h⟩ | ⟨-, f, h⟩
    · exact ⟨1, by rw [h]; simp [finalState]⟩
    · exact ⟨0, by rw [h]; rfl⟩
  follows m k d s s' h hd hk := by
    rcases memRead_cases s' addr w with ⟨hb, ha, hr⟩ | ⟨hn, f, hr⟩
    · rw [hr] at hd ⊢
      obtain rfl : d = 1 := by simpa [finalState] using hd.symm
      obtain ⟨k, rfl⟩ : ∃ j, k = j + 1 := ⟨k - 1, by omega⟩
      obtain rfl := h.alone
      rw [memRead_run (by simpa using hb) ha, alone_envTurn, alone_bankRead]
      exact ⟨(s.envTurn.bankRead addr w).2.record .read addr w (s.envTurn.bankRead addr w).1, rfl,
        by simp, h.next (by simp)⟩
    · have hs : Machine.memRead addr w s = atState (Machine.memRead addr w s') s := by
        rw [h.cfg] at hn
        simp only [Machine.memRead, State.inBank, aligned, h.cfg]
        by_cases hb : addr + w.bytes ≤ s.cfg.bankSize
        · have ha : ¬ addr % w.bytes = 0 := fun ha => hn ⟨hb, ha⟩
          simp [hb, ha, atState]
        · simp [hb, atState]
      rw [hr] at hd hs ⊢
      obtain rfl : d = 0 := by simpa [finalState] using hd.symm
      exact ⟨s, hs, rfl, h⟩

theorem Op.HasShadow.memWrite (addr : Nat) (w : AccessWidth) (v : Word) :
    Op.HasShadow (memWrite addr w v) where
  grows s := by
    rcases memWrite_cases s addr w v with ⟨-, -, h⟩ | ⟨-, f, h⟩
    · exact ⟨1, by rw [h]; simp [finalState]⟩
    · exact ⟨0, by rw [h]; rfl⟩
  follows m k d s s' h hd hk := by
    rcases memWrite_cases s' addr w v with ⟨hb, ha, hr⟩ | ⟨hn, f, hr⟩
    · rw [hr] at hd ⊢
      obtain rfl : d = 1 := by simpa [finalState] using hd.symm
      obtain ⟨k, rfl⟩ : ∃ j, k = j + 1 := ⟨k - 1, by omega⟩
      obtain rfl := h.alone
      rw [memWrite_run v (by simpa using hb) ha, alone_envTurn, alone_bankWrite]
      exact ⟨(s.envTurn.bankWrite addr w v).record .write addr w v, rfl, by simp,
        h.next (by simp)⟩
    · have hs : Machine.memWrite addr w v s = atState (Machine.memWrite addr w v s') s := by
        rw [h.cfg] at hn
        simp only [Machine.memWrite, State.inBank, aligned, h.cfg]
        by_cases hb : addr + w.bytes ≤ s.cfg.bankSize
        · have ha : ¬ addr % w.bytes = 0 := fun ha => hn ⟨hb, ha⟩
          simp [hb, ha, atState]
        · simp [hb, atState]
      rw [hr] at hd hs ⊢
      obtain rfl : d = 0 := by simpa [finalState] using hd.symm
      exact ⟨s, hs, rfl, h⟩

/-! ### Every line of the operations -/

theorem checkRawArgs_hasShadow (width : Word) (order : BitVec 8) :
    Op.HasShadow (checkRawArgs width order) := by
  unfold checkRawArgs
  split
  · exact .pure _
  · exact .raiseErr _ _

theorem checkBounds_hasShadow (b : Bool) : Op.HasShadow (checkBounds b) :=
  .ite (.pure _) (.raiseErr _ _)

theorem admitIf_hasShadow (r : Refusal) (b : Bool) : Op.HasShadow (Machine.admitIf r b) :=
  .ite (.pure _) (.refuse _)

theorem checkPins_hasShadow (pins : List Word) : Op.HasShadow (checkPins pins) := by
  unfold checkPins
  split
  · exact .pure _
  · exact .raiseErr _ _

theorem readResults_hasShadow : Op.HasShadow (do return (← readState).work.res) :=
  .readState (fun _ => .pure _) fun _ _ _ h => by rw [h]

theorem rawReadLoop_hasShadow (w : AccessWidth) (tag : OrderTag) (a n : Nat) :
    Op.HasShadow (rawReadLoop w tag a n) := by
  induction n generalizing a with
  | zero => exact .pure _
  | succ n ih =>
    exact .bind (.memRead _ _) fun raw => .bind (.update (fun c r =>
      { r with res := r.res ++ [convert c.native tag w raw] }) fun _ => rfl) fun _ => ih _

theorem rawWriteLoop_hasShadow (w : AccessWidth) (tag : OrderTag) (a n : Nat)
    (values : List Word) : Op.HasShadow (rawWriteLoop w tag a n values) := by
  induction n generalizing a values with
  | zero => exact .pure _
  | succ n ih =>
    cases values with
    | nil => exact .raiseErr _ _
    | cons v vs =>
      exact .readState (fun _ => .bind (checkBounds_hasShadow _) fun _ =>
        .bind (.memWrite _ _ _) fun _ => ih _ _) fun s s' h _ => by simp only [State.inBank, h]

theorem loadSnapf_hasShadow (rs : List (Fin 6)) : Op.HasShadow (loadSnapf rs) := by
  induction rs with
  | nil => exact .pure _
  | cons r rs ih =>
    exact .bind (.memRead _ _) fun v => .bind (.update (fun _ x =>
      { x with snapf := x.snapf.set r v }) fun _ => rfl) fun _ => ih

theorem gatherCodes_hasShadow (ps : List Pin) : Op.HasShadow (gatherCodes ps) := by
  induction ps with
  | nil => exact .pure _
  | cons p ps ih =>
    exact .bind (.update (fun _ x =>
      { x with res := x.res ++ [codeAt x.snapf[fselReg p] p] }) fun _ => rfl) fun _ => ih

theorem scanCodes_hasShadow (ps : List Pin) (cs : List Word) :
    Op.HasShadow (scanCodes ps cs) := by
  induction ps generalizing cs with
  | nil =>
    cases cs with
    | nil => exact .pure _
    | cons c cs => exact .raiseErr _ _
  | cons p ps ih =>
    cases cs with
    | nil => exact .raiseErr _ _
    | cons c cs =>
      unfold scanCodes
      split
      · exact .raiseErr _ _
      · rename_i code _
        exact .bind (.update (fun _ x =>
          { x with
            wm := x.wm.set (fselReg p) (x.wm[fselReg p] ||| fieldMask p)
            vm := x.vm.set (fselReg p) (x.vm[fselReg p] ||| fieldValue p code) })
          fun _ => rfl) fun _ => ih _

theorem applyFselReg_hasShadow (r : Fin 6) : Op.HasShadow (applyFselReg r) :=
  .readState (fun _ => .ite (.bind (.memRead _ _) fun _ => .memWrite _ _ _) (.pure _))
    fun s s' _ h => by simp only [h]

theorem applyFsel_hasShadow (rs : List (Fin 6)) : Op.HasShadow (applyFsel rs) := by
  induction rs with
  | nil => exact .pure _
  | cons r rs ih => exact .bind (applyFselReg_hasShadow r) fun _ => ih

theorem setSnapl_hasShadow (r : Fin 2) (v : Word) :
    Op.HasShadow (update fun s => s.setSnapl r v) :=
  .update (fun _ x => { x with snapl := x.snapl.set r v }) fun _ => rfl

theorem loadSnapl_hasShadow : Op.HasShadow loadSnapl :=
  .bind (.memRead _ _) fun _ => .bind (setSnapl_hasShadow _ _) fun _ =>
    .bind (.memRead _ _) fun _ => setSnapl_hasShadow _ _

theorem appendLevel_hasShadow (p : Pin) : Op.HasShadow (appendLevel p) :=
  .update (fun _ x => { x with res := x.res ++ [levelAt x.snapl[bitReg p] p] }) fun _ => rfl

theorem gatherLevels_hasShadow (ps : List Pin) : Op.HasShadow (gatherLevels ps) := by
  induction ps with
  | nil => exact .pure _
  | cons p ps ih => exact .bind (appendLevel_hasShadow p) fun _ => ih

theorem accumulateLevel_hasShadow (p : Pin) (v : Option Bool) :
    Op.HasShadow (update fun s => s.accumulateLevel p v) := by
  rcases v with _ | _ | _
  · exact .update (fun _ x => x) fun _ => rfl
  · exact .update (fun _ x =>
      { x with cm := x.cm.set (bitReg p) (x.cm[bitReg p] ||| bitMask p) }) fun _ => rfl
  · exact .update (fun _ x =>
      { x with sm := x.sm.set (bitReg p) (x.sm[bitReg p] ||| bitMask p) }) fun _ => rfl

theorem scanLevels_hasShadow (ps : List Pin) (vs : List (Option Bool)) :
    Op.HasShadow (scanLevels ps vs) := by
  induction ps generalizing vs with
  | nil => exact .pure _
  | cons p ps ih =>
    cases vs with
    | nil => exact .raiseErr _ _
    | cons v vs =>
      exact .bind (accumulateLevel_hasShadow p v) fun _ =>
        .bind (appendLevel_hasShadow p) fun _ => ih _

theorem unlessZero_hasShadow (m : Word) {write : Word → Op Unit}
    (h : ∀ m, Op.HasShadow (write m)) : Op.HasShadow (unlessZero m write) :=
  .ite (h m) (.pure _)

theorem applyLevels_hasShadow : Op.HasShadow applyLevels :=
  .readState (fun _ => .bind (unlessZero_hasShadow _ fun _ => .memWrite _ _ _) fun _ =>
    .bind (unlessZero_hasShadow _ fun _ => .memWrite _ _ _) fun _ =>
    .bind (unlessZero_hasShadow _ fun _ => .memWrite _ _ _) fun _ =>
    unlessZero_hasShadow _ fun _ => .memWrite _ _ _) fun s s' _ h => by simp only [h]

theorem clearRes_hasShadow : Op.HasShadow (update State.clearRes) :=
  .update (fun _ x => { x with res := [] }) fun _ => rfl

theorem clearFselMasks_hasShadow : Op.HasShadow (update State.clearFselMasks) :=
  .update (fun _ x => { x with wm := #v[0, 0, 0, 0, 0, 0], vm := #v[0, 0, 0, 0, 0, 0] })
    fun _ => rfl

theorem clearDioMasks_hasShadow : Op.HasShadow (update State.clearDioMasks) :=
  .update (fun _ x => { x with sm := #v[0, 0], cm := #v[0, 0] }) fun _ => rfl

/-! ### Every command -/

/-- A command whose pseudocode has a shadow, under `EXCL`. -/
theorem runOp_alone {op : Op (List Word)} (hop : Op.HasShadow op) {n d : Nat} {s t' : State}
    (hE : s.Excl n) (h : runOp op s.alone = .next t')
    (hd : t'.trace.length = s.trace.length + (d + 1)) (hn : d + 1 ≤ n) :
    ∃ t, runOp op s = .next t ∧ t.env = s.env.drop (d + 1) ∧ t' = { t with env := [] } := by
  have key : ∀ {r : EStateM.Result Stop State (List Word)} {q : Response} {u : State},
      op s.alone = r → finalState r = u → t' = u.finish q →
      ∃ t, op s = atState r t ∧ (t.finish q).env = s.env.drop (d + 1) ∧
        t' = { t.finish q with env := [] } := by
    rintro r q u hr hu rfl
    obtain ⟨t, ht, he, hs⟩ := hop.follows 0 n (d + 1) s s.alone (.before hE rfl)
      (by rw [hr, hu]; simpa using hd) hn
    rw [hr] at ht hs
    refine ⟨t, ht, by simpa using he, ?_⟩
    rw [Nat.zero_add] at hs
    cases hs with
    | after _ hs => rw [← hu, hs]; rfl
  rcases runOp_next h with ⟨rs, u, hr, hu⟩ | ⟨e, info, u, hr, hu⟩
  · obtain ⟨t, ht, h1, h2⟩ := key hr rfl hu
    exact ⟨_, runOp_ok ht, h1, h2⟩
  · obtain ⟨t, ht, h1, h2⟩ := key hr rfl hu
    exact ⟨_, runOp_raise ht, h1, h2⟩

/-- The premise `EXCL` (20_memory.md R64): a command that makes `d + 1 <= n` accesses with no other
agent, from the bank it finds at its first access, ends the same under `EXCL` for `n` accesses. -/
theorem exec_alone (i : Instr) {n d : Nat} {s t' : State} (hE : s.Excl n)
    (h : exec i s.alone = .next t') (hd : t'.trace.length = s.trace.length + (d + 1))
    (hn : d + 1 ≤ n) :
    ∃ t, exec i s = .next t ∧ t.env = s.env.drop (d + 1) ∧ t' = { t with env := [] } := by
  cases i with
  | rawRead offset count width order =>
    simp only [exec, execRawRead, alone_cfg] at h ⊢
    exact runOp_alone (.bind (checkRawArgs_hasShadow _ _) fun _ =>
      .bind (checkBounds_hasShadow _) fun _ => .bind (admitIf_hasShadow _ _) fun _ =>
      .bind clearRes_hasShadow fun _ => .bind (rawReadLoop_hasShadow _ _ _ _) fun _ =>
      readResults_hasShadow) hE h hd hn
  | rawWrite offset count width order values =>
    simp only [exec, execRawWrite, alone_cfg] at h ⊢
    exact runOp_alone (.bind (checkRawArgs_hasShadow _ _) fun _ =>
      .bind (checkBounds_hasShadow _) fun _ => .bind (admitIf_hasShadow _ _) fun _ =>
      .bind (admitIf_hasShadow _ _) fun _ =>
      .bind (rawWriteLoop_hasShadow _ _ _ _ _) fun _ => .pure _) hE h hd hn
  | fselGet pins =>
    exact runOp_alone (.bind .requirePinBank fun _ => .bind (checkPins_hasShadow _) fun _ =>
      .bind (loadSnapf_hasShadow _) fun _ => .bind clearRes_hasShadow fun _ =>
      .bind (gatherCodes_hasShadow _) fun _ => readResults_hasShadow) hE h hd hn
  | fselSet pins codes =>
    exact runOp_alone (.bind .requirePinBank fun _ => .bind (checkPins_hasShadow _) fun _ =>
      .bind clearFselMasks_hasShadow fun _ => .bind (scanCodes_hasShadow _ _) fun _ =>
      .bind (applyFsel_hasShadow _) fun _ => .pure _) hE h hd hn
  | dioRead pins =>
    exact runOp_alone (.bind .requirePinBank fun _ => .bind (checkPins_hasShadow _) fun _ =>
      .bind loadSnapl_hasShadow fun _ => .bind clearRes_hasShadow fun _ =>
      .bind (gatherLevels_hasShadow _) fun _ => readResults_hasShadow) hE h hd hn
  | dioWrrb pins values =>
    exact runOp_alone (.bind .requirePinBank fun _ => .bind (checkPins_hasShadow _) fun _ =>
      .bind loadSnapl_hasShadow fun _ => .bind clearDioMasks_hasShadow fun _ =>
      .bind clearRes_hasShadow fun _ => .bind (scanLevels_hasShadow _ _) fun _ =>
      .bind applyLevels_hasShadow fun _ => readResults_hasShadow) hE h hd hn
  | spiBuild len extra tx rx delay speed =>
    exact runOp_alone (.bind (.ite (.raiseErr _ _) (.pure _)) fun _ => .pure _) hE h hd hn

end Sys2Proof.Machine
end

