-- ==== Sys2Proof/Laws/Reach.lean ====
section
/-! SUPPORT. What pseudocode can do between two lines, said once for every operation: it moves only
the working registers, the bank, the environment's schedule, the draws and the trace; it keeps the
bank's invariant; it appends only legal accesses to the trace; the bank is what they and the
environment's turns leave. -/

namespace Sys2Proof.Machine

/-- The bank's part of the machine's invariant. -/
structure State.BankInv (s : State) : Prop where
  memCanonical : s.mem.wf
  memInBank : s.memInBank
  latchValid : s.latchValid

/-- An access in the bank and aligned (20_memory.md R50, R59). -/
def Access.Legal (size : Nat) (a : Access) : Prop :=
  a.addr + a.width.bytes ≤ size ∧ a.addr % a.width.bytes = 0

/-- All that pseudocode can do from `s` to `t`. -/
structure Reaches (s t : State) : Prop where
  cfg : t.cfg = s.cfg
  seq : t.seq = s.seq
  cmd : t.cmd = s.cmd
  inbox : t.inbox = s.inbox
  outbox : t.outbox = s.outbox
  bank : s.BankInv → t.BankInv
  trace : ∃ made, t.trace = s.trace ++ made ∧ (∀ a ∈ made, a.Legal s.cfg.bankSize) ∧
    SameForBank (s.afterAccesses made) t

theorem Reaches.refl (s : State) : Reaches s s :=
  ⟨rfl, rfl, rfl, rfl, rfl, id, [], by simp, by simp, .refl s⟩

theorem Reaches.trans {s t u : State} (h : Reaches s t) (k : Reaches t u) : Reaches s u := by
  obtain ⟨m, hm, hl, hs⟩ := h.trace
  obtain ⟨n, hn, hk, ht⟩ := k.trace
  refine ⟨k.cfg.trans h.cfg, k.seq.trans h.seq, k.cmd.trans h.cmd, k.inbox.trans h.inbox,
    k.outbox.trans h.outbox, k.bank ∘ h.bank, m ++ n, by simp [hn, hm], ?_,
    afterAccesses_append s m n ▸ (afterAccesses_sameForBank n hs).trans ht⟩
  intro a ha
  rcases List.mem_append.mp ha with ha | ha
  · exact hl a ha
  · exact h.cfg ▸ hk a ha

/-- A change of the working registers alone. -/
theorem Reaches.of_work (s : State) (work : WorkRegs) : Reaches s { s with work := work } :=
  ⟨rfl, rfl, rfl, rfl, rfl, fun h => ⟨h.1, h.2, h.3⟩, [], by simp, by simp,
    ⟨⟨rfl, rfl, rfl⟩, rfl, rfl⟩⟩

/-- Pseudocode from any state, whether it goes on or stops. -/
def Op.Reaches {α : Type} (op : Op α) : Prop :=
  ∀ s, (∀ a t, op s = .ok a t → Machine.Reaches s t) ∧
    ∀ e t, op s = .error e t → Machine.Reaches s t

theorem Op.Reaches.bind {α β : Type} {x : Op α} {f : α → Op β} (hx : Op.Reaches x)
    (hf : ∀ a, Op.Reaches (f a)) : Op.Reaches (x >>= f) := by
  intro s
  constructor
  · intro b u h
    obtain ⟨a, t, h1, h2⟩ := Op.of_bind_ok h
    exact ((hx s).1 a t h1).trans ((hf a t).1 b u h2)
  · intro e u h
    rcases Op.of_bind_error h with h | ⟨a, t, h1, h2⟩
    · exact (hx s).2 e u h
    · exact ((hx s).1 a t h1).trans ((hf a t).2 e u h2)

theorem Op.Reaches.pure {α : Type} (a : α) : Op.Reaches (Pure.pure a : Op α) := by
  intro s
  constructor
  · intro b t h
    cases h
    exact .refl s
  · intro e t h
    cases h

theorem raiseErr_reaches {α : Type} (e : Err) (info : BitVec 8) :
    Op.Reaches (raiseErr e info : Op α) := by
  intro s
  constructor
  · intro b t h
    cases h
  · intro e t h
    cases h
    exact .refl s

theorem refuse_reaches {α : Type} (r : Refusal) : Op.Reaches (refuse r : Op α) := by
  intro s
  constructor
  · intro b t h
    cases h
  · intro e t h
    cases h
    exact .refl s

theorem readState_reaches : Op.Reaches readState := by
  intro s
  constructor
  · intro b t h
    cases h
    exact .refl s
  · intro e t h
    cases h

theorem update_reaches {f : State → State} (hf : ∀ s, Machine.Reaches s (f s)) :
    Op.Reaches (update f) := by
  intro s
  constructor
  · intro b t h
    cases h
    exact hf s
  · intro e t h
    cases h

/-! ### The bank's invariant -/

@[simp] theorem length_splitLittle (n : Nat) (v : Word) : (splitLittle n v).length = n := by
  simp [splitLittle]

@[simp] theorem length_splitBytes (native : ByteOrder) (w : AccessWidth) (v : Word) :
    (splitBytes native w v).length = w.bytes := by
  cases native <;> simp [splitBytes]

theorem latchValid_or {o m k : Word} (h : o &&& ~~~k = 0) : (o ||| (m &&& k)) &&& ~~~k = 0 := by
  ext i hi
  have h' := congrArg (·.getLsbD i) h
  simp only [BitVec.getLsbD_eq_getElem hi, BitVec.getElem_and, BitVec.getElem_or,
    BitVec.getElem_not] at h' ⊢
  revert h'
  cases o[i] <;> cases m[i] <;> cases k[i] <;> simp

theorem latchValid_and {o m k : Word} (h : o &&& ~~~k = 0) : (o &&& m) &&& ~~~k = 0 := by
  ext i hi
  have h' := congrArg (·.getLsbD i) h
  simp only [BitVec.getLsbD_eq_getElem hi, BitVec.getElem_and, BitVec.getElem_not] at h' ⊢
  revert h'
  cases o[i] <;> cases m[i] <;> cases k[i] <;> simp

theorem State.setOutv_latchValid {s : State} (h : s.latchValid) (r : Fin 2) {v : Word}
    (hv : v &&& ~~~(validMask r) = 0) : (s.setOutv r v).latchValid := by
  intro q
  simp only [State.setOutv, Fin.getElem_fin, Vector.getElem_set]
  split
  · rename_i hq
    rw [← Fin.ext hq]
    exact hv
  · exact h q

/-- A legal write keeps the bank's invariant. -/
theorem State.bankWrite_bankInv {s : State} (h : s.BankInv) {addr : Nat} {w : AccessWidth}
    (v : Word) (hb : addr + w.bytes ≤ s.cfg.bankSize) : (s.bankWrite addr w v).BankInv := by
  unfold State.bankWrite
  split
  · refine ⟨Memory.storeBytes_wf h.memCanonical _ _, ?_, h.latchValid⟩
    intro c hc
    rcases Memory.mem_storeBytes hc with hc | hc
    · simp only [length_splitBytes] at hc
      exact Nat.lt_of_lt_of_le hc.2 hb
    · exact h.memInBank c hc
  · unfold State.gpioWrite
    split
    · exact ⟨h.memCanonical, h.memInBank, h.latchValid⟩
    · exact ⟨h.memCanonical, h.memInBank,
        State.setOutv_latchValid h.latchValid _ (latchValid_or (h.latchValid _))⟩
    · exact ⟨h.memCanonical, h.memInBank,
        State.setOutv_latchValid h.latchValid _ (latchValid_and (h.latchValid _))⟩
    · exact h
    · exact h

theorem State.envWrite_bankInv {s : State} (h : s.BankInv) (e : EnvWrite) :
    (s.envWrite e).BankInv := by
  unfold State.envWrite
  split
  · rename_i hc
    simp only [State.inBank, Bool.and_eq_true, decide_eq_true_eq] at hc
    exact State.bankWrite_bankInv h _ hc.1
  · exact h

theorem State.envWrites_bankInv {s : State} (h : s.BankInv) (gap : List EnvWrite) :
    (s.envWrites gap).BankInv := by
  induction gap generalizing s with
  | nil => exact h
  | cons e es ih => exact ih (State.envWrite_bankInv h e)

theorem State.envTurn_bankInv {s : State} (h : s.BankInv) : s.envTurn.BankInv := by
  unfold State.envTurn
  split
  · exact h
  · rename_i gap rest _
    exact State.envWrites_bankInv (s := { s with env := rest }) ⟨h.1, h.2, h.3⟩ gap

/-- A read leaves the bank as it is, so keeps its invariant. -/
theorem State.bankRead_bankInv {s : State} (h : s.BankInv) (addr : Nat) (w : AccessWidth) :
    (s.bankRead addr w).2.BankInv := by
  refine ⟨?_, ?_, ?_⟩
  · rw [State.bankRead_mem]
    exact h.memCanonical
  · intro c hc
    rw [State.bankRead_mem] at hc
    rw [State.bankRead_cfg]
    exact h.memInBank c hc
  · intro r
    rw [State.bankRead_outv]
    exact h.latchValid r

theorem memRead_reaches (addr : Nat) (w : AccessWidth) : Op.Reaches (memRead addr w) := by
  intro s
  constructor
  · intro v t h
    obtain ⟨hb, ha, -, rfl⟩ := memRead_ok h
    refine ⟨by simp, by simp, by simp, by simp, by simp, fun hi => ?_,
      [{ kind := .read, addr := addr, width := w, value := v }], by simp, ?_,
      ⟨⟨by simp [State.afterAccesses], by simp [State.afterAccesses],
        by simp [State.afterAccesses]⟩, by simp [State.afterAccesses],
        by simp [State.afterAccesses]⟩⟩
    · have := State.bankRead_bankInv (State.envTurn_bankInv hi) addr w
      exact ⟨this.1, this.2, this.3⟩
    · simpa [Access.Legal] using ⟨hb, ha⟩
  · intro e t h
    rcases memRead_cases s addr w with ⟨-, -, hr⟩ | ⟨-, f, hr⟩ <;> rw [hr] at h <;> cases h
    exact .refl s

theorem memWrite_reaches (addr : Nat) (w : AccessWidth) (v : Word) :
    Op.Reaches (memWrite addr w v) := by
  intro s
  constructor
  · intro _ t h
    obtain ⟨hb, ha, rfl⟩ := memWrite_ok h
    refine ⟨by simp, by simp, by simp, by simp, by simp, fun hi => ?_,
      [{ kind := .write, addr := addr, width := w, value := v }], by simp, ?_,
      ⟨⟨rfl, rfl, rfl⟩, rfl, rfl⟩⟩
    · have := State.bankWrite_bankInv (State.envTurn_bankInv hi) v
        (show addr + w.bytes ≤ s.envTurn.cfg.bankSize by simpa using hb)
      exact ⟨this.1, this.2, this.3⟩
    · simpa [Access.Legal] using ⟨hb, ha⟩
  · intro e t h
    rcases memWrite_cases s addr w v with ⟨-, -, hr⟩ | ⟨-, f, hr⟩ <;> rw [hr] at h <;> cases h
    exact .refl s

theorem requirePinBank_reaches : Op.Reaches requirePinBank := by
  intro s
  by_cases hb : pinUnitSpan ≤ s.cfg.bankSize
  · constructor
    · intro _ t h
      simp only [requirePinBank, if_pos hb] at h
      cases h
      exact .refl s
    · intro e t h
      simp only [requirePinBank, if_pos hb] at h
      cases h
  · constructor
    · intro _ t h
      simp only [requirePinBank, if_neg hb] at h
      cases h
    · intro e t h
      simp only [requirePinBank, if_neg hb] at h
      cases h
      exact .refl s

theorem checkPins_reaches (pins : List Word) : Op.Reaches (checkPins pins) := by
  unfold checkPins
  split
  · exact .pure _
  · exact raiseErr_reaches _ _

/-- A command whose pseudocode reaches `t` and ends has moved only what `Reaches` allows and then
responded. -/
theorem runOp_reaches {op : Op (List Word)} (h : Op.Reaches op) {s u : State}
    (hr : runOp op s = .next u) : ∃ t q, Reaches s t ∧ u = t.finish q := by
  rcases runOp_next hr with ⟨rs, t, ht, rfl⟩ | ⟨e, info, t, ht, rfl⟩
  · exact ⟨t, _, (h s).1 rs t ht, rfl⟩
  · exact ⟨t, _, (h s).2 _ t ht, rfl⟩

end Sys2Proof.Machine
end

