-- ==== Sys2Proof/Laws/Bytes.lean ====
section
/-! SUPPORT. Words and their bytes: joining, splitting and lanes (20_memory.md R53, R54, R68). -/

namespace Sys2Proof.Machine

/-- A bit of a joined word is a bit of one of its bytes. -/
theorem getLsbD_joinLittle (bs : List Byte) (i : Nat) (h : i < 32) :
    (joinLittle bs).getLsbD i = (bs.getD (i / 8) 0).getLsbD (i % 8) := by
  induction bs generalizing i with
  | nil => simp [joinLittle]
  | cons b bs ih =>
    simp only [joinLittle, BitVec.getLsbD_or, BitVec.getLsbD_setWidth, BitVec.getLsbD_shiftLeft,
      h, decide_true, Bool.true_and]
    by_cases h8 : i < 8
    · simp [h8, show i / 8 = 0 by omega, show i % 8 = i by omega]
    · rw [show i / 8 = (i - 8) / 8 + 1 by omega, List.getD_cons_succ, ih (i - 8) (by omega),
        BitVec.getLsbD_of_ge b i (by omega), show (i - 8) % 8 = i % 8 by omega]
      simp [h8]

/-- A joined word is below two to the number of its bits. -/
theorem joinLittle_lt (bs : List Byte) : (joinLittle bs).toNat < 2 ^ (8 * bs.length) := by
  induction bs with
  | nil => simp [joinLittle]
  | cons b bs ih =>
    simp only [joinLittle, List.length_cons]
    rw [BitVec.toNat_or]
    refine Nat.or_lt_two_pow ?_ ?_
    · simp only [BitVec.toNat_setWidth]
      exact lt_of_le_of_lt (Nat.mod_le _ _)
        (lt_of_lt_of_le b.isLt (Nat.pow_le_pow_right (by decide) (by omega)))
    · simp only [BitVec.toNat_shiftLeft, Nat.shiftLeft_eq]
      refine lt_of_le_of_lt (Nat.mod_le _ _) ?_
      rw [show 8 * (bs.length + 1) = 8 * bs.length + 8 by omega, Nat.pow_add]
      exact Nat.mul_lt_mul_of_pos_right ih (by decide)

/-- Splitting what was joined. -/
theorem splitLittle_joinLittle {n : Nat} {bs : List Byte} (h : bs.length = n) (hn : n ≤ 4) :
    splitLittle n (joinLittle bs) = bs := by
  refine List.ext_getElem (by simp [splitLittle, h]) fun k h1 h2 => ?_
  simp only [splitLittle, List.getElem_map, List.getElem_range]
  refine BitVec.eq_of_getLsbD_eq fun i hi => ?_
  simp only [BitVec.getLsbD_setWidth, BitVec.getLsbD_ushiftRight, hi, decide_true, Bool.true_and]
  rw [getLsbD_joinLittle _ _ (by omega), show (8 * k + i) / 8 = k by omega,
    show (8 * k + i) % 8 = i by omega]
  simp [h2]

/-- Joining what was split, for a value that fits. -/
theorem joinLittle_splitLittle {n : Nat} {v : Word} (h : v.toNat < 2 ^ (8 * n)) :
    joinLittle (splitLittle n v) = v := by
  refine BitVec.eq_of_getLsbD_eq fun i hi => ?_
  rw [getLsbD_joinLittle _ _ hi]
  by_cases hk : i / 8 < n
  · simp [splitLittle, hk, show i % 8 < 8 by omega, show 8 * (i / 8) + i % 8 = i by omega]
  · rw [List.getD_eq_default _ _ (by simpa [splitLittle] using hk)]
    have hz : v.getLsbD i = false :=
      Nat.testBit_lt_two_pow (lt_of_lt_of_le h (Nat.pow_le_pow_right (by decide) (by omega)))
    simp [hz]

/-- A read after a write, in either native order (20_memory.md R54). -/
theorem joinBytes_splitBytes {native : ByteOrder} {w : AccessWidth} {v : Word}
    (h : v.toNat < 2 ^ (8 * w.bytes)) : joinBytes native (splitBytes native w v) = v := by
  cases native <;> simp [joinBytes, splitBytes, joinLittle_splitLittle h]

/-- A value of the bank port fits its access (20_memory.md R53). -/
theorem bankRead_fits (s : State) (addr : Nat) (w : AccessWidth) :
    (s.bankRead addr w).1.toNat < 2 ^ (8 * w.bytes) := by
  unfold State.bankRead
  split
  · unfold joinBytes
    split
    · simpa using joinLittle_lt (s.mem.bytesAt addr w.bytes)
    · simpa using joinLittle_lt (s.mem.bytesAt addr w.bytes).reverse
  · simp only [readLanes, BitVec.toNat_and]
    refine lt_of_le_of_lt Nat.and_le_right ?_
    cases w <;> simp [widthMask, AccessWidth.bytes]

/-! ### A 32-bit access takes all four lanes -/

theorem laneShift_zero_w4 (native : ByteOrder) : laneShift native 0 .w4 = 0 := by
  cases native <;> rfl

theorem widthMask_w4 : widthMask .w4 = BitVec.allOnes 32 := rfl

@[simp] theorem readLanes_w4 (native : ByteOrder) (v : Word) : readLanes native 0 .w4 v = v := by
  simp only [readLanes, laneShift_zero_w4, widthMask_w4, BitVec.and_allOnes,
    BitVec.ushiftRight_zero]

@[simp] theorem placeLanes_w4 (native : ByteOrder) (v : Word) : placeLanes native 0 .w4 v = v := by
  simp only [placeLanes, laneShift_zero_w4, widthMask_w4, BitVec.and_allOnes,
    BitVec.shiftLeft_zero]

@[simp] theorem replaceLanes_w4 (native : ByteOrder) (old v : Word) :
    replaceLanes native 0 .w4 old v = v := by
  simp [replaceLanes, laneShift_zero_w4, widthMask_w4]

/-- An aligned 32-bit write of a GPIO-kind bank is the write of the register there
(20_memory.md R54). -/
theorem bankWrite_gpio_w4 {s : State} (hk : s.cfg.kind = .gpio) {addr : Nat}
    (ha : addr % 4 = 0) (v : Word) :
    s.bankWrite addr .w4 v = s.gpioWrite (gpioRegAt addr) 0 .w4 v := by
  simp [State.bankWrite, hk, ha]

/-- An aligned 32-bit read of a GPIO-kind bank is the read of the register there
(20_memory.md R53). -/
theorem bankRead_gpio_w4 {s : State} (hk : s.cfg.kind = .gpio) {addr : Nat}
    (ha : addr % 4 = 0) : s.bankRead addr .w4 = s.gpioRead (gpioRegAt addr) := by
  simp [State.bankRead, hk, ha]

/-! ### The register map -/

theorem gpioRegAt_fselOffset (r : Fin 6) : gpioRegAt (fselOffset r) = .fsel r := by
  revert r
  decide

theorem gpioRegAt_setOffset (r : Fin 2) : gpioRegAt (setOffset r) = .set r := by
  revert r
  decide

theorem gpioRegAt_clrOffset (r : Fin 2) : gpioRegAt (clrOffset r) = .clr r := by
  revert r
  decide

theorem gpioRegAt_levOffset (r : Fin 2) : gpioRegAt (levOffset r) = .lev r := by
  revert r
  decide

theorem fselOffset_legal (r : Fin 6) : fselOffset r + 4 ≤ 0x3C ∧ fselOffset r % 4 = 0 := by
  revert r
  decide

end Sys2Proof.Machine
end

