-- ==== Sys2Proof/Laws/Decode.lean ====
section
/-! SUPPORT. The fields of a header word, and the opcode map in both directions. -/

namespace Sys2Proof

@[simp] theorem fieldOpc_header (o a b : BitVec 8) : fieldOpc (header o a b) = o := by
  refine BitVec.eq_of_getElem_eq fun i hi => ?_
  simp [fieldOpc, header, show i < 8 by omega, show i < 16 by omega, show i < 32 by omega]

@[simp] theorem fieldA_header (o a b : BitVec 8) : fieldA (header o a b) = a := by
  refine BitVec.eq_of_getElem_eq fun i hi => ?_
  simp [fieldA, header, show 8 + i < 16 by omega, show 8 + i < 32 by omega,
    BitVec.getLsbD_eq_getElem hi]

@[simp] theorem fieldB_header (o a b : BitVec 8) : fieldB (header o a b) = b := by
  refine BitVec.eq_of_getElem_eq fun i hi => ?_
  simp [fieldB, header, show 16 + i < 32 by omega, show ¬ (16 + i < 8) by omega,
    show ¬ (16 + i < 16) by omega, show 16 + i - 8 = 8 + i by omega,
    BitVec.getLsbD_eq_getElem hi, BitVec.getLsbD_of_ge o (16 + i) (by omega)]

@[simp] theorem fieldRsv_header (o a b : BitVec 8) : fieldRsv (header o a b) = 0 := by
  refine BitVec.eq_of_getElem_eq fun i hi => ?_
  simp [fieldRsv, header, show 24 + i - 8 = 16 + i by omega, show 24 + i - 16 = 8 + i by omega,
    BitVec.getLsbD_of_ge o (24 + i) (by omega), BitVec.getLsbD_of_ge a (16 + i) (by omega)]

/-- A header whose `RSV` is 0 is built from its own fields. -/
theorem header_fields {h : Word} (hr : fieldRsv h = 0) :
    header (fieldOpc h) (fieldA h) (fieldB h) = h := by
  refine BitVec.eq_of_getElem_eq fun i hi => ?_
  have hz := congrArg (·.getLsbD (i - 24)) hr
  simp only [fieldRsv, BitVec.getLsbD_extractLsb'] at hz
  have he := BitVec.getLsbD_eq_getElem (x := h) hi
  simp only [header, fieldOpc, fieldA, fieldB, BitVec.getElem_or, BitVec.getElem_setWidth,
    BitVec.getElem_shiftLeft, BitVec.getLsbD_extractLsb']
  by_cases h1 : i < 8
  · simp [h1, show i < 16 by omega, he]
  by_cases h2 : i < 16
  · simp [h1, h2, show i - 8 < 8 by omega, show 8 + (i - 8) = i by omega, he]
  by_cases h3 : i < 24
  · simp [h1, h2, show ¬ (i - 8 < 8) by omega, show i - 16 < 8 by omega,
      show 16 + (i - 16) = i by omega, he]
  · have h4 : 24 + (i - 24) = i := by omega
    simp_all [show ¬ (i - 8 < 8) by omega, show ¬ (i - 16 < 8) by omega, show i - 24 < 8 by omega]

@[simp] theorem opcodeOf_code (op : Opcode) : opcodeOf op.code = some op := by
  cases op <;> rfl

/-- The opcode map loses nothing: the number an opcode is read from is its own. -/
theorem code_of_opcodeOf {x : BitVec 8} {op : Opcode} (h : opcodeOf x = some op) :
    x = op.code := by
  unfold opcodeOf at h
  repeat' split at h
  all_goals cases h
  all_goals simp_all [Opcode.code]

/-- All that a decoded command says of its words. -/
theorem decode_ok {ws : List Word} {i : Instr} (h : decode ws = .ok i) :
    ∃ hd body op, ws = hd :: body ∧ fieldOpc hd = op.code ∧ fieldRsv hd = 0 ∧
      decodeBody op hd body = .ok i := by
  unfold decode at h
  split at h
  · cases h
  · split at h
    · cases h
    · split at h
      · cases h
      · rename_i hd body x op ho hr
        exact ⟨hd, body, op, rfl, code_of_opcodeOf ho, by simpa using hr, h⟩

end Sys2Proof
end

