-- ==== Sys2Proof/Laws/Dio.lean ====
section
/-! SUPPORT. All that the loops of the DIO unit can do (42_dio_batch.md R170 to R173). -/

namespace Sys2Proof.Machine

/-- A 32-bit read of a level register: its level value with one draw (10_state.md R32, R40). -/
theorem bankRead_lev {s : State} (hk : s.cfg.kind = .gpio) (r : Fin 2) :
    s.bankRead (levOffset r) .w4 = (s.levelValue r s.drawn.1, s.drawn.2) := by
  rw [bankRead_gpio_w4 hk (by revert r; decide), gpioRegAt_levOffset]
  rfl

theorem levelValue_congr {s t : State} (h : SameBank s t) (hc : t.cfg = s.cfg) (r : Fin 2)
    (d : Word) : t.levelValue r d = s.levelValue r d := by
  simp [State.levelValue, State.levelBit, State.pinIsOut, h.fselv, h.outv, hc]

/-- The snapshot: the two level reads. In a quiet environment they return what stands in a MEM-kind
bank, and on a GPIO-kind bank the two level values, each with a draw of its own. -/
theorem loadSnapl_spec {s : State} (hb : 0x3C ≤ s.cfg.bankSize) :
    ∃ (t : State) (v0 v1 : Word), loadSnapl s = .ok () t ∧ SameControl s t ∧
      SameForBank (State.envTurns 2 s) t ∧
      t.trace = s.trace ++ [readEntry 0x34 v0, readEntry 0x38 v1] ∧
      t.work = { s.work with snapl := #v[v0, v1] } ∧
      [v0, v1] = s.readsAt .w4 [0x34, 0x38] ∧
      (s.Quiet 2 → s.cfg.kind = .mem →
        v0 = s.peek 0x34 .w4 ∧ v1 = s.peek 0x38 .w4 ∧ t.draws = s.draws) ∧
      (s.cfg.kind = .gpio → t.draws = s.draws + 2) ∧
      (s.Quiet 2 → s.cfg.kind = .gpio → v0 = s.levelValue 0 (Config.draw s.draws) ∧
        v1 = s.levelValue 1 (Config.draw (s.draws + 1))) := by
  obtain ⟨t1, v0, h1, hc1, hw1, he1, ht1, hv1, hd1⟩ :=
    memRead_spec (s := s) (addr := 0x34) (w := .w4) (by simp only [AccessWidth.bytes]; omega) rfl
  obtain ⟨t2, v1, h2, hc2, hw2, he2, ht2, hv2, hd2⟩ :=
    memRead_spec (s := t1.setSnapl 0 v0) (addr := 0x38) (w := .w4)
      (by simp only [AccessWidth.bytes, State.setSnapl_cfg, hc1.cfg]; omega) rfl
  have k : SameForBank s.envTurn (t1.setSnapl 0 v0) :=
    he1.trans ⟨⟨by simp, by simp, by simp⟩, by simp, by simp⟩
  refine ⟨t2.setSnapl 1 v1, v0, v1, ?_,
    hc1.trans (SameControl.trans ⟨by simp, by simp, by simp, by simp, by simp⟩
      (hc2.trans ⟨by simp, by simp, by simp, by simp, by simp⟩)),
    ((envTurn_sameForBank k).trans he2).trans ⟨⟨by simp, by simp, by simp⟩, by simp, by simp⟩,
    ?_, ?_, ?_, ?_, ?_, ?_⟩
  · simp only [loadSnapl]
    rw [show levOffset 0 = 0x34 from rfl, show levOffset 1 = 0x38 from rfl, Op.bind_ok h1,
      Op.bind_ok (update_run _ _), Op.bind_ok h2]
    rfl
  · simp [ht2, ht1, readEntry]
  · have hset : ∀ x : Vector Word 2, (x.set 0 v0).set 1 v1 = #v[v0, v1] := by
      intro x
      refine Vector.ext fun i hi => ?_
      interval_cases i <;> simp
    simp only [State.setSnapl_work, hw2, hw1]
    congr 1
    exact hset _
  · simp only [State.readsAt, hv1, List.cons.injEq, true_and, and_true]
    rw [hv2]
    have := readsAt_after he1 hd1 (u := t1.setSnapl 0 v0)
      ⟨⟨by simp, by simp, by simp⟩, by simp, by simp⟩ (by simp) [0x38]
    simpa [State.readsAt] using this
  · intro hE hk
    have hm1 : t1.draws = s.draws := by
      rw [hd1]
      simp [State.bankRead, hk]
    have hE1 : (t1.setSnapl 0 v0).Quiet 1 := quiet_tail hE (by simp [he1.env])
    have hsb : SameBank s (t1.setSnapl 0 v0) := (quiet_sameBank hE).trans k.bank
    refine ⟨by rw [hv1, quiet_peek hE], ?_, ?_⟩
    · rw [hv2, quiet_peek hE1, peek_congr hsb (by simp [hc1.cfg]) (by simp [hm1])]
    · rw [State.setSnapl_draws, hd2]
      simp [State.bankRead, hc1.cfg, hk, hm1]
  · intro hk
    have h0 := bankRead_lev (s := s.envTurn) (by simpa using hk) 0
    have h1 := bankRead_lev (s := (t1.setSnapl 0 v0).envTurn) (by simpa [hc1.cfg] using hk) 1
    rw [show levOffset 0 = 0x34 from rfl] at h0
    rw [show levOffset 1 = 0x38 from rfl] at h1
    simp [hd2, h1, hd1, h0, State.drawn]
  · intro hE hk
    have hE1 : (t1.setSnapl 0 v0).Quiet 1 := quiet_tail hE (by simp [he1.env])
    have hsb : SameBank s (t1.setSnapl 0 v0) := (quiet_sameBank hE).trans k.bank
    have h0 := bankRead_lev hk 0
    have h1 := bankRead_lev (s := t1.setSnapl 0 v0) (by simpa [hc1.cfg] using hk) 1
    have hd : t1.draws = s.draws + 1 := by
      have h0 := bankRead_lev (s := s.envTurn) (by simpa using hk) 0
      rw [show levOffset 0 = 0x34 from rfl] at h0
      simp [hd1, h0, State.drawn]
    rw [show levOffset 0 = 0x34 from rfl] at h0
    rw [show levOffset 1 = 0x38 from rfl] at h1
    rw [hv1, quiet_peek hE, hv2, quiet_peek hE1, State.peek, State.peek, h0, h1,
      levelValue_congr hsb (by simp [hc1.cfg])]
    simp [State.drawn, hd]

/-- Gathering appends one level of the snapshot for each pin. -/
theorem gatherLevels_spec (ps : List Pin) (s : State) :
    gatherLevels ps s = .ok () { s with work := { s.work with
      res := s.work.res ++ ps.map fun p => levelAt s.work.snapl[bitReg p] p } } := by
  induction ps generalizing s with
  | nil => simp [gatherLevels]
  | cons p ps ih =>
    simp only [gatherLevels, appendLevel]
    rw [Op.bind_ok (update_run _ _), ih]
    simp [State.appendRes]

/-- A level of the snapshot, in the terms of the statements. -/
theorem levelAt_snapshot (v0 v1 : Word) (p : Pin) :
    levelAt (#v[v0, v1])[bitReg p] p = snapshotLevel v0 v1 p := by
  have hp := p.isLt
  by_cases h : p.val < 32
  · have h0 : p.val / 32 = 0 := by omega
    simp [levelAt, snapshotLevel, bitReg, bitShift, h, h0]
  · have h1 : p.val / 32 = 1 := by omega
    simp [levelAt, snapshotLevel, bitReg, bitShift, h, h1]

/-- Scanning pins and values builds the masks of the pairs it consumed; it ends, with one level for
each pin, where the values reach, and else raises `ArityMismatch(0)`. -/
theorem scanLevels_spec (ps : List Pin) (vs : List (Option Bool)) (s : State) :
    ∃ t, ((ps.length ≤ vs.length ∧ scanLevels ps vs s = .ok () t ∧
          t.work.res = s.work.res ++ ps.map fun p => levelAt s.work.snapl[bitReg p] p) ∨
        (vs.length < ps.length ∧ scanLevels ps vs s = .error (.raise .arityMismatch 0) t)) ∧
      t = { s with work := t.work } ∧
      (∀ r : Fin 2, t.work.sm[r] = s.work.sm[r] ||| batchLevelMask true r (ps.zip vs)) ∧
      (∀ r : Fin 2, t.work.cm[r] = s.work.cm[r] ||| batchLevelMask false r (ps.zip vs)) := by
  induction ps generalizing vs s with
  | nil =>
    exact ⟨s, .inl ⟨by simp, by cases vs <;> rfl, by simp⟩, rfl, by simp [batchLevelMask, orOver],
      by simp [batchLevelMask, orOver]⟩
  | cons p ps ih =>
    cases vs with
    | nil =>
      exact ⟨s, .inr ⟨by simp, rfl⟩, rfl, by simp [batchLevelMask, orOver],
        by simp [batchLevelMask, orOver]⟩
    | cons v vs =>
      obtain ⟨t, h, he, h1, h2⟩ := ih vs ((s.accumulateLevel p v).appendRes
        (levelAt (s.accumulateLevel p v).work.snapl[bitReg p] p))
      have hsn : (s.accumulateLevel p v).work.snapl = s.work.snapl := by
        rcases v with _ | _ | _ <;> rfl
      have hre : (s.accumulateLevel p v).work.res = s.work.res := by
        rcases v with _ | _ | _ <;> rfl
      have hrun : scanLevels (p :: ps) (v :: vs) s = scanLevels ps vs
          ((s.accumulateLevel p v).appendRes
            (levelAt (s.accumulateLevel p v).work.snapl[bitReg p] p)) := by
        simp only [scanLevels, appendLevel]
        rw [Op.bind_ok (update_run _ _), Op.bind_ok (update_run _ _)]
      refine ⟨t, ?_, ?_, fun r => ?_, fun r => ?_⟩
      · rw [hrun]
        rcases h with ⟨a, b, c⟩ | ⟨a, b⟩
        · exact .inl ⟨by simpa using a, b, by rw [c]; simp [hsn, hre]⟩
        · exact .inr ⟨by simpa using a, b⟩
      · rw [he]
        rcases v with _ | _ | _ <;> rfl
      · rw [h1]
        by_cases hr : bitReg p = r
        · subst hr
          rcases v with _ | _ | _ <;> simp [batchLevelMask, orOver, bitMask, bitShift,
            State.accumulateLevel, BitVec.or_assoc]
        · have hne : (bitReg p).val ≠ r.val := fun h => hr (Fin.ext h)
          rcases v with _ | _ | _ <;> simp [batchLevelMask, hr, hne, State.accumulateLevel]
      · rw [h2]
        by_cases hr : bitReg p = r
        · subst hr
          rcases v with _ | _ | _ <;> simp [batchLevelMask, orOver, bitMask, bitShift,
            State.accumulateLevel, BitVec.or_assoc]
        · have hne : (bitReg p).val ≠ r.val := fun h => hr (Fin.ext h)
          rcases v with _ | _ | _ <;> simp [batchLevelMask, hr, hne, State.accumulateLevel]

/-- A zero mask is never written. -/
theorem unlessZero_zero (write : Word → Op Unit) (s : State) :
    unlessZero 0 write s = .ok () s := rfl

/-- A mask of a pin register: no access where it is zero, one write where it is not. -/
theorem unlessZero_spec {s : State} (hb : 0x3C ≤ s.cfg.bankSize) {addr : Nat}
    (hl : addr + 4 ≤ 0x3C) (ha : addr % 4 = 0) (m : Word) :
    ∃ t, unlessZero m (fun m => memWrite addr .w4 m) s = .ok () t ∧ SameControl s t ∧
      t.work = s.work ∧ t.draws = s.draws ∧
      t.trace = s.trace ++ (if m ≠ 0 then [writeEntry addr m] else []) ∧
      t.env = (if m ≠ 0 then s.env.tail else s.env) ∧
      SameBank (if m ≠ 0 then s.envTurn.bankWrite addr .w4 m else s) t ∧
      (s.Quiet 1 → SameBank (if m ≠ 0 then s.bankWrite addr .w4 m else s) t) := by
  by_cases hm : m = 0
  · subst hm
    exact ⟨s, rfl, .refl s, rfl, rfl, by simp, rfl, .refl s, fun _ => .refl s⟩
  · obtain ⟨t, h, hc, hw, he, ht, hd⟩ := memWrite_spec (s := s) (addr := addr) (w := .w4) m
      (by simp only [AccessWidth.bytes]; omega) ha
    simp only [unlessZero, ne_eq, hm, not_false_eq_true, if_true]
    exact ⟨t, h, hc, hw, hd, ht, by simp [he.env], he.bank, fun hE =>
      (bankWrite_sameBank (quiet_sameBank hE) (by simp) _ _ _).trans he.bank⟩

end Sys2Proof.Machine
end

