-- ==== Sys2Proof/Laws/Exec.lean ====
section
/-! SUPPORT. Every operation's pseudocode does only what `Reaches` allows; so a command that
answers a next state has reached some state that way and then responded. -/

namespace Sys2Proof.Machine

/-! ### RAW -/

theorem checkRawArgs_reaches (width : Word) (order : BitVec 8) :
    Op.Reaches (checkRawArgs width order) := by
  unfold checkRawArgs
  split
  · exact .pure _
  · exact raiseErr_reaches _ _

theorem checkBounds_reaches (b : Bool) : Op.Reaches (checkBounds b) := by
  unfold checkBounds
  split
  · exact .pure _
  · exact raiseErr_reaches _ _

theorem admit_reaches (r : Refusal) (b : Bool) : Op.Reaches (Machine.admitIf r b) := by
  unfold Machine.admitIf
  split
  · exact .pure _
  · exact refuse_reaches _

theorem rawReadLoop_reaches (w : AccessWidth) (tag : OrderTag) (a n : Nat) :
    Op.Reaches (rawReadLoop w tag a n) := by
  induction n generalizing a with
  | zero => exact .pure _
  | succ n ih =>
    exact .bind (memRead_reaches _ _) fun _ =>
      .bind (update_reaches fun s => .of_work s _) fun _ => ih _

theorem rawWriteLoop_reaches (w : AccessWidth) (tag : OrderTag) (a n : Nat)
    (values : List Word) : Op.Reaches (rawWriteLoop w tag a n values) := by
  induction n generalizing a values with
  | zero => exact .pure _
  | succ n ih =>
    cases values with
    | nil => exact raiseErr_reaches _ _
    | cons v vs =>
      exact .bind readState_reaches fun _ => .bind (checkBounds_reaches _) fun _ =>
        .bind (memWrite_reaches _ _ _) fun _ => ih _ _

/-! ### FSEL -/

theorem loadSnapf_reaches (rs : List (Fin 6)) : Op.Reaches (loadSnapf rs) := by
  induction rs with
  | nil => exact .pure _
  | cons r rs ih =>
    exact .bind (memRead_reaches _ _) fun _ =>
      .bind (update_reaches fun s => .of_work s _) fun _ => ih

theorem gatherCodes_reaches (ps : List Pin) : Op.Reaches (gatherCodes ps) := by
  induction ps with
  | nil => exact .pure _
  | cons p ps ih => exact .bind (update_reaches fun s => .of_work s _) fun _ => ih

theorem scanCodes_reaches (ps : List Pin) (cs : List Word) : Op.Reaches (scanCodes ps cs) := by
  induction ps generalizing cs with
  | nil =>
    cases cs with
    | nil => exact .pure _
    | cons c cs => exact raiseErr_reaches _ _
  | cons p ps ih =>
    cases cs with
    | nil => exact raiseErr_reaches _ _
    | cons c cs =>
      unfold scanCodes
      split
      · exact raiseErr_reaches _ _
      · exact .bind (update_reaches fun s => .of_work s _) fun _ => ih _

theorem applyFselReg_reaches (r : Fin 6) : Op.Reaches (applyFselReg r) := by
  refine .bind readState_reaches fun s => ?_
  split
  · exact .bind (memRead_reaches _ _) fun _ => memWrite_reaches _ _ _
  · exact .pure _

theorem applyFsel_reaches (rs : List (Fin 6)) : Op.Reaches (applyFsel rs) := by
  induction rs with
  | nil => exact .pure _
  | cons r rs ih => exact .bind (applyFselReg_reaches r) fun _ => ih

/-! ### DIO -/

theorem loadSnapl_reaches : Op.Reaches loadSnapl :=
  .bind (memRead_reaches _ _) fun _ => .bind (update_reaches fun s => .of_work s _) fun _ =>
    .bind (memRead_reaches _ _) fun _ => update_reaches fun s => .of_work s _

theorem appendLevel_reaches (p : Pin) : Op.Reaches (appendLevel p) :=
  update_reaches fun s => .of_work s _

theorem gatherLevels_reaches (ps : List Pin) : Op.Reaches (gatherLevels ps) := by
  induction ps with
  | nil => exact .pure _
  | cons p ps ih => exact .bind (appendLevel_reaches p) fun _ => ih

theorem accumulateLevel_reaches (p : Pin) (v : Option Bool) :
    Op.Reaches (update fun s => s.accumulateLevel p v) := by
  refine update_reaches fun s => ?_
  rcases v with _ | _ | _
  · exact .refl s
  · exact .of_work s _
  · exact .of_work s _

theorem scanLevels_reaches (ps : List Pin) (vs : List (Option Bool)) :
    Op.Reaches (scanLevels ps vs) := by
  induction ps generalizing vs with
  | nil => exact .pure _
  | cons p ps ih =>
    cases vs with
    | nil => exact raiseErr_reaches _ _
    | cons v vs =>
      exact .bind (accumulateLevel_reaches p v) fun _ => .bind (appendLevel_reaches p) fun _ =>
        ih _

theorem unlessZero_reaches (m : Word) {write : Word → Op Unit}
    (h : ∀ m, Op.Reaches (write m)) : Op.Reaches (unlessZero m write) := by
  unfold unlessZero
  split
  · exact h m
  · exact .pure _

theorem applyLevels_reaches : Op.Reaches applyLevels :=
  .bind readState_reaches fun _ =>
    .bind (unlessZero_reaches _ fun _ => memWrite_reaches _ _ _) fun _ =>
      .bind (unlessZero_reaches _ fun _ => memWrite_reaches _ _ _) fun _ =>
        .bind (unlessZero_reaches _ fun _ => memWrite_reaches _ _ _) fun _ =>
          unlessZero_reaches _ fun _ => memWrite_reaches _ _ _

/-! ### SPI -/

theorem checkExtraBits_reaches (e : BitVec 8) : Op.Reaches (checkExtraBits e) := by
  unfold checkExtraBits
  split
  · exact raiseErr_reaches _ _
  · exact .pure _

/-! ### Every command -/

/-- Reading `RES` and returning it. -/
theorem returnRes_reaches :
    Op.Reaches (do return (← readState).work.res : Op (List Word)) :=
  .bind readState_reaches fun _ => .pure _

/-- If a command answers, its pseudocode reached some state and the block responded there. -/
theorem exec_reaches {i : Instr} {s u : State} (h : exec i s = .next u) :
    ∃ t q, Reaches s t ∧ u = t.finish q := by
  cases i with
  | rawRead offset count width order =>
    exact runOp_reaches (.bind (checkRawArgs_reaches _ _) fun (w, tag) =>
      .bind (checkBounds_reaches _) fun _ => .bind (admit_reaches _ _) fun _ =>
        .bind (update_reaches fun s => .of_work s _) fun _ =>
          .bind (rawReadLoop_reaches _ _ _ _) fun _ => returnRes_reaches) h
  | rawWrite offset count width order values =>
    exact runOp_reaches (.bind (checkRawArgs_reaches _ _) fun (w, tag) =>
      .bind (checkBounds_reaches _) fun _ => .bind (admit_reaches _ _) fun _ =>
        .bind (admit_reaches _ _) fun _ =>
          .bind (rawWriteLoop_reaches _ _ _ _ _) fun _ => .pure _) h
  | fselGet pins =>
    exact runOp_reaches (.bind requirePinBank_reaches fun _ =>
      .bind (checkPins_reaches _) fun _ => .bind (loadSnapf_reaches _) fun _ =>
        .bind (update_reaches fun s => .of_work s _) fun _ =>
          .bind (gatherCodes_reaches _) fun _ => returnRes_reaches) h
  | fselSet pins codes =>
    exact runOp_reaches (.bind requirePinBank_reaches fun _ =>
      .bind (checkPins_reaches _) fun _ =>
        .bind (update_reaches fun s => .of_work s _) fun _ =>
          .bind (scanCodes_reaches _ _) fun _ => .bind (applyFsel_reaches _) fun _ => .pure _) h
  | dioRead pins =>
    exact runOp_reaches (.bind requirePinBank_reaches fun _ =>
      .bind (checkPins_reaches _) fun _ => .bind loadSnapl_reaches fun _ =>
        .bind (update_reaches fun s => .of_work s _) fun _ =>
          .bind (gatherLevels_reaches _) fun _ => returnRes_reaches) h
  | dioWrrb pins values =>
    exact runOp_reaches (.bind requirePinBank_reaches fun _ =>
      .bind (checkPins_reaches _) fun _ => .bind loadSnapl_reaches fun _ =>
        .bind (update_reaches fun s => .of_work s _) fun _ =>
          .bind (update_reaches fun s => .of_work s _) fun _ =>
            .bind (scanLevels_reaches _ _) fun _ => .bind applyLevels_reaches fun _ =>
              returnRes_reaches) h
  | spiBuild len extraBits txbase rxbase delay speed =>
    exact runOp_reaches (.bind (checkExtraBits_reaches _) fun _ => .pure _) h

end Sys2Proof.Machine
end

