-- ==== Sys2Proof/Laws/Fsel.lean ====
section
/-! SUPPORT. All that the loops of the FSEL unit can do (41_pinmux_codec.md R150 to R152). -/

namespace Sys2Proof.Machine

/-- One 4-byte read of a function-select register: it draws nothing. -/
theorem fselRead_spec {s : State} (hb : 0x3C ≤ s.cfg.bankSize) (r : Fin 6) :
    ∃ t v, memRead (fselOffset r) .w4 s = .ok v t ∧ SameControl s t ∧ t.work = s.work ∧
      SameForBank s.envTurn t ∧ t.trace = s.trace ++ [readEntry (fselOffset r) v] ∧
      v = s.envTurn.peek (fselOffset r) .w4 ∧ t.draws = s.draws ∧
      t.draws = (s.envTurn.bankRead (fselOffset r) .w4).2.draws := by
  obtain ⟨hl, ha⟩ := fselOffset_legal r
  obtain ⟨t, v, h, hc, hw, he, ht, hv, hd⟩ :=
    memRead_spec (s := s) (addr := fselOffset r) (w := .w4)
      (by simp only [AccessWidth.bytes]; omega) ha
  refine ⟨t, v, h, hc, hw, he, ht, hv, ?_, hd⟩
  rw [hd]
  cases hk : s.cfg.kind
  · simp [State.bankRead, hk]
  · rw [bankRead_gpio_w4 (by simpa using hk) ha, gpioRegAt_fselOffset]
    simp [State.gpioRead]

/-- The snapshot: one read for each register, in order. -/
theorem loadSnapf_spec (rs : List (Fin 6)) (s : State) (hb : 0x3C ≤ s.cfg.bankSize)
    (hn : rs.Nodup) :
    ∃ (t : State) (snap : Fin 6 → Word), loadSnapf rs s = .ok () t ∧ SameControl s t ∧
      SameForBank (State.envTurns rs.length s) t ∧ t.draws = s.draws ∧
      t.trace = s.trace ++ rs.map (fun r => readEntry (fselOffset r) (snap r)) ∧
      (∀ r : Fin 6, t.work.snapf[r] = if r ∈ rs then snap r else s.work.snapf[r]) ∧
      t.work.res = s.work.res ∧ rs.map snap = s.readsAt .w4 (rs.map fselOffset) ∧
      (s.Quiet rs.length → ∀ r ∈ rs, snap r = s.peek (fselOffset r) .w4) := by
  induction rs generalizing s with
  | nil => exact ⟨s, fun _ => 0, rfl, .refl s, .refl s, rfl, by simp, by simp, rfl, rfl, by simp⟩
  | cons r rs ih =>
    obtain ⟨hnr, hn⟩ := List.nodup_cons.mp hn
    obtain ⟨t1, v, h1, hc1, hw1, he1, ht1, hv, hd1, hdr⟩ := fselRead_spec hb r
    obtain ⟨t2, snap, h2, hc2, he2, hd2, ht2, hs2, hr2, hrd, hx2⟩ :=
      ih (t1.setSnapf r v) (by simpa [hc1.cfg] using hb) hn
    refine ⟨t2, fun q => if q = r then v else snap q, ?_,
      hc1.trans (SameControl.trans ⟨by simp, by simp, by simp, by simp, by simp⟩ hc2), ?_, ?_, ?_,
      ?_, ?_, ?_, ?_⟩
    · simp only [loadSnapf]
      rw [Op.bind_ok h1, Op.bind_ok (update_run _ _)]
      exact h2
    · exact SameForBank.trans (envTurns_sameForBank (SameForBank.trans he1
        ⟨⟨by simp, by simp, by simp⟩, by simp, by simp⟩) _) he2
    · simp [hd2, hd1]
    · rw [ht2]
      simp only [State.setSnapf_trace, ht1, List.map_cons, if_true, List.append_assoc,
        List.singleton_append]
      congr 2
      refine List.map_congr_left fun q hq => ?_
      rw [if_neg (by rintro rfl; exact hnr hq)]
    · intro q
      rw [hs2 q]
      by_cases hq : q = r
      · subst hq
        simp [hnr]
      · have hne : r.val ≠ q.val := fun h => hq (Fin.ext h.symm)
        by_cases hq2 : q ∈ rs <;> simp [hq, hq2, hne, hw1]
    · simp [hr2, hw1]
    · simp only [List.map_cons, if_true, State.readsAt, hv]
      rw [← readsAt_after he1 hdr (u := t1.setSnapf r v)
        ⟨⟨by simp, by simp, by simp⟩, by simp, by simp⟩ (by simp), ← hrd]
      congr 1
      refine List.map_congr_left fun q hq => ?_
      rw [if_neg (by rintro rfl; exact hnr hq)]
    · intro hE q hq
      rcases List.mem_cons.mp hq with rfl | hq'
      · simp [hv, quiet_peek hE]
      · have hqr : q ≠ r := by
          rintro rfl
          exact hnr hq'
        have hsb : SameBank s (t1.setSnapf r v) := by
          have := (quiet_sameBank hE).trans he1.bank
          exact ⟨this.1, this.2, this.3⟩
        simp only [if_neg hqr,
          hx2 (quiet_tail hE (by simp [he1.env])) q hq']
        exact peek_congr hsb (by simp [hc1.cfg]) (by simp [hd1]) _ _

/-- Gathering appends one code of the snapshot for each pin. -/
theorem gatherCodes_spec (ps : List Pin) (s : State) :
    gatherCodes ps s = .ok () { s with work := { s.work with
      res := s.work.res ++ ps.map fun p => codeAt s.work.snapf[fselReg p] p } } := by
  induction ps generalizing s with
  | nil => simp [gatherCodes]
  | cons p ps ih =>
    simp only [gatherCodes]
    rw [Op.bind_ok (update_run _ _), ih]
    simp [State.appendRes]

/-- Scanning paired pins and valid codes builds the masks of the batch, in any order the same. -/
theorem scanCodes_spec (pcs : List (Pin × BitVec 3)) (s : State) :
    ∃ t, scanCodes (pcs.map Prod.fst) (pcs.map fun pc => codeWord pc.2) s = .ok () t ∧
      t = { s with work := t.work } ∧
      (∀ r : Fin 6, t.work.wm[r] = s.work.wm[r] ||| batchWriteMask r (pcs.map Prod.fst)) ∧
      (∀ r : Fin 6, t.work.vm[r] = s.work.vm[r] ||| batchValueMask r pcs) := by
  induction pcs generalizing s with
  | nil =>
    exact ⟨s, rfl, rfl, by simp [batchWriteMask, orOver], by simp [batchValueMask, orOver]⟩
  | cons pc pcs ih =>
    obtain ⟨p, c⟩ := pc
    obtain ⟨t, h, he, h1, h2⟩ := ih (s.accumulateCode p c)
    refine ⟨t, ?_, by rw [he]; rfl, fun r => ?_, fun r => ?_⟩
    · simp only [List.map_cons, scanCodes, parseCode_codeWord]
      rw [Op.bind_ok (update_run _ _)]
      exact h
    · rw [h1]
      by_cases hr : fselReg p = r
      · subst hr
        simp [batchWriteMask, orOver, fieldMask, fselShift, BitVec.or_assoc]
      · have hne : (fselReg p).val ≠ r.val := fun h => hr (Fin.ext h)
        simp [batchWriteMask, hr, hne]
    · rw [h2]
      by_cases hr : fselReg p = r
      · subst hr
        simp [batchValueMask, orOver, fieldValue, codeWord, fselShift, BitVec.or_assoc]
      · have hne : (fselReg p).val ≠ r.val := fun h => hr (Fin.ext h)
        simp [batchValueMask, hr, hne]

/-- A register with a zero write-mask is not touched. -/
theorem applyFselReg_skip {s : State} {r : Fin 6} (h : s.work.wm[r] = 0) :
    applyFselReg r s = .ok () s := by
  simp only [applyFselReg]
  rw [Op.bind_ok (readState_run s)]
  simp only [h, ne_eq, not_true_eq_false, if_false]
  rfl

/-- Any other register: one read, then one write of the merged value. -/
theorem applyFselReg_spec {s : State} (hb : 0x3C ≤ s.cfg.bankSize) {r : Fin 6}
    (h : s.work.wm[r] ≠ 0) :
    ∃ (t : State) (old : Word), applyFselReg r s = .ok () t ∧ SameControl s t ∧
      t.work = s.work ∧ t.draws = s.draws ∧ t.env = s.env.tail.tail ∧
      t.trace = s.trace ++ [readEntry (fselOffset r) old,
        writeEntry (fselOffset r) (mergeField old s.work.wm[r] s.work.vm[r])] ∧
      (s.Quiet 2 → old = s.peek (fselOffset r) .w4 ∧ SameBank (s.bankWrite (fselOffset r) .w4
        (mergeField old s.work.wm[r] s.work.vm[r])) t) := by
  obtain ⟨hl, ha⟩ := fselOffset_legal r
  obtain ⟨t1, old, h1, hc1, hw1, he1, ht1, hv, hd1, -⟩ := fselRead_spec hb r
  obtain ⟨t2, h2, hc2, hw2, he2, ht2, hd2⟩ := memWrite_spec (s := t1) (addr := fselOffset r)
    (w := .w4) (mergeField old s.work.wm[r] s.work.vm[r])
    (by rw [hc1.cfg]; simp only [AccessWidth.bytes]; omega) ha
  refine ⟨t2, old, ?_, hc1.trans hc2, hw2.trans hw1, hd2.trans hd1, by simp [he2.env, he1.env], ?_,
    fun hE => ⟨by rw [hv, quiet_peek hE], ?_⟩⟩
  · simp only [applyFselReg]
    rw [Op.bind_ok (readState_run s)]
    simp only [ne_eq, h, not_false_eq_true, if_true]
    rw [Op.bind_ok h1]
    exact h2
  · rw [ht2, ht1, List.append_assoc]
    rfl
  · have hE1 : t1.Quiet 1 := quiet_tail hE (by simp [he1.env])
    have hsb := ((quiet_sameBank hE).trans he1.bank).trans (quiet_sameBank hE1)
    exact (bankWrite_sameBank hsb (by simp [hc1.cfg]) _ _ _).trans he2.bank

/-- A 32-bit write of a function-select register, on either bank kind. -/
theorem bankWrite_fsel (s : State) (r : Fin 6) (v : Word) :
    (s.bankWrite (fselOffset r) .w4 v).outv = s.outv ∧
      (s.cfg.kind = .gpio → (s.bankWrite (fselOffset r) .w4 v).mem = s.mem ∧
        (s.bankWrite (fselOffset r) .w4 v).fselv = s.fselv.set r v) ∧
      (s.cfg.kind = .mem → (s.bankWrite (fselOffset r) .w4 v).fselv = s.fselv) ∧
      (∀ q : Fin 6, (s.bankWrite (fselOffset r) .w4 v).peek (fselOffset q) .w4 =
        if q = r then v else s.peek (fselOffset q) .w4) ∧
      (∀ a, a / 4 ≠ r.val →
        (s.bankWrite (fselOffset r) .w4 v).mem.byteAt a = s.mem.byteAt a) := by
  obtain ⟨hl, ha⟩ := fselOffset_legal r
  cases hk : s.cfg.kind
  · have hw : s.bankWrite (fselOffset r) .w4 v =
        { s with mem := s.mem.storeBytes (fselOffset r) (splitBytes s.cfg.native .w4 v) } := by
      simp [State.bankWrite, hk]
    rw [hw]
    refine ⟨rfl, by simp, fun _ => rfl, fun q => ?_, fun a hq => ?_⟩
    · simp only [State.peek, State.bankRead, hk]
      by_cases hq : q = r
      · subst hq
        have hself := Memory.bytesAt_storeBytes_self s.mem (fselOffset q)
          (splitBytes s.cfg.native .w4 v)
        rw [length_splitBytes] at hself
        rw [hself, if_pos rfl, joinBytes_splitBytes (by simpa [AccessWidth.bytes] using v.isLt)]
      · have hne : r.val ≠ q.val := fun h => hq (Fin.ext h.symm)
        rw [if_neg hq, Memory.bytesAt_storeBytes_other _ _ _ _ _
          (by simp only [AccessWidth.bytes, fselOffset, length_splitBytes]; omega)]
    · rw [Memory.byteAt_storeBytes, if_neg
        (by simp only [AccessWidth.bytes, fselOffset, length_splitBytes]; omega)]
  · rw [bankWrite_gpio_w4 hk ha, gpioRegAt_fselOffset]
    simp only [State.gpioWrite, replaceLanes_w4]
    refine ⟨rfl, fun _ => ⟨rfl, rfl⟩, by simp, fun q => ?_, fun _ _ => rfl⟩
    simp only [State.peek]
    rw [bankRead_gpio_w4 (by simpa using hk) (fselOffset_legal q).2,
      bankRead_gpio_w4 hk (fselOffset_legal q).2, gpioRegAt_fselOffset]
    simp only [State.gpioRead, State.setFselv_fselv]
    by_cases hq : q = r
    · subst hq
      simp
    · have hne : r.val ≠ q.val := fun h => hq (Fin.ext h.symm)
      simp [hq, hne]

end Sys2Proof.Machine
end

