-- ==== Sys2Proof/Laws/Lanes.lean ====
section
/-! SUPPORT. Byte lanes of a device register (20_memory.md R68): what placing, replacing and
reading lanes do, said lane by lane. -/

namespace Sys2Proof.Machine

/-- Bit `i` of lane `k`. -/
theorem getLsbD_laneByte (native : ByteOrder) (k i : Nat) (v : Word) (hi : i < 8) :
    (laneByte native k v).getLsbD i =
      v.getLsbD ((match native with | .little => 8 * k | .big => 24 - 8 * k) + i) := by
  cases native <;> simp [laneByte, hi]

theorem getLsbD_widthMask (w : AccessWidth) (i : Nat) :
    (widthMask w).getLsbD i = decide (i < 8 * w.bytes) := by
  have key : ∀ n, n ≤ 32 → ((BitVec.allOnes n).setWidth 32).getLsbD i = decide (i < n) := by
    intro n hn
    simp only [BitVec.getLsbD_setWidth, BitVec.getLsbD_allOnes]
    by_cases h : i < n
    · simp [h, show i < 32 by omega]
    · simp [h]
  cases w
  · exact key 8 (by decide)
  · exact key 16 (by decide)
  · exact key 32 (by decide)

/-- Byte `m` of an element, in either order. -/
theorem getD_splitBytes (order : ByteOrder) (w : AccessWidth) (v : Word) {m : Nat}
    (hm : m < w.bytes) : (splitBytes order w v).getD m 0 =
      (v >>> (8 * (match order with | .little => m | .big => w.bytes - 1 - m))).setWidth 8 := by
  cases order
  · simp [splitBytes, splitLittle, hm]
  · have : w.bytes - 1 - m < w.bytes := by omega
    simp [splitBytes, splitLittle, hm]

/-- The lanes of a placed value: the element's bytes where it is placed, 0 elsewhere. -/
theorem laneByte_placeLanes (native : ByteOrder) {j : Nat} {w : AccessWidth} (v : Word)
    (hw : j + w.bytes ≤ 4) {k : Nat} (hk : k < 4) :
    laneByte native k (placeLanes native j w v) =
      if j ≤ k ∧ k < j + w.bytes then (splitBytes native w v).getD (k - j) 0 else 0 := by
  refine BitVec.eq_of_getLsbD_eq fun i hi => ?_
  rw [getLsbD_laneByte _ _ _ _ hi]
  simp only [placeLanes, BitVec.getLsbD_shiftLeft, BitVec.getLsbD_and, getLsbD_widthMask]
  by_cases h : j ≤ k ∧ k < j + w.bytes
  · rw [if_pos h, getD_splitBytes native w v (by omega)]
    simp only [BitVec.getLsbD_setWidth, BitVec.getLsbD_ushiftRight]
    cases native <;> simp only [laneShift]
    · simp [hi, show 8 * k + i - 8 * j = 8 * (k - j) + i by omega,
        show 8 * k + i < 32 by omega, show ¬ 8 * k + i < 8 * j by omega,
        show 8 * (k - j) + i < 8 * w.bytes by omega]
    · simp [hi, show 24 - 8 * k + i < 32 by omega,
        show 24 - 8 * k + i - (32 - 8 * (j + w.bytes)) = 8 * (w.bytes - 1 - (k - j)) + i by omega,
        show ¬ 24 - 8 * k + i < 32 - 8 * (j + w.bytes) by omega,
        show 8 * (w.bytes - 1 - (k - j)) + i < 8 * w.bytes by omega]
  · rw [if_neg h]
    cases native <;> simp only [laneShift]
    · by_cases hs : 8 * k + i < 8 * j
      · simp [hs]
      · simp [show ¬ 8 * k + i - 8 * j < 8 * w.bytes by omega]
    · by_cases hs : 24 - 8 * k + i < 32 - 8 * (j + w.bytes)
      · simp [hs]
      · simp [show ¬ 24 - 8 * k + i - (32 - 8 * (j + w.bytes)) < 8 * w.bytes by omega]

/-- The lanes that an element of all ones takes. -/
theorem getLsbD_shiftedMask (native : ByteOrder) {j : Nat} {w : AccessWidth}
    (hw : j + w.bytes ≤ 4) {k i : Nat} (hk : k < 4) (hi : i < 8) :
    (widthMask w <<< laneShift native j w).getLsbD
      ((match native with | .little => 8 * k | .big => 24 - 8 * k) + i) =
        decide (j ≤ k ∧ k < j + w.bytes) := by
  simp only [BitVec.getLsbD_shiftLeft, getLsbD_widthMask]
  cases native <;> simp only [laneShift]
  · rcases Nat.lt_or_ge (8 * k + i) (8 * j) with hs | hs
    · simp [hs, show ¬ j ≤ k by omega]
    · simp [show ¬ 8 * k + i < 8 * j by omega, show 8 * k + i < 32 by omega,
        show j ≤ k by omega]
      exact decide_eq_decide.mpr (by omega)
  · rcases Nat.lt_or_ge (24 - 8 * k + i) (32 - 8 * (j + w.bytes)) with hs | hs
    · simp [hs, show ¬ k < j + w.bytes by omega]
    · simp [show ¬ 24 - 8 * k + i < 32 - 8 * (j + w.bytes) by omega,
        show 24 - 8 * k + i < 32 by omega, show k < j + w.bytes by omega]
      exact decide_eq_decide.mpr (by omega)

/-- The lanes of a register after a narrow write: the element's bytes where it is written, the old
ones elsewhere. -/
theorem laneByte_replaceLanes (native : ByteOrder) {j : Nat} {w : AccessWidth} (old v : Word)
    (hw : j + w.bytes ≤ 4) {k : Nat} (hk : k < 4) :
    laneByte native k (replaceLanes native j w old v) =
      if j ≤ k ∧ k < j + w.bytes then (splitBytes native w v).getD (k - j) 0
      else laneByte native k old := by
  have hp := laneByte_placeLanes native v hw hk
  refine BitVec.eq_of_getLsbD_eq fun i hi => ?_
  have hpi := congrArg (fun b : Byte => b.getLsbD i) hp
  simp only [getLsbD_laneByte _ _ _ _ hi] at hpi
  rw [getLsbD_laneByte _ _ _ _ hi, replaceLanes, BitVec.getLsbD_or, hpi, BitVec.getLsbD_and,
    BitVec.getLsbD_not, getLsbD_shiftedMask native hw hk hi]
  by_cases h : j ≤ k ∧ k < j + w.bytes
  · simp [h]
  · simp only [h, if_false, decide_false, Bool.not_false, Bool.and_true,
      getLsbD_laneByte _ _ _ _ hi]
    cases native <;>
      simp [show 8 * k + i < 32 by omega, show 24 - 8 * k + i < 32 by omega]

/-- A narrow read: the bytes of the addressed lanes, joined. -/
theorem readLanes_eq (native : ByteOrder) {j : Nat} {w : AccessWidth} (v : Word)
    (hw : j + w.bytes ≤ 4) :
    readLanes native j w v =
      joinBytes native ((List.range w.bytes).map fun k => laneByte native (j + k) v) := by
  refine BitVec.eq_of_getLsbD_eq fun i hi => ?_
  simp only [readLanes, BitVec.getLsbD_and, BitVec.getLsbD_ushiftRight, getLsbD_widthMask]
  cases native <;> simp only [joinBytes, laneShift, getLsbD_joinLittle _ _ hi]
  · by_cases h : i / 8 < w.bytes
    · rw [List.getD_eq_getElem _ _ (by simpa using h), List.getElem_map, List.getElem_range,
        getLsbD_laneByte _ _ _ _ (by omega)]
      simp [show i < 8 * w.bytes by omega, show 8 * (j + i / 8) + i % 8 = 8 * j + i by omega]
    · simp [h, show ¬ i < 8 * w.bytes by omega]
  · by_cases h : i / 8 < w.bytes
    · rw [List.getD_eq_getElem _ _ (by simpa using h), List.getElem_reverse, List.getElem_map,
        List.getElem_range, getLsbD_laneByte _ _ _ _ (by omega)]
      simp [show i < 8 * w.bytes by omega,
        show 24 - 8 * (j + (w.bytes - 1 - i / 8)) + i % 8 = 32 - 8 * (j + w.bytes) + i by omega]
    · simp [h, show ¬ i < 8 * w.bytes by omega]

/-! ### An access of a GPIO-kind bank, by register and lane -/

/-- A read of lanes `j ..` of the register at `base` (20_memory.md R68). -/
theorem bankRead_gpio {s : State} (hk : s.cfg.kind = .gpio) {base j : Nat} (hb : base % 4 = 0)
    (hj : j < 4) (w : AccessWidth) :
    s.bankRead (base + j) w = (readLanes s.cfg.native j w (s.gpioRead (gpioRegAt base)).1,
      (s.gpioRead (gpioRegAt base)).2) := by
  simp only [State.bankRead, hk, show (base + j) % 4 = j by omega, Nat.add_sub_cancel]

/-- A write of lanes `j ..` of the register at `base` (20_memory.md R68). -/
theorem bankWrite_gpio {s : State} (hk : s.cfg.kind = .gpio) {base j : Nat} (hb : base % 4 = 0)
    (hj : j < 4) (w : AccessWidth) (v : Word) :
    s.bankWrite (base + j) w v = s.gpioWrite (gpioRegAt base) j w v := by
  simp only [State.bankWrite, hk, show (base + j) % 4 = j by omega, Nat.add_sub_cancel]

end Sys2Proof.Machine
end

