-- ==== Sys2Proof/Laws/PerInstr.lean ====
section
/-! SUPPORT. Statements made for every command, one lemma per constructor. -/

namespace Sys2Proof.Laws.EncodeShape

/-- The opcode of a command (30_encoding.md R92). -/
def opcode : Instr → Opcode
  | .rawRead _ _ _ _ => .rawRead
  | .rawWrite _ _ _ _ _ => .rawWrite
  | .fselGet _ => .fselGet
  | .fselSet _ _ => .fselSet
  | .dioRead _ => .dioRead
  | .dioWrrb _ _ => .dioWrrb
  | .spiBuild _ _ _ _ _ _ => .spiBuild

/-- An expressible command is written with its own opcode, the reserved byte 0, the fields its
format defines as 0 at 0, and exactly the length 30_encoding.md R104 computes from its words. -/
def Statement (i : Instr) : Prop :=
  i.wellFormed = true → ∃ h body, encode i = h :: body ∧
    fieldOpc h = (opcode i).code ∧ fieldRsv h = 0 ∧
    ((opcode i).zeroA = true → fieldA h = 0) ∧ ((opcode i).zeroB = true → fieldB h = 0) ∧
    requiredLength (opcode i) (encode i) = some (encode i).length

/-- A count word holds the length of a sequence that fits it. -/
theorem countWord_toNat {α : Type} {xs : List α} (h : countFits xs = true) :
    (countWord xs).toNat = xs.length := by
  simp only [countFits, decide_eq_true_eq] at h
  simp only [countWord, BitVec.toNat_ofNat]
  omega

theorem rawRead (offset count width : Word) (order : BitVec 8) :
    Statement (.rawRead offset count width order) :=
  fun _ => ⟨_, _, rfl, by simp [opcode], by simp, by simp [opcode, Opcode.zeroA],
    by simp [opcode, Opcode.zeroB], rfl⟩

theorem rawWrite (offset count width : Word) (order : BitVec 8) (values : List Word) :
    Statement (.rawWrite offset count width order values) := by
  intro h
  simp only [Instr.wellFormed, Bool.and_eq_true] at h
  refine ⟨_, _, rfl, by simp [opcode], by simp, by simp [opcode, Opcode.zeroA],
    by simp [opcode, Opcode.zeroB], ?_⟩
  simp [opcode, requiredLength, encode, countWord_toNat h.2]
  omega

theorem fselGet (pins : List Word) : Statement (.fselGet pins) := by
  intro h
  refine ⟨_, _, rfl, by simp [opcode], by simp, by simp, by simp, ?_⟩
  simp [opcode, requiredLength, encode, countWord_toNat (xs := pins) h]
  omega

theorem fselSet (pins codes : List Word) : Statement (.fselSet pins codes) := by
  intro h
  simp only [Instr.wellFormed, Bool.and_eq_true] at h
  refine ⟨_, _, rfl, by simp [opcode], by simp, by simp, by simp, ?_⟩
  simp [opcode, requiredLength, encode, countWord_toNat h.1, countWord_toNat h.2]
  omega

theorem dioRead (pins : List Word) : Statement (.dioRead pins) := by
  intro h
  refine ⟨_, _, rfl, by simp [opcode], by simp, by simp, by simp, ?_⟩
  simp [opcode, requiredLength, encode, countWord_toNat (xs := pins) h]
  omega

theorem dioWrrb (pins : List Word) (values : List (Option Bool)) :
    Statement (.dioWrrb pins values) := by
  intro h
  simp only [Instr.wellFormed, Bool.and_eq_true] at h
  refine ⟨_, _, rfl, by simp [opcode], by simp, by simp, by simp, ?_⟩
  simp [opcode, requiredLength, encode, countWord_toNat h.1, countWord_toNat h.2]
  omega

theorem spiBuild (len : Word) (extraBits : BitVec 8) (txbase rxbase delay speed : Word) :
    Statement (.spiBuild len extraBits txbase rxbase delay speed) :=
  fun _ => ⟨_, _, rfl, by simp [opcode], by simp, by simp [opcode, Opcode.zeroA], by simp, rfl⟩

end Sys2Proof.Laws.EncodeShape
end

