-- ==== Sys2Proof/Laws/Raw.lean ====
section
/-! SUPPORT. All that the loops of the RAW unit can do (40_raw_accessor.md R132, R133). -/

namespace Sys2Proof.Machine

theorem checkRawArgs_operands (w : AccessWidth) (tag : OrderTag) (s : State) :
    checkRawArgs w.operand tag.operand s = .ok (w, tag) s := by
  simp [checkRawArgs]

/-- The read loop inside the bank: `n` reads, their converted values appended to `RES`; on a
MEM-kind bank in a quiet environment the values are those of the bytes standing in the bank. -/
theorem rawReadLoop_spec (w : AccessWidth) (tag : OrderTag) (n a : Nat) (s : State)
    (hb : a + w.bytes * n ≤ s.cfg.bankSize) (ha : a % w.bytes = 0) :
    ∃ t vs, rawReadLoop w tag a n s = .ok () t ∧ vs.length = n ∧ SameControl s t ∧
      t.work.res = s.work.res ++ vs.map (convert s.cfg.native tag w) ∧
      SameForBank (State.envTurns n s) t ∧ t.trace = s.trace ++ accessesAt .read w a vs ∧
      (∀ v ∈ vs, v.toNat < 2 ^ (8 * w.bytes)) ∧ vs = s.readsAt w (elementOffsets w a n) ∧
      (s.Quiet n → s.cfg.kind = .mem → t.draws = s.draws ∧
        vs = (List.range n).map fun i =>
          joinBytes s.cfg.native (s.mem.bytesAt (a + i * w.bytes) w.bytes)) := by
  induction n generalizing a s with
  | zero =>
    exact ⟨s, [], rfl, rfl, .refl s, by simp, .refl s, by simp [accessesAt], by simp, rfl,
      fun _ _ => ⟨rfl, rfl⟩⟩
  | succ n ih =>
    rw [Nat.mul_succ] at hb
    obtain ⟨t1, v, h1, hc1, hw1, he1, ht1, hv, hd1⟩ :=
      memRead_spec (s := s) (addr := a) (w := w) (by omega) ha
    obtain ⟨t2, vs, h2, hl, hc2, hr2, he2, ht2, hfit, hrd, hx⟩ :=
      ih (a + w.bytes) (t1.appendRes (convert t1.cfg.native tag w v))
        (by simp only [State.appendRes_cfg, hc1.cfg]; omega) (by simp [ha])
    refine ⟨t2, v :: vs, ?_, by simp [hl], ?_, ?_, ?_, ?_, ?_, ?_, ?_⟩
    · simp only [rawReadLoop]
      rw [Op.bind_ok h1, Op.bind_ok (update_run _ _)]
      exact h2
    · exact hc1.trans (SameControl.trans ⟨by simp, by simp, by simp, by simp, by simp⟩ hc2)
    · simp [hr2, hw1, hc1.cfg]
    · exact SameForBank.trans (envTurns_sameForBank (SameForBank.trans he1
        ⟨⟨by simp, by simp, by simp⟩, by simp, by simp⟩) n) he2
    · simp [ht2, ht1, accessesAt]
    · simpa using ⟨hv ▸ bankRead_fits _ _ _, hfit⟩
    · rw [hrd, hv, readsAt_after he1 hd1 ⟨⟨by simp, by simp, by simp⟩, by simp, by simp⟩ (by simp)]
      rfl
    · intro hE hk
      have hm : t1.mem = s.mem := he1.bank.mem.trans (quiet_sameBank hE).mem
      have hd : t1.draws = s.draws := by
        rw [hd1]
        simp [State.bankRead, hk]
      obtain ⟨hdr, hvs⟩ := hx (quiet_tail hE (by simp [he1.env])) (by simp [hc1.cfg, hk])
      refine ⟨by simp [hdr, hd], ?_⟩
      rw [List.range_succ_eq_map, List.map_cons, List.map_map, hvs, hv, quiet_peek hE]
      simp only [State.peek, State.bankRead, hk, Nat.zero_mul, Nat.add_zero,
        State.appendRes_mem, State.appendRes_cfg, hm, hc1.cfg, List.cons.injEq, true_and]
      refine List.map_congr_left fun i _ => ?_
      simp only [Function.comp_apply, Nat.succ_eq_add_one, Nat.add_mul, Nat.one_mul]
      congr 2
      omega

/-- The write loop from an aligned offset: it makes `m` writes, where `m` is the count or, if they
are fewer, the values or the elements left in the bank, and then ends or raises `OutOfRange`; on a
MEM-kind bank in a quiet environment exactly the written elements have changed. -/
theorem rawWriteLoop_spec (w : AccessWidth) (tag : OrderTag) (n a : Nat) (values : List Word)
    (s : State) (m : Nat) (ha : a % w.bytes = 0) (hb : a ≤ s.cfg.bankSize)
    (hm : m = min n (min values.length ((s.cfg.bankSize - a) / w.bytes))) :
    ∃ t, ((m = n ∧ rawWriteLoop w tag a n values s = .ok () t) ∨
        (m < n ∧ rawWriteLoop w tag a n values s = .error (.raise .outOfRange 0) t)) ∧
      SameControl s t ∧ t.draws = s.draws ∧
      t.trace = s.trace ++
        accessesAt .write w a ((values.take m).map (convert s.cfg.native tag w)) ∧
      SameForBank (s.writesFrom w a ((values.take m).map (convert s.cfg.native tag w))) t ∧
      t.env = s.env.drop m ∧
      (s.Quiet m → s.cfg.kind = .mem → t.fselv = s.fselv ∧ t.outv = s.outv ∧
        (∀ i, i < m → t.mem.bytesAt (a + i * w.bytes) w.bytes =
          splitBytes s.cfg.native w (convert s.cfg.native tag w (values.getD i 0))) ∧
        ∀ k, k < a ∨ a + m * w.bytes ≤ k → t.mem.byteAt k = s.mem.byteAt k) := by
  have hp := bytes_pos w
  induction n generalizing a values s m with
  | zero =>
    obtain rfl : m = 0 := by omega
    exact ⟨s, .inl ⟨rfl, rfl⟩, .refl s, rfl, by simp [accessesAt], .refl s, rfl,
      fun _ _ => ⟨rfl, rfl, by simp, by simp⟩⟩
  | succ n ih =>
    cases values with
    | nil =>
      obtain rfl : m = 0 := by
        simp only [List.length_nil] at hm
        omega
      exact ⟨s, .inr ⟨by omega, rfl⟩, .refl s, rfl, by simp [accessesAt], .refl s, rfl,
        fun _ _ => ⟨rfl, rfl, by simp, by simp⟩⟩
    | cons v vs =>
      by_cases hin : a + w.bytes ≤ s.cfg.bankSize
      · obtain ⟨t1, h1, hc1, hw1, he1, ht1, hd1⟩ :=
          memWrite_spec (s := s) (addr := a) (w := w) (convert s.cfg.native tag w v) hin ha
        have hdiv : (s.cfg.bankSize - a) / w.bytes =
            (s.cfg.bankSize - (a + w.bytes)) / w.bytes + 1 := by
          rw [← Nat.sub_sub,
            show s.cfg.bankSize - a = (s.cfg.bankSize - a - w.bytes) + w.bytes by omega,
            Nat.add_div_right _ hp]
          simp
        rw [hdiv, List.length_cons] at hm
        obtain ⟨m, rfl⟩ : ∃ k, m = k + 1 := ⟨m - 1, by
          generalize (s.cfg.bankSize - (a + w.bytes)) / w.bytes = q at hm
          omega⟩
        obtain ⟨t2, hr, hc2, hd2, ht2, hw2, he2, hx⟩ := ih (a + w.bytes) vs t1 m (by simp [ha])
          (by rw [hc1.cfg]; exact hin) (by
            rw [hc1.cfg]
            generalize (s.cfg.bankSize - (a + w.bytes)) / w.bytes = q at hm ⊢
            omega)
        have hrun : rawWriteLoop w tag a (n + 1) (v :: vs) s =
            rawWriteLoop w tag (a + w.bytes) n vs t1 := by
          simp only [rawWriteLoop]
          rw [Op.bind_ok (readState_run s)]
          simp only [State.inBank, hin, decide_true, checkBounds, if_true, pure_bind]
          rw [Op.bind_ok h1]
        refine ⟨t2, ?_, hc1.trans hc2, hd2.trans hd1, ?_, ?_, ?_, ?_⟩
        · rw [hrun]
          exact hr.imp (fun h => ⟨by omega, h.2⟩) fun h => ⟨by omega, h.2⟩
        · simp [ht2, ht1, hc1.cfg, accessesAt]
        · rw [hc1.cfg] at hw2
          simpa [State.writesFrom] using (writesFrom_sameForBank w (a + w.bytes) _ he1).trans hw2
        · rw [he2, he1.env]
          simp [List.drop_tail]
        · intro hE hk
          obtain ⟨e1, e2, e3, e4⟩ := hx (quiet_tail hE (by simp [he1.env]))
            (by rw [hc1.cfg]; exact hk)
          have hbk := quiet_sameBank hE
          rw [show s.envTurn.bankWrite a w (convert s.cfg.native tag w v) =
            { s.envTurn with
              mem := s.envTurn.mem.storeBytes a
                (splitBytes s.cfg.native w (convert s.cfg.native tag w v)) } by
              simp [State.bankWrite, hk]] at he1
          have hmem : t1.mem = s.mem.storeBytes a
              (splitBytes s.cfg.native w (convert s.cfg.native tag w v)) := by
            rw [he1.bank.mem]
            simp only [hbk.mem]
          rw [hc1.cfg] at e3
          have hmul : (m + 1) * w.bytes = m * w.bytes + w.bytes := by ring
          refine ⟨e1.trans (he1.bank.fselv.trans hbk.fselv),
            e2.trans (he1.bank.outv.trans hbk.outv), ?_, ?_⟩
          · intro i hi
            cases i with
            | succ i =>
              rw [show a + (i + 1) * w.bytes = a + w.bytes + i * w.bytes by ring,
                e3 i (by omega)]
              simp
            | zero =>
              simp only [Nat.zero_mul, Nat.add_zero, List.getD_cons_zero]
              have hself := Memory.bytesAt_storeBytes_self s.mem a
                (splitBytes s.cfg.native w (convert s.cfg.native tag w v))
              rw [length_splitBytes, ← hmem] at hself
              rw [← hself]
              refine List.ext_getElem (by simp) fun j h3 h4 => ?_
              simp only [Memory.length_bytesAt] at h3
              rw [Memory.getElem_bytesAt, Memory.getElem_bytesAt, e4 _ (.inl (by omega))]
          · intro k hk'
            rw [e4 k (by omega), hmem, Memory.byteAt_storeBytes,
              if_neg (by rw [length_splitBytes]; omega)]
      · have hz : (s.cfg.bankSize - a) / w.bytes = 0 := Nat.div_eq_of_lt (by omega)
        obtain rfl : m = 0 := by
          rw [hz] at hm
          omega
        refine ⟨s, .inr ⟨by omega, ?_⟩, .refl s, rfl, by simp [accessesAt], .refl s, rfl,
          fun _ _ => ⟨rfl, rfl, by simp, by simp⟩⟩
        simp only [rawWriteLoop]
        rw [Op.bind_ok (readState_run s)]
        simp only [State.inBank, hin, decide_false, checkBounds]
        rfl

end Sys2Proof.Machine
end

