-- ==== Sys2Proof/Machine/Text.lean ====
section
/-! DEFINITION. The text syntax of commands and responses (30_encoding.md R105), as characters.
Nothing in the machine reads it. Numbers are written in decimal, function codes by number
(notes/assumptions/23.md). -/

namespace Sys2Proof.Machine

/-- A natural in decimal. -/
def numberText (n : Nat) : List Char := Nat.toDigits 10 n

/-- An operand word in decimal. -/
def wordText (v : Word) : List Char := numberText v.toNat

/-- Operands separated by a comma and a space. -/
def commaText : List (List Char) → List Char
  | [] => []
  | [x] => x
  | x :: xs => x ++ ',' :: ' ' :: commaText xs

/-- A sequence in square brackets. -/
def sequenceText (xs : List (List Char)) : List Char := '[' :: commaText xs ++ [']']

/-- `NATIVE`, `BIG` or `LITTLE`; any other tag as a signed number. -/
def orderText (order : BitVec 8) : List Char :=
  match parseOrder order with
  | some .native => "NATIVE".toList
  | some .big => "BIG".toList
  | some .little => "LITTLE".toList
  | none => if order.toInt < 0 then '-' :: numberText order.toInt.natAbs else numberText order.toNat

/-- `1`, `0`, or `-` for `absent`. -/
def optBoolText : Option Bool → List Char
  | none => "-".toList
  | some false => "0".toList
  | some true => "1".toList

/-- The operation's name and its operands in the order of 30_encoding.md R90. -/
def commandText : Instr → List Char
  | .rawRead offset count width order =>
    "RAW.READ ".toList ++
      commaText [wordText offset, wordText count, wordText width, orderText order]
  | .rawWrite offset count width order values =>
    "RAW.WRITE ".toList ++
      commaText [wordText offset, wordText count, wordText width, orderText order,
        sequenceText (values.map wordText)]
  | .fselGet pins => "FSEL.GET ".toList ++ sequenceText (pins.map wordText)
  | .fselSet pins codes =>
    "FSEL.SET ".toList ++
      commaText [sequenceText (pins.map wordText), sequenceText (codes.map wordText)]
  | .dioRead pins => "DIO.READ ".toList ++ sequenceText (pins.map wordText)
  | .dioWrrb pins values =>
    "DIO.WRRB ".toList ++
      commaText [sequenceText (pins.map wordText), sequenceText (values.map optBoolText)]
  | .spiBuild len extraBits txbase rxbase delay speed =>
    "SPI.BUILD ".toList ++
      commaText [wordText len, numberText extraBits.toNat, wordText txbase, wordText rxbase,
        wordText delay, wordText speed]

/-- The names of 60_exceptions.md R210. -/
def errText : Err → List Char
  | .invalidPin => "InvalidPin".toList
  | .invalidFunctionCode => "InvalidFunctionCode".toList
  | .arityMismatch => "ArityMismatch".toList
  | .outOfRange => "OutOfRange".toList
  | .invalidArgument => "InvalidArgument".toList

/-- `-> OK [r0, r1, ...]` or `-> <ErrorName>(info)` (30_encoding.md R105). -/
def responseText (q : Response) : List Char :=
  "-> ".toList ++ match q.status with
    | .ok => "OK ".toList ++ sequenceText (q.results.map wordText)
    | .error e => errText e ++ '(' :: numberText q.info.toNat ++ [')']

end Sys2Proof.Machine
end

