-- ==== Sys2Proof/Tests/Slice0.lean ====
section
/-! SUPPORT. Tests of the model, with expected results from spec/30_encoding.md section 7 and
spec/95_test_vectors.md, and a witness for the hypotheses of every obligation that has some. -/

namespace Sys2Proof.Tests

open Sys2Proof.Machine

/-! ### States and observations -/

/-- Bytes `0x00` up to `n`, all zero, as the vectors' convention premises them. -/
def zeroBytes (n : Nat) : Memory := (List.range n).map fun a => (a, 0)

/-- A MEM-kind bank of `0x1000` bytes, little-endian, whose bytes below `0x44` are 0. -/
def memBank : State :=
  { cfg := Params.reference, seq := .busy, cmd := [], inbox := [], outbox := [],
    work := WorkRegs.dropped, mem := zeroBytes 0x44, fselv := #v[0, 0, 0, 0, 0, 0],
    outv := #v[0, 0], env := [], draws := 0, trace := [] }

/-- `memBank` with the 32-bit values given at the offsets given. -/
def memBankWith (values : List (Nat × Word)) : State :=
  { memBank with
    mem := values.foldl (fun m av => m.storeBytes av.1 (splitLittle 4 av.2)) memBank.mem }

/-- The same bank with the other native byte order. -/
def bigEndian (s : State) : State := { s with cfg := { s.cfg with native := .big } }

/-- A GPIO-kind bank with the given registers. -/
def gpioBank (fselv : Vector Word 6) (outv : Vector Word 2) (loopback : Bool) : State :=
  { memBank with
    cfg := { Params.reference with kind := .gpio, loopback := loopback }
    mem := [], fselv := fselv, outv := outv }

/-- The bank with another size. -/
def sized (n : Nat) (s : State) : State := { s with cfg := { s.cfg with bankSize := n } }

/-- The state, if there is a next one. -/
def nextOf : Host.Outcome State Fault Refusal → Option State
  | .next t => some t
  | _ => none

/-- The refusal, if there is one. -/
def refusalOf : Host.Outcome State Fault Refusal → Option Refusal
  | .refused r => some r
  | _ => none

/-- The last response's words and the access trace. -/
def observed (o : Host.Outcome State Fault Refusal) : Option (List Word × List Access) :=
  (nextOf o).bind fun t => t.outbox.getLast?.map fun q => (q, t.trace)

/-- A trace entry `R addr/n -> value`. -/
def R (addr : Nat) (w : AccessWidth) (v : Word) : Access :=
  { kind := .read, addr := addr, width := w, value := v }

/-- A trace entry `W addr/n <- value`. -/
def W (addr : Nat) (w : AccessWidth) (v : Word) : Access :=
  { kind := .write, addr := addr, width := w, value := v }

/-! ### WellFormed refuses an ill-formed term for each of its checks -/

/-- A sequence one longer than a count word can say. -/
theorem test_countFits_refuses {α : Type} (x : α) :
    countFits (List.replicate (2 ^ 32) x) = false := by
  simp only [countFits, List.length_replicate]
  decide

theorem test_wf_rawRead_width : (Instr.rawRead 0 0 256 0).wellFormed = false := by decide

theorem test_wf_rawWrite_width : (Instr.rawWrite 0 0 256 0 []).wellFormed = false := by decide

theorem test_wf_rawWrite_values :
    (Instr.rawWrite 0 0 4 0 (List.replicate (2 ^ 32) 0)).wellFormed = false := by
  simp only [Instr.wellFormed, test_countFits_refuses, Bool.and_false]

theorem test_wf_fselGet_pins :
    (Instr.fselGet (List.replicate (2 ^ 32) 0)).wellFormed = false :=
  test_countFits_refuses _

theorem test_wf_fselSet_pins :
    (Instr.fselSet (List.replicate (2 ^ 32) 0) []).wellFormed = false := by
  simp only [Instr.wellFormed, test_countFits_refuses, Bool.false_and]

theorem test_wf_fselSet_codes :
    (Instr.fselSet [] (List.replicate (2 ^ 32) 0)).wellFormed = false := by
  simp only [Instr.wellFormed, test_countFits_refuses, Bool.and_false]

theorem test_wf_dioRead_pins :
    (Instr.dioRead (List.replicate (2 ^ 32) 0)).wellFormed = false :=
  test_countFits_refuses _

theorem test_wf_dioWrrb_pins :
    (Instr.dioWrrb (List.replicate (2 ^ 32) 0) []).wellFormed = false := by
  simp only [Instr.wellFormed, test_countFits_refuses, Bool.false_and]

theorem test_wf_dioWrrb_values :
    (Instr.dioWrrb [] (List.replicate (2 ^ 32) none)).wellFormed = false := by
  simp only [Instr.wellFormed, test_countFits_refuses, Bool.and_false]

/-! ### Decoding: words written out from 30_encoding.md section 7 and 95_test_vectors.md part 3 -/

theorem test_decode_rawRead :
    decode [0x00000401, 0x00000034, 0x00000001] = .ok (.rawRead 0x34 1 4 0) := by decide

/-- E1: `ORDER = 0xFF` is `LITTLE`. -/
theorem test_decode_rawRead_little :
    decode [0x00FF0401, 0x00000034, 0x00000001] = .ok (.rawRead 0x34 1 4 0xFF) := by decide

/-- E16: fewer values than `count` is well-formed. -/
theorem test_decode_rawWrite :
    decode [0x00000402, 0, 2, 1, 7] = .ok (.rawWrite 0 2 4 0 [7]) := by decide

theorem test_decode_fselGet :
    decode [0x00000010, 2, 4, 0x11] = .ok (.fselGet [4, 17]) := by decide

/-- E12: pins and codes of different lengths. -/
theorem test_decode_fselSet :
    decode [0x00000011, 2, 1, 3, 4, 1] = .ok (.fselSet [3, 4] [1]) := by decide

/-- E14. -/
theorem test_decode_dioRead : decode [0x00000020, 1, 0x36] = .ok (.dioRead [54]) := by decide

/-- E15: `0xFFFFFFFE` is not `absent`. -/
theorem test_decode_dioWrrb :
    decode [0x00000021, 1, 1, 0, 0xFFFFFFFE] = .ok (.dioWrrb [0] [some true]) := by decide

/-- E11. -/
theorem test_decode_spiBuild :
    decode [0x00000830, 1, 0x1000, 0x2000, 0, 0] = .ok (.spiBuild 1 8 0x1000 0x2000 0 0) := by
  decide

/-- E4 to E8, E10, E17: the malformed commands. -/
theorem test_decode_malformed :
    decode [] = .error .empty ∧
    decode [0x00000003, 0, 0] = .error .unknownOpcode ∧
    decode [0x01000010, 0] = .error .reservedBits ∧
    decode [0x00000110, 0] = .error .fieldANotZero ∧
    decode [0x00000010, 2, 4] = .error .wrongLength ∧
    decode [0x00000010] = .error .tooShort ∧
    decode [0x00010330, 3, 0x1000, 0x2000, 0, 0x0007A120] = .error .fieldBNotZero ∧
    decode [0x00000402, 0, 1, 2, 7] = .error .wrongLength := by decide

/-- The lengths are summed in the naturals: two counts of `2^31` do not wrap to 0 (R104). -/
theorem test_decode_no_wrap :
    decode [0x00000011, 0x80000000, 0x80000000] = .error .wrongLength := by decide

theorem test_encode_dioWrrb :
    encode (.dioWrrb [3, 35] [some true, some false]) =
      [0x00000021, 2, 2, 3, 0x23, 1, 0] := by decide

/-- The pseudo-operations of R106. -/
theorem test_pseudo_operations :
    Instr.dioPeek [3, 4] = .dioWrrb [3, 4] [none, none] ∧
    Instr.dioHigh [3, 4] = .dioWrrb [3, 4] [some true, some true] ∧
    Instr.dioLow [3, 4] = .dioWrrb [3, 4] [some false, some false] ∧
    Instr.fselSet1 4 1 = .fselSet [4] [1] ∧
    encode (.rawRead32 0x34) = [0x00000401, 0x34, 1] ∧
    encode (.rawWrite32 0x34 5) = [0x00000402, 0x34, 1, 1, 5] := by decide

theorem test_decodeTableWord :
    decodeTableWord 32 0x30 = some (.spiBuild 0 0 0 0 0 0) ∧
    decodeTableWord 32 0x10 = some (.fselGet []) ∧
    decodeTableWord 192 (0x30 + 0x300 + 5 * 2 ^ 32) = some (.spiBuild 5 3 0 0 0 0) ∧
    decodeTableWord 32 0x03 = none := by decide

/-- 10_state.md R35: the mapping is not monotonic. -/
theorem test_function_codes :
    FunctionCode.input.code = 0 ∧ FunctionCode.output.code = 1 ∧ FunctionCode.alt5.code = 2 ∧
    FunctionCode.alt4.code = 3 ∧ FunctionCode.alt0.code = 4 ∧ FunctionCode.alt1.code = 5 ∧
    FunctionCode.alt2.code = 6 ∧ FunctionCode.alt3.code = 7 := by decide

/-- R105. -/
theorem test_text :
    commandText (.rawRead 0x34 1 4 0) = "RAW.READ 52, 1, 4, NATIVE".toList ∧
    commandText (.dioWrrb [7] [none]) = "DIO.WRRB [7], [-]".toList ∧
    responseText (errorResponse .arityMismatch 1) = "-> ArityMismatch(1)".toList := by decide

/-! ### One command at a time (95_test_vectors.md) -/

/-- A4. -/
theorem test_rawRead_big_tag :
    observed (exec (.rawRead 0x34 2 2 1) (memBankWith [(0x34, 5)])) =
      some ([0, 2, 0x0500, 0x0000], [R 0x34 .w2 0x0005, R 0x36 .w2 0]) := by decide +kernel

/-- A11: the native order is big; bytes `11 22 33 44` at `0x40`. -/
theorem test_rawRead_big_native :
    observed (exec (.rawRead 0x42 1 2 0) (bigEndian (memBankWith [(0x40, 0x44332211)]))) =
      some ([0, 1, 0x3344], [R 0x42 .w2 0x3344]) := by decide +kernel

/-- A15: the values run out at element 2; the two writes stay. -/
theorem test_rawWrite_prefix :
    observed (exec (.rawWrite 0x40 3 2 1 [0x1234, 0xBEEF]) memBank) =
      some ([4, 0], [W 0x40 .w2 0x3412, W 0x42 .w2 0xEFBE]) ∧
    (nextOf (exec (.rawWrite 0x40 3 2 1 [0x1234, 0xBEEF]) memBank)).map
      (fun t => t.mem.bytesAt 0x40 4) = some [0x12, 0x34, 0xBE, 0xEF] := by decide +kernel

/-- A44: lane 1 of `SET0`, in both native orders. -/
theorem test_rawWrite_narrow_set :
    (nextOf (exec (.rawWrite 0x1D 1 1 0 [1])
      (gpioBank #v[0x249, 0, 0, 0, 0, 0] #v[0, 0] false))).map State.outv =
        some #v[0x00000100, 0] ∧
    (nextOf (exec (.rawWrite 0x1D 1 1 0 [1])
      (bigEndian (gpioBank #v[0x249, 0, 0, 0, 0, 0] #v[0, 0] false)))).map State.outv =
        some #v[0x00010000, 0] := by decide +kernel

/-- F1. -/
theorem test_fselGet :
    observed (exec (.fselGet [4, 17, 0]) (memBankWith [(0, 0x00001000), (4, 0x00800000)])) =
      some ([0, 3, 1, 4, 0], [R 0x00 .w4 0x00001000, R 0x04 .w4 0x00800000, R 0x08 .w4 0,
        R 0x0C .w4 0, R 0x10 .w4 0, R 0x14 .w4 0]) := by decide +kernel

/-- The codes of F4 on a GPIO-kind bank, with the values F3 leaves. -/
theorem test_fselGet_gpio :
    (observed (exec (.fselGet [0, 9, 53, 1, 52, 50])
      (gpioBank #v[0xC7FFFFF8, 0, 0, 0, 0, 0xFFFFF1FF] #v[0, 0] false))).map Prod.fst =
        some [0, 6, 0, 0, 0, 7, 7, 7] := by decide +kernel

/-- F3: bits 31:30 are kept and registers 1 to 4 are not accessed. -/
theorem test_fselSet_keeps_other_bits :
    observed (exec (.fselSet [0, 9, 53] [0, 0, 0])
      (memBankWith [(0, 0xFFFFFFFF), (0x14, 0xFFFFFFFF)])) =
      some ([0, 0], [R 0x00 .w4 0xFFFFFFFF, W 0x00 .w4 0xC7FFFFF8, R 0x14 .w4 0xFFFFFFFF,
        W 0x14 .w4 0xFFFFF1FF]) := by decide +kernel

/-- F5: a repeated pin ORs its codes. -/
theorem test_fselSet_repeated_pin :
    observed (exec (.fselSet [4, 4] [1, 4]) (memBankWith [(0, 0x12340678)])) =
      some ([0, 0], [R 0x00 .w4 0x12340678, W 0x00 .w4 0x12345678]) := by decide +kernel

/-- D2. -/
theorem test_dioRead :
    observed (exec (.dioRead [31, 32, 53, 0, 52, 31])
      (memBankWith [(0x34, 0x80000001), (0x38, 0x00200001)])) =
      some ([0, 6, 1, 1, 1, 1, 0, 1], [R 0x34 .w4 0x80000001, R 0x38 .w4 0x00200001]) := by
  decide +kernel

/-- D13. -/
theorem test_dioRead_invalid_pin :
    observed (exec (.dioRead [0, 54]) memBank) = some ([1, 0], []) := by decide +kernel

/-- D5: all four writes, set before clear; the results are the prior levels. -/
theorem test_dioWrrb :
    observed (exec (.dioWrrb [0, 1, 31, 32, 53, 7]
        [some true, some false, some true, some true, some false, none])
      (memBankWith [(0x34, 0x00000002), (0x38, 0x00200000)])) =
      some ([0, 6, 0, 1, 0, 0, 1, 0], [R 0x34 .w4 0x00000002, R 0x38 .w4 0x00200000,
        W 0x1C .w4 0x80000001, W 0x20 .w4 0x00000001, W 0x28 .w4 0x00000002,
        W 0x2C .w4 0x00200000]) := by decide +kernel

/-- D6: the reads have been made, no write is. -/
theorem test_dioWrrb_arity :
    observed (exec (.dioWrrb [1, 2, 3] [some true, some false]) memBank) =
      some ([3, 0], [R 0x34 .w4 0, R 0x38 .w4 0]) := by decide +kernel

/-- T12: the second pointers wrap. -/
theorem test_spiBuild_wraps :
    observed (exec (.spiBuild 0xFFFFFFFF 1 0x1000 0x2000 10 500000) memBank) =
      some ([0, 12, 0x1000, 0x2000, 0xFFFFFFFE, 8, 10, 500000,
        0x00000FFE, 0x00001FFE, 1, 1, 10, 500000], []) := by decide +kernel

/-- T3: `extra_bits` is tested before the length. -/
theorem test_spiBuild_extra :
    observed (exec (.spiBuild 0 9 0x1000 0x2000 10 500000) memBank) = some ([5, 0], []) := by
  decide +kernel

/-- E17 at the command port: a malformed command. -/
theorem test_step_malformed :
    observed (step (memBank.holdCommand [0x00000402, 0, 1, 2, 7])) = some ([5, 0], []) := by
  decide +kernel

/-- A table row's command runs as the first one after reset. -/
theorem test_withFetchWord :
    observed (step (State.reset.withFetchWord 32 0x30)) = some ([0, 0], []) := by decide +kernel

/-- Row 2 of P2: the loopback law on the pins' bits, whatever the oracle draws elsewhere. -/
theorem test_loopback :
    let s := gpioBank #v[0x200, 0, 0, 0x8000, 0, 0] #v[0, 8] true
    (s.levelValue 0 s.drawn.1).getLsbD 3 = false ∧
      (s.levelValue 1 s.drawn.1).getLsbD 3 = true := by
  simp only [State.levelValue, BitVec.getLsbD_ofFnLE]
  decide +kernel

/-! ### Witnesses: for every obligation with hypotheses, a state and operands that meet them,
at the boundary values of each clause -/

/-- A check of every element of a list, as a statement about its members. -/
theorem forall_of_all {α : Type} {l : List α} {p : α → Prop} [DecidablePred p]
    (h : l.all (fun x => decide (p x)) = true) : ∀ x ∈ l, p x := by
  simpa using h

/-- A check of some element of a list, as a statement about its members. -/
theorem exists_of_any {α : Type} {l : List α} {p : α → Prop} [DecidablePred p]
    (h : l.any (fun x => decide (p x)) = true) : ∃ x ∈ l, p x := by
  simpa using h

/-- A check of the next state, as an existence statement. -/
theorem next_of_any {o : Host.Outcome State Fault Refusal} {p : State → Bool}
    (h : (nextOf o).any p = true) : ∃ t, o = .next t ∧ p t = true := by
  cases o with
  | next t => exact ⟨t, rfl, h⟩
  | fault f => cases h
  | refused r => cases h

/-- There is a next state. -/
theorem next_of_isSome {o : Host.Outcome State Fault Refusal}
    (h : (nextOf o).isSome = true) : ∃ t, o = .next t := by
  cases o with
  | next t => exact ⟨t, rfl⟩
  | fault f => cases h
  | refused r => cases h

/-- No environment write is to come. -/
theorem excl_of_env_nil {s : State} (n : Nat) (h : s.env = []) : s.Excl n := by
  simp [State.Excl, h]

/-- Another agent writes `FSEL0` before the next access and again after the `n` accesses that
follow it. -/
def shared (n : Nat) (s : State) : State :=
  { s with env := [{ addr := 0, width := .w4, value := 0x3F }] :: (List.replicate n [] ++
      [[{ addr := 0, width := .w4, value := 0x11 }]]) }

/-- `EXCL` allows what another agent writes before the first access and after the last. -/
theorem shared_excl (n : Nat) (s : State) : (shared n s).Excl (n + 1) := by
  intro gap h
  simp only [shared, List.take_succ_cons, List.tail_cons] at h
  rw [List.take_left' (by simp)] at h
  exact List.eq_of_mem_replicate h

/-- `EXCL` forbids a write between the first access and the last. -/
theorem test_not_excl : ¬ (shared 1 memBank).Excl 3 := by
  simp only [State.Excl]
  decide

/-- A GPIO-kind bank whose pins 3 and 35 are outputs. -/
def gpioOut : State := gpioBank #v[0x200, 0, 0, 0x8000, 0, 0] #v[0, 8] true

/-- What `Malformed` says of a command whose opcode is known. -/
theorem malformed_cons {h : Word} {body : List Word} (op : Opcode)
    (ho : opcodeOf (fieldOpc h) = some op) :
    Malformed (h :: body) ↔
      fieldRsv h ≠ 0 ∨ (op.zeroA ∧ fieldA h ≠ 0) ∨ (op.zeroB ∧ fieldB h ≠ 0) ∨
        requiredLength op (h :: body) ≠ some (h :: body).length := by
  simp only [Malformed, ho]

theorem witness_DecodeReadsBackEncode :
    (Instr.rawRead 0xFFFFFFFF 0xFFFFFFFF 0xFF 0x80).wellFormed = true ∧
    (Instr.rawWrite 0 0 0 0 [0xFFFFFFFF]).wellFormed = true ∧
    (Instr.fselGet []).wellFormed = true ∧ (Instr.fselSet [1] []).wellFormed = true ∧
    (Instr.dioRead [0xFFFFFFFF]).wellFormed = true ∧
    (Instr.dioWrrb [] [none, some true, some false]).wellFormed = true ∧
    (Instr.spiBuild 0 0xFF 0 0 0 0).wellFormed = true := by decide

theorem witness_EncodeWritesBackDecode :
    decode [0x00000021, 1, 4, 9, 0xFFFFFFFF, 0, 1, 2] =
      .ok (.dioWrrb [9] [none, some false, some true, some true]) ∧
    decode [0x00000021, 0, 1, 0xFFFFFFFE] = .ok (.dioWrrb [] [some true]) ∧
    decode [0x00000010, 0] = .ok (.fselGet []) ∧
    (∀ pins values, Instr.fselGet [] ≠ .dioWrrb pins values) := by
  refine ⟨by decide, by decide, by decide, ?_⟩
  intro pins values h
  cases h

/-- Each clause of R103 is met by some command, and one command meets none. -/
theorem witness_DecoderRefusesExactlyMalformed :
    Malformed [] ∧ Malformed [0x00000003] ∧ Malformed [0x01000010, 0] ∧
    Malformed [0x00000110, 0] ∧ Malformed [0x00010330, 3, 0, 0, 0, 0] ∧
    Malformed [0x00000010] ∧ Malformed [0x00000402, 0, 1, 2, 7] ∧
    ¬ Malformed [0x00000010, 0] := by
  refine ⟨trivial, trivial, ?_, ?_, ?_, ?_, ?_, ?_⟩
  · rw [malformed_cons .fselGet rfl]; decide
  · rw [malformed_cons .fselGet rfl]; decide
  · rw [malformed_cons .spiBuild rfl]; decide
  · rw [malformed_cons .fselGet rfl]; decide
  · rw [malformed_cons .rawWrite rfl]; decide
  · rw [malformed_cons .fselGet rfl]; decide

theorem witness_MalformedCommandRaisesInvalidArgument :
    let s := memBank.holdCommand [0x01000010, 0]
    s.seq = .busy ∧ Malformed s.cmd := by
  refine ⟨rfl, ?_⟩
  show Malformed [0x01000010, 0]
  rw [malformed_cons .fselGet rfl]
  decide

theorem witness_StepRunsDecodedCommand :
    let s := memBank.holdCommand [0x00000010, 0]
    s.seq = .busy ∧ decode s.cmd = .ok (.fselGet []) ∧
      (Instr.fselGet []).wellFormed = true := by decide

/-- A state in IDLE with something on the command port, and one with nothing. -/
theorem witness_IdleAcceptsOneCommand :
    let s := { State.reset with inbox := [.command [0x00000010, 0], .reset] }
    (s.seq = .idle ∧ s.inbox = .command [0x00000010, 0] :: [.reset]) ∧
      (State.reset.seq = .idle ∧ State.reset.inbox = []) := ⟨⟨rfl, rfl⟩, rfl, rfl⟩

theorem witness_ResetEventLeavesBankUntouched :
    let s := { State.reset with inbox := [.reset] }
    s.seq = .idle ∧ s.inbox = .reset :: [] := ⟨rfl, rfl⟩

theorem witness_BusyStepEndsWithOneResponse :
    memBank.seq = .busy ∧ ∃ t, step memBank = .next t :=
  ⟨rfl, next_of_isSome (by decide)⟩

theorem witness_WorkingRegistersCarryNothingOver :
    ∃ t, exec (.dioRead []) memBank = .next t := next_of_isSome (by decide)

theorem witness_StepKeepsParameters : ∃ t, step State.reset = .next t :=
  next_of_isSome (by decide)

theorem witness_StepKeepsInvariant : memBank.Inv ∧ ∃ t, step memBank = .next t := by
  refine ⟨⟨by decide, ?_, ?_, ?_⟩, next_of_isSome (by decide)⟩
  · unfold State.memInBank
    decide
  · unfold State.latchValid
    decide
  · intro h
    cases h

/-- Four reads in the last bytes of the bank. -/
theorem witness_EveryAccessIsInBankAndAligned :
    ∃ t, exec (.rawRead 0xFFC 4 1 0) memBank = .next t :=
  next_of_isSome (by decide)

/-- A read and a write with another agent's write before the first and after the last of them. -/
theorem witness_BankIsWhatTracedAccessesLeave :
    ∃ t, exec (.fselSet [53] [7]) (shared 1 gpioOut) = .next t := next_of_isSome (by decide)

/-- Each raw refusal is met, and none where its condition just fails. -/
theorem witness_RawRefusedExactlyOutsideTheContract :
    refusalOf (exec (.rawRead 2 1 4 0) memBank) = some .misaligned ∧
    refusalOf (exec (.rawRead 2 1 2 0) memBank) = none ∧
    refusalOf (exec (.rawWrite 1 1 2 0 [0x10000]) memBank) = some .misaligned ∧
    refusalOf (exec (.rawWrite 0 1 1 0 [0x100]) memBank) = some .valueTooWide ∧
    refusalOf (exec (.rawWrite 0 1 1 0 [0xFF, 0x100]) memBank) = none := by decide +kernel

/-- One byte short of the pin units' span, and exactly it. -/
theorem witness_PinCommandsRefusedExactlyOnSmallBanks :
    refusalOf (exec (.fselGet [99]) (sized 0x3B memBank)) = some .bankTooSmall ∧
    refusalOf (exec (.dioWrrb [] []) (sized 0x3C memBank)) = none := by decide +kernel

theorem witness_BswapReversesBytes :
    (0xFF : Word).toNat < 2 ^ (8 * AccessWidth.w1.bytes) ∧
    (0xFFFF : Word).toNat < 2 ^ (8 * AccessWidth.w2.bytes) ∧
    (0xFFFFFFFF : Word).toNat < 2 ^ (8 * AccessWidth.w4.bytes) := by decide

theorem witness_MemWriteThenMemRead :
    memBank.cfg.kind = .mem ∧ (0xFFFF : Word).toNat < 2 ^ (8 * AccessWidth.w2.bytes) := by
  decide

theorem witness_ReadsHaveNoSideEffect :
    ∃ v t, memRead 0x34 .w4 (shared 0 gpioOut) = .ok v t := ⟨_, _, rfl⟩

/-- The top lane of the last function-select register, and lanes of a set and a clear register. -/
theorem witness_NarrowAccessesActOnLanes :
    gpioOut.cfg.kind = .gpio ∧ (∀ base ∈ [0x14, 0x20, 0x2C, 0x38], base ∈
      [0x00, 0x04, 0x08, 0x0C, 0x10, 0x14, 0x1C, 0x20, 0x28, 0x2C, 0x34, 0x38]) ∧
    3 % AccessWidth.w1.bytes = 0 ∧
    3 + AccessWidth.w1.bytes ≤ 4 ∧ (0xFF : Word).toNat < 2 ^ (8 * AccessWidth.w1.bytes) ∧
    0x14 = fselOffset 5 ∧ 0x20 = setOffset 1 ∧ 0x2C = clrOffset 1 ∧
    2 % AccessWidth.w2.bytes = 0 ∧ 2 + AccessWidth.w2.bytes ≤ 4 := by decide

/-- Pin 3 meets the law; bit 22 of register 1 belongs to no pin, bit 0 of register 0 to a pin
that is not an output. -/
theorem witness_LoopbackLaw :
    (gpioOut.cfg.kind = .gpio ∧ bitReg 3 = 0 ∧ gpioOut.cfg.loopback = true ∧
      (gpioOut.fselv[fselReg 3] >>> (3 * ((3 : Pin).val % 10))) &&& 7 = 1) ∧
    (∀ p : Pin, bitReg p = 1 → p.val % 32 = 22 → gpioOut.cfg.loopback = true →
      (gpioOut.fselv[fselReg p] >>> (3 * (p.val % 10))) &&& 7 ≠ 1) ∧
    (∀ p : Pin, bitReg p = 0 → p.val % 32 = 0 → gpioOut.cfg.loopback = true →
      (gpioOut.fselv[fselReg p] >>> (3 * (p.val % 10))) &&& 7 ≠ 1) := by
  decide

theorem witness_RawIllegalArgumentRaises :
    ¬ LegalRawArgs 3 0 ∧ ¬ LegalRawArgs 0 0 ∧ ¬ LegalRawArgs 8 0 ∧ ¬ LegalRawArgs 4 2 ∧
    ¬ LegalRawArgs 1 0xFE := by
  simp only [LegalRawArgs]
  decide

/-- A22, A21 and the write of R130, each one byte past what is legal. -/
theorem witness_RawOutOfBoundsRaises :
    let s := sized 0x42 memBank;
    (¬ ((0x42 : Word).toNat < s.cfg.bankSize ∧
      AccessWidth.w1.bytes * (0 : Word).toNat ≤ s.cfg.bankSize - (0x42 : Word).toNat)) ∧
    (¬ ((0x41 : Word).toNat < s.cfg.bankSize ∧
      AccessWidth.w1.bytes * (2 : Word).toNat ≤ s.cfg.bankSize - (0x41 : Word).toNat)) ∧
    (¬ ((0x40 : Word).toNat < s.cfg.bankSize ∧
      AccessWidth.w4.bytes ≤ s.cfg.bankSize - (0x40 : Word).toNat)) := by decide

/-- The last legal span ends exactly at the bank's end; and no element at all. -/
theorem witness_RawReadCompletes :
    ((0xFF8 : Word).toNat < memBank.cfg.bankSize ∧
      AccessWidth.w4.bytes * (2 : Word).toNat ≤ memBank.cfg.bankSize - (0xFF8 : Word).toNat ∧
      (0xFF8 : Word).toNat % AccessWidth.w4.bytes = 0) ∧
    ((0xFFF : Word).toNat < memBank.cfg.bankSize ∧
      AccessWidth.w1.bytes * (0 : Word).toNat ≤ memBank.cfg.bankSize - (0xFFF : Word).toNat ∧
      (0xFFF : Word).toNat % AccessWidth.w1.bytes = 0) := by decide

theorem witness_RawReadReturnsBankBytes :
    let s := shared 1 memBank
    s.cfg.kind = .mem ∧ s.Excl (2 : Word).toNat ∧ (0xFFC : Word).toNat < s.cfg.bankSize ∧
      AccessWidth.w2.bytes * (2 : Word).toNat ≤ s.cfg.bankSize - (0xFFC : Word).toNat ∧
      (0xFFC : Word).toNat % AccessWidth.w2.bytes = 0 :=
  ⟨rfl, shared_excl 1 memBank, by decide⟩

/-- The span ends at the bank's end; the values are the widest, with one to spare. -/
theorem witness_RawWriteCompletes :
    (0xFFC : Word).toNat < memBank.cfg.bankSize ∧
    AccessWidth.w2.bytes ≤ memBank.cfg.bankSize - (0xFFC : Word).toNat ∧
    AccessWidth.w2.bytes * (2 : Word).toNat ≤ memBank.cfg.bankSize - (0xFFC : Word).toNat ∧
    (0xFFC : Word).toNat % AccessWidth.w2.bytes = 0 ∧
    (2 : Word).toNat ≤ ([0xFFFF, 0, 0x10000] : List Word).length ∧
    (∀ v ∈ ([0xFFFF, 0, 0x10000] : List Word).take (2 : Word).toNat,
      v.toNat < 2 ^ (8 * AccessWidth.w2.bytes)) :=
  ⟨by decide, by decide, by decide, by decide, by decide, forall_of_all (by decide)⟩

/-- A15, where the values run out, and A25, where the span leaves the bank. -/
theorem witness_RawWriteRaisesAfterPrefix :
    ((0x40 : Word).toNat < memBank.cfg.bankSize ∧
      AccessWidth.w2.bytes ≤ memBank.cfg.bankSize - (0x40 : Word).toNat ∧
      (0x40 : Word).toNat % AccessWidth.w2.bytes = 0 ∧
      (∀ v ∈ ([0x1234, 0xBEEF] : List Word).take (3 : Word).toNat,
        v.toNat < 2 ^ (8 * AccessWidth.w2.bytes)) ∧
      2 = min ([0x1234, 0xBEEF] : List Word).length
        ((memBank.cfg.bankSize - (0x40 : Word).toNat) / AccessWidth.w2.bytes) ∧
      2 < (3 : Word).toNat) ∧
    (let s := sized 0x40 memBank;
      (0x38 : Word).toNat < s.cfg.bankSize ∧
      AccessWidth.w4.bytes ≤ s.cfg.bankSize - (0x38 : Word).toNat ∧
      (0x38 : Word).toNat % AccessWidth.w4.bytes = 0 ∧
      (∀ v ∈ ([1, 2, 3] : List Word).take (3 : Word).toNat,
        v.toNat < 2 ^ (8 * AccessWidth.w4.bytes)) ∧
      2 = min ([1, 2, 3] : List Word).length
        ((s.cfg.bankSize - (0x38 : Word).toNat) / AccessWidth.w4.bytes) ∧
      2 < (3 : Word).toNat) :=
  ⟨⟨by decide, by decide, by decide, forall_of_all (by decide), by decide, by decide⟩,
    by decide, by decide, by decide, forall_of_all (by decide), by decide, by decide⟩

/-- The span leaves the bank after two elements of three. -/
theorem witness_RawWriteStoresElements :
    let s := shared 1 memBank
    s.cfg.kind = .mem ∧ s.Excl 2 ∧ (0xFFE : Word).toNat < s.cfg.bankSize ∧
    AccessWidth.w1.bytes ≤ s.cfg.bankSize - (0xFFE : Word).toNat ∧
    (0xFFE : Word).toNat % AccessWidth.w1.bytes = 0 ∧
    (∀ v ∈ ([1, 0xFF, 3] : List Word).take (3 : Word).toNat,
      v.toNat < 2 ^ (8 * AccessWidth.w1.bytes)) ∧
    2 = min (3 : Word).toNat (min ([1, 0xFF, 3] : List Word).length
      ((s.cfg.bankSize - (0xFFE : Word).toNat) / AccessWidth.w1.bytes)) :=
  ⟨rfl, shared_excl 1 memBank, by decide, by decide, by decide, forall_of_all (by decide),
    by decide⟩

/-- A14 and A16: a `BIG` write whose state the read finds at its first access. -/
theorem witness_RawReadAfterWrite :
    let s := shared 1 memBank
    s.cfg.kind = .mem ∧ s.Excl (2 : Word).toNat ∧
    ∃ t u : State, u.Excl (2 : Word).toNat ∧
      exec (.rawWrite 0x40 2 AccessWidth.w2.operand OrderTag.big.operand [0x1234, 0xBEEF])
        s = .next t ∧
      Ended s (okResponse []) t ∧ SameBank t (u.atFirstAccess (2 : Word).toNat) ∧
      u.cfg = t.cfg := by
  obtain ⟨t, ht, hp⟩ := next_of_any (p := fun t => t.cfg = memBank.cfg ∧
    t.seq = .idle ∧ t.cmd = [] ∧ t.inbox = memBank.inbox ∧
    t.outbox = memBank.outbox ++ [(okResponse []).words] ∧ t.work = WorkRegs.dropped)
    (o := exec (.rawWrite 0x40 2 AccessWidth.w2.operand OrderTag.big.operand [0x1234, 0xBEEF])
      (shared 1 memBank)) (by decide)
  simp only [decide_eq_true_eq] at hp
  obtain ⟨h2, h3, h4, h5, h6, h7⟩ := hp
  exact ⟨rfl, shared_excl 1 memBank, t, { t with env := [] }, excl_of_env_nil _ rfl, ht,
    ⟨h2, h3, h4, h5, h6, h7⟩, ⟨rfl, rfl, rfl⟩, rfl⟩

/-- The tag of the native order; and a `DIO.READ` that finds the bank as the write left it. -/
theorem witness_RawWriteIsReadByPinUnits :
    memBank.cfg.kind = .mem ∧ OrderTag.little.effective memBank.cfg.native = memBank.cfg.native ∧
    (0x34 : Word).toNat % 4 = 0 ∧
    (0x34 : Word).toNat + 4 ≤ memBank.cfg.bankSize ∧ 0x3C ≤ memBank.cfg.bankSize ∧
    (∀ p ∈ ([0, 31] : List Pin), p.val < 32) ∧ (0x34 : Word).toNat = 0x34 ∧
    ∃ t, exec (.rawWrite 0x34 1 4 OrderTag.little.operand [5]) memBank = .next t ∧
      ∃ u : State, u.cfg = t.cfg ∧ u.Excl 2 ∧ SameBank t u.envTurn := by
  obtain ⟨t, ht⟩ := next_of_isSome
    (o := exec (.rawWrite 0x34 1 4 OrderTag.little.operand [5]) memBank) (by decide)
  exact ⟨rfl, rfl, by decide, by decide, by decide, by decide, rfl, t, ht,
    { t with env := [] }, rfl, excl_of_env_nil _ rfl, rfl, rfl, rfl⟩

/-- The top byte of the last register, and its upper half, in a bank that ends there. -/
theorem witness_GpioFselIsStorage :
    let s := sized 0x18 (shared 0 gpioOut)
    s.cfg.kind = .gpio ∧ fselOffset 5 + 4 ≤ s.cfg.bankSize ∧
    (3 % AccessWidth.w1.bytes = 0 ∧ 3 + AccessWidth.w1.bytes ≤ 4 ∧
      (0xFF : Word).toNat < 2 ^ (8 * AccessWidth.w1.bytes)) ∧
    (2 % AccessWidth.w2.bytes = 0 ∧ 2 + AccessWidth.w2.bytes ≤ 4 ∧
      (0xFFFF : Word).toNat < 2 ^ (8 * AccessWidth.w2.bytes)) := by decide

theorem witness_GpioSetAndClearDriveLatch :
    let s := sized 0x3C (shared 0 gpioOut)
    s.cfg.kind = .gpio ∧ 0x3C ≤ s.cfg.bankSize ∧
    (3 % AccessWidth.w1.bytes = 0 ∧ 3 + AccessWidth.w1.bytes ≤ 4 ∧
      (0xFF : Word).toNat < 2 ^ (8 * AccessWidth.w1.bytes)) ∧
    (0 % AccessWidth.w4.bytes = 0 ∧ 0 + AccessWidth.w4.bytes ≤ 4 ∧
      (0xFFFFFFFF : Word).toNat < 2 ^ (8 * AccessWidth.w4.bytes)) := by decide

/-- Lanes of a level register, of an unnamed word below `0x3C`, and the last bytes of the bank. -/
theorem witness_GpioOtherOffsetsKeepNothing :
    gpioOut.cfg.kind = .gpio ∧ (0xFF : Word).toNat < 2 ^ (8 * AccessWidth.w1.bytes) ∧
    (∀ a ∈ ([0x1B, 0x34, 0x3B, 0x3C, 0xFFF] : List Word), a.toNat % AccessWidth.w1.bytes = 0 ∧
      a.toNat + AccessWidth.w1.bytes ≤ gpioOut.cfg.bankSize ∧
      (4 * (a.toNat / 4) ∈ [0x18, 0x24, 0x30, 0x34, 0x38] ∨ 0x3C ≤ a.toNat)) ∧
    (∀ a ∈ ([0x18, 0x1C, 0x2E, 0x32, 0x3C, 0xFFE] : List Word),
      a.toNat % AccessWidth.w2.bytes = 0 ∧
      a.toNat + AccessWidth.w2.bytes ≤ gpioOut.cfg.bankSize ∧
      (4 * (a.toNat / 4) ∈ [0x18, 0x1C, 0x20, 0x24, 0x28, 0x2C, 0x30] ∨ 0x3C ≤ a.toNat)) :=
  ⟨rfl, by decide, forall_of_all (by decide), forall_of_all (by decide)⟩

/-- The smallest bank the pin units take; the last pin of the list is the first invalid one. -/
theorem witness_InvalidPinRaisesBeforeAnyAccess :
    0x3C ≤ (sized 0x3C memBank).cfg.bankSize ∧ ∃ p ∈ ([3, 54] : List Word), 54 ≤ p.toNat :=
  ⟨by decide, exists_of_any (by decide)⟩

/-- For the statements whose only hypothesis is the pin units' bank size: `FselGetCompletes`,
`FselSetTouchesOnlyAffectedRegisters`, `DioReadCompletes`, `WorkedMasksAreExact`. -/
theorem witness_FselGetCompletes : 0x3C ≤ (sized 0x3C memBank).cfg.bankSize := by decide

theorem witness_FselSetTouchesOnlyAffectedRegisters :
    0x3C ≤ (sized 0x3C gpioOut).cfg.bankSize := by decide

theorem witness_DioReadCompletes : 0x3C ≤ (sized 0x3C gpioOut).cfg.bankSize := by decide

theorem witness_WorkedMasksAreExact : 0x3C ≤ (sized 0x3C memBank).cfg.bankSize := by decide

theorem witness_FselGetReturnsStandingCodes :
    0x3C ≤ (shared 5 memBank).cfg.bankSize ∧ (shared 5 memBank).Excl 6 :=
  ⟨by decide, shared_excl 5 memBank⟩

/-- Pins of two registers on either bank kind: four accesses. -/
theorem witness_FselSetCompletes :
    fselSetAccesses (([(4, 1), (53, 7)] : List (Pin × BitVec 3)).map Prod.fst) = 4 ∧
    0x3C ≤ (shared 3 gpioOut).cfg.bankSize ∧ (shared 3 gpioOut).Excl 4 ∧
    (shared 3 gpioOut).cfg.kind = .gpio ∧
    0x3C ≤ (shared 3 memBank).cfg.bankSize ∧ (shared 3 memBank).Excl 4 ∧
    (shared 3 memBank).cfg.kind = .mem :=
  ⟨by decide, by decide, shared_excl 3 gpioOut, rfl, by decide, shared_excl 3 memBank, rfl⟩

/-- A repeated pin and the last pin; bit 31 of `FSEL5` lies in no field of the batch. -/
theorem witness_FselSetLeavesOtherFields :
    0x3C ≤ (shared 3 gpioOut).cfg.bankSize ∧
    (shared 3 gpioOut).Excl (fselSetAccesses
      (([(4, 1), (4, 4), (53, 7)] : List (Pin × BitVec 3)).map Prod.fst)) ∧
    (∃ t, exec (.fselSet (([(4, 1), (4, 4), (53, 7)] : List (Pin × BitVec 3)).map
        fun pc => pinWord pc.1) (([(4, 1), (4, 4), (53, 7)] : List (Pin × BitVec 3)).map
        fun pc => codeWord pc.2)) (shared 3 gpioOut) = .next t) ∧
    (53 : Pin) ∈ ([(4, 1), (4, 4), (53, 7)] : List (Pin × BitVec 3)).map Prod.fst ∧
    (∀ p ∈ ([(4, 1), (4, 4), (53, 7)] : List (Pin × BitVec 3)).map Prod.fst,
      p.val / 10 = 5 → ¬ (3 * (p.val % 10) ≤ 31 ∧ 31 < 3 * (p.val % 10) + 3)) :=
  ⟨by decide, shared_excl 3 gpioOut, next_of_isSome (by decide), by decide, by decide⟩

/-- The `FSEL.GET` before, the `FSEL.SET`, and a state that its bank stands in. -/
theorem witness_FselRoundTripNoClobber :
    let g := shared 5 gpioOut
    let s := shared 1 gpioOut
    0x3C ≤ s.cfg.bankSize ∧ g.Excl 6 ∧ s.Excl 2 ∧ g.cfg = s.cfg ∧
    SameBank g.envTurn s.envTurn ∧
    ∃ t u : State, u.Excl 6 ∧ exec (.fselSet [pinWord 53] [codeWord 7]) s = .next t ∧
      SameBank t u.envTurn ∧ u.cfg = t.cfg := by
  obtain ⟨t, ht⟩ := next_of_isSome
    (o := exec (.fselSet [pinWord 53] [codeWord 7]) (shared 1 gpioOut)) (by decide)
  exact ⟨by decide, shared_excl 5 gpioOut, shared_excl 1 gpioOut, rfl, ⟨rfl, rfl, rfl⟩, t,
    { t with env := [] }, excl_of_env_nil _ rfl, ht, ⟨rfl, rfl, rfl⟩, rfl⟩

/-- S2's two batches, all three in `FSEL1`: two accesses each. -/
theorem witness_FselBatchEqualsSequence :
    let s := shared 1 gpioOut
    0x3C ≤ s.cfg.bankSize ∧
    s.Excl (fselSetAccesses ((([(10, 1)] : List (Pin × BitVec 3)) ++
      [(15, 2), (19, 3)]).map Prod.fst)) ∧
    s.Excl (fselSetAccesses (([(10, 1)] : List (Pin × BitVec 3)).map Prod.fst)) ∧
    (∀ a ∈ ([(10, 1)] : List (Pin × BitVec 3)),
      ∀ b ∈ ([(15, 2), (19, 3)] : List (Pin × BitVec 3)), a.1 ≠ b.1) ∧
    (∃ t, exec (.fselSet [10, 15, 19] [1, 2, 3]) s = .next t) ∧
    SameBank (s.atFirstAccess (fselSetAccesses ((([(10, 1)] : List (Pin × BitVec 3)) ++
        [(15, 2), (19, 3)]).map Prod.fst)))
      (s.atFirstAccess (fselSetAccesses (([(10, 1)] : List (Pin × BitVec 3)).map Prod.fst))) ∧
    ∃ t1 u : State, u.Excl (fselSetAccesses
        (([(15, 2), (19, 3)] : List (Pin × BitVec 3)).map Prod.fst)) ∧
      exec (.fselSet [10] [1]) s = .next t1 ∧
      SameBank t1 (u.atFirstAccess (fselSetAccesses
        (([(15, 2), (19, 3)] : List (Pin × BitVec 3)).map Prod.fst))) ∧ u.cfg = t1.cfg ∧
      ∃ t2, exec (.fselSet [15, 19] [2, 3]) u = .next t2 := by
  obtain ⟨t, ht, hp⟩ := next_of_any
    (p := fun t => (nextOf (exec (.fselSet [15, 19] [2, 3]) { t with env := [] })).isSome)
    (o := exec (.fselSet [10] [1]) (shared 1 gpioOut)) (by decide)
  obtain ⟨t2, ht2⟩ := next_of_isSome hp
  exact ⟨by decide, shared_excl 1 gpioOut, shared_excl 1 gpioOut, by decide +kernel,
    next_of_isSome (by decide), ⟨rfl, rfl, rfl⟩, t, { t with env := [] },
    excl_of_env_nil _ rfl, ht, ⟨rfl, rfl, rfl⟩, rfl, t2, ht2⟩

/-- F26: 8 is the first invalid code. -/
theorem witness_InvalidCodeRaises :
    0x3C ≤ memBank.cfg.bankSize ∧
    ∃ c ∈ ([1, 8] : List Word).take ([3, 4] : List Pin).length, 7 < c.toNat :=
  ⟨by decide, exists_of_any (by decide)⟩

/-- F31 and F25's kind: a code short; F27: a surplus code, not range-checked; D6 and D7. -/
theorem witness_ArityMismatchRaises :
    0x3C ≤ memBank.cfg.bankSize ∧
    ((∀ c ∈ ([7] : List Word).take ([3, 4] : List Pin).length, c.toNat ≤ 7) ∧
      ([7] : List Word).length < ([3, 4] : List Pin).length) ∧
    ((∀ c ∈ ([1, 8] : List Word).take ([3] : List Pin).length, c.toNat ≤ 7) ∧
      ([3] : List Pin).length < ([1, 8] : List Word).length) ∧
    ([some true, none] : List (Option Bool)).length < ([1, 2, 3] : List Pin).length ∧
    ([1] : List Pin).length < ([some true, some false] : List (Option Bool)).length :=
  ⟨by decide, ⟨forall_of_all (by decide), by decide⟩, ⟨forall_of_all (by decide), by decide⟩,
    by decide, by decide⟩

/-- Another agent writes `FSEL5` between the read and the write. -/
theorem witness_LostUpdateInFselSet :
    let s := { gpioOut with
      env := [[], [{ addr := 4 * ((53 : Pin).val / 10), width := .w4, value := 0xFFFFFFFF }]] }
    s.cfg.kind = .gpio ∧ 0x3C ≤ s.cfg.bankSize ∧
    s.env = [[], [{ addr := 4 * ((53 : Pin).val / 10), width := .w4, value := 0xFFFFFFFF }]] := by
  decide

theorem witness_FselLanesAreDisjoint : (52 : Pin) ≠ 53 := by decide

/-- D7: one value to spare; and as many as pins. -/
theorem witness_DioWrrbCompletes :
    0x3C ≤ memBank.cfg.bankSize ∧
    ([1] : List Pin).length ≤ ([some true, none] : List (Option Bool)).length ∧
    ([] : List Pin).length ≤ ([] : List (Option Bool)).length := by decide

/-- Another agent sets pin 1 after the two snapshot reads and clears it before the last access. -/
def otherPin : State :=
  { gpioOut with env :=
      [[], [], [{ addr := 0x1C, width := .w4, value := 2 }],
        [{ addr := 0x28, width := .w4, value := 2 }]] }

/-- D8's pin in both masks, so four accesses; the other agent spares its bit, and the batch gives
pin 1 no level. -/
theorem witness_DioWrrbIsAtomicPerBit :
    otherPin.cfg.kind = .gpio ∧ 0x3C ≤ otherPin.cfg.bankSize ∧
    ([9, 9, 1] : List Pin).length ≤ ([some true, some false, none] : List (Option Bool)).length ∧
    dioWrrbAccesses (([9, 9, 1] : List Pin).zip [some true, some false, none]) = 4 ∧
    otherPin.EnvSpares 4 9 ∧
    (∀ v, ((1 : Pin), some v) ∉ ([9, 9, 1] : List Pin).zip [some true, some false, none]) ∧
    (State.envTurns 3 otherPin).latchBit 1 = true := by
  refine ⟨rfl, by decide, by decide, by decide, ?_, by decide, by decide⟩
  intro gap hg e he x hx
  have hk : x.cfg.kind = .gpio := by rw [hx]; rfl
  simp only [otherPin, List.take_succ_cons, List.take_nil, List.mem_cons, List.not_mem_nil,
    or_false] at hg
  rcases hg with rfl | rfl | rfl | rfl
  · cases he
  · cases he
  · cases List.mem_singleton.mp he
    unfold State.envWrite
    split
    · simp [State.bankWrite, hk, gpioRegAt, State.gpioWrite, State.latchBit, State.setOutv,
        show bitReg 9 = 0 from rfl]
    · rfl
  · cases List.mem_singleton.mp he
    unfold State.envWrite
    split
    · simp [State.bankWrite, hk, gpioRegAt, State.gpioWrite, State.latchBit, State.setOutv,
        show bitReg 9 = 0 from rfl]
    · rfl

/-- Pins 3 and 35 are outputs under loopback; pin 53 is not. -/
theorem witness_DioLevelsFollowLoopback :
    let s := sized 0x3C (shared 1 gpioOut)
    s.cfg.kind = .gpio ∧ 0x3C ≤ s.cfg.bankSize ∧ s.Excl 2 ∧
    ([3, 35, 53] : List Pin).length ≤ ([none, none, some true] : List (Option Bool)).length :=
  ⟨rfl, by decide, shared_excl 1 (sized 0x3C gpioOut), by decide⟩

/-- D8: a pin in both masks, so two reads and two writes. -/
theorem witness_DioWrrbDrivesLatch :
    let s := shared 3 gpioOut
    s.cfg.kind = .gpio ∧
    s.Excl (dioWrrbAccesses (([9, 9] : List Pin).zip [some true, some false])) ∧
    0x3C ≤ s.cfg.bankSize ∧
    ([9, 9] : List Pin).length ≤ ([some true, some false] : List (Option Bool)).length :=
  ⟨rfl, shared_excl 3 gpioOut, by decide, by decide⟩

theorem witness_DioWrrbStoresMasks :
    let s := shared 3 memBank
    s.cfg.kind = .mem ∧
    s.Excl (dioWrrbAccesses (([9, 53] : List Pin).zip [some true, some false])) ∧
    0x3C ≤ s.cfg.bankSize ∧
    ([9, 53] : List Pin).length ≤ ([some true, some false] : List (Option Bool)).length ∧
    (batchLevelWrites (([9, 53] : List Pin).zip [some true, some false])) ≠ [] :=
  ⟨rfl, shared_excl 3 memBank, by decide⟩

/-- As many `absent` values as pins. -/
theorem witness_AllAbsentIsPureRead : ([4, 99] : List Word).length ≤ 2 := by decide

/-- The largest legal `extra_bits`. -/
theorem witness_SpiPlanTilesTheBuffer : (7 : Nat) ≤ 7 := by decide

end Sys2Proof.Tests
end

section
/-! PROOFS. One step of the block (10_state.md R21, R26) and reset (R37, R39): the equations of
`step` and of the command port, and all that a step can do, said once. -/

namespace Sys2Proof.Machine

/-! ### The command port -/

theorem portStep_of_empty {s : State} (h : s.inbox = []) : s.portStep = s := by
  simp only [State.portStep, h]

theorem portStep_of_command {s : State} {ws : List Word} {rest : List PortEvent}
    (h : s.inbox = .command ws :: rest) :
    s.portStep = { s with seq := .busy, cmd := ws, inbox := rest, trace := [] } := by
  simp only [State.portStep, h, State.accept, State.holdCommand]

@[simp] theorem portStep_cfg (s : State) : s.portStep.cfg = s.cfg := by
  unfold State.portStep
  split <;> rfl

/-! ### One step, by `SEQ` and by what the words decode to -/

theorem step_of_idle {s : State} (h : s.seq = .idle) : step s = .next s.portStep := by
  simp only [step, h]

theorem step_of_decoded {s : State} {i : Instr} (h : s.seq = .busy) (hd : decode s.cmd = .ok i) :
    step s = exec i s := by
  simp only [step, h, hd]

theorem step_of_malformed {s : State} {e : DecodeError} (h : s.seq = .busy)
    (hd : decode s.cmd = .error e) : step s = .next s.raiseMalformed := by
  simp only [step, h, hd]

/-- What pseudocode keeps of the control state. -/
theorem Reaches.sameControl {s t : State} (h : Reaches s t) : SameControl s t :=
  ⟨h.cfg, h.seq, h.cmd, h.inbox, h.outbox⟩

/-- All a BUSY step can do: its pseudocode reaches some state, and the block responds there. A
malformed command responds where it stands. -/
theorem busyStep_reaches {s t : State} (hs : s.seq = .busy) (h : step s = .next t) :
    ∃ u q, Reaches s u ∧ t = u.finish q := by
  cases hd : decode s.cmd with
  | ok i => exact exec_reaches (step_of_decoded hs hd ▸ h)
  | error e =>
    rw [step_of_malformed hs hd] at h
    cases h
    exact ⟨s, _, .refl s, rfl⟩

/-- Settles O7. -/
theorem stepRunsDecodedCommand : Obligations.StepRunsDecodedCommand :=
  fun _ _ hs hd _ => step_of_decoded hs hd

/-- Settles O8. -/
theorem idleAcceptsOneCommand : Obligations.IdleAcceptsOneCommand := by
  refine ⟨fun s ws rest hs hi => ?_, fun s hs hi => ?_⟩
  · rw [step_of_idle hs, portStep_of_command hi]
  · rw [step_of_idle hs, portStep_of_empty hi]

/-- Settles O10: whatever the pseudocode reached, the block responds there (`State.finish`). -/
theorem busyStepEndsWithOneResponse : Obligations.BusyStepEndsWithOneResponse := by
  intro s t hs h
  obtain ⟨u, q, hu, rfl⟩ := busyStep_reaches hs h
  exact ⟨q, hu.sameControl.ended q⟩

/-- Settles O12, by the two values of `SEQ`. -/
theorem stepKeepsParameters : Obligations.StepKeepsParameters := by
  intro s t h
  cases hs : s.seq with
  | idle =>
    rw [step_of_idle hs] at h
    cases h
    exact portStep_cfg s
  | busy =>
    obtain ⟨u, q, hu, rfl⟩ := busyStep_reaches hs h
    exact hu.cfg

/-! ### Reset -/

/-- No latch bit without a pin right after reset: register 0 has a pin at each bit, and the bits of
register 1 above its 22 pins are cut off (10_state.md R37). -/
theorem reset_latchValid : State.reset.latchValid := by
  intro r
  match r with
  | 0 =>
    show Config.startOutv 0 &&& ~~~(BitVec.allOnes 32) = 0
    simp
  | 1 =>
    show (Config.startOutv 1 &&& 0x003FFFFF) &&& ~~~(0x003FFFFF : Word) = 0
    rw [BitVec.and_assoc, BitVec.and_not_self]
    exact BitVec.and_zero

/-- Settles O14. -/
theorem resetHasInvariant : Obligations.ResetHasInvariant :=
  ⟨{ memCanonical := List.Pairwise.nil
     memInBank := fun _ h => absurd h List.not_mem_nil
     latchValid := reset_latchValid
     quietWhenIdle := fun _ => ⟨rfl, rfl⟩ }, rfl⟩

end Sys2Proof.Machine
end

section
/-! PROOFS. Where a pin's bits stand in the registers: its function-select field (10_state.md R36)
and its level under the loopback law (R40). -/

namespace Sys2Proof.Machine

/-! ### Function-select lanes -/

/-- Bit `i` of a pin's field mask: the field is the three bits from its shift on
(10_state.md R36). -/
theorem getLsbD_fieldMask (p : Pin) (i : Nat) :
    (fieldMask p).getLsbD i = decide (fselShift p ≤ i ∧ i < fselShift p + 3) := by
  have hs : fselShift p + 3 ≤ 32 := by unfold fselShift; omega
  have h7 : (7 : Word) = (BitVec.allOnes 3).setWidth 32 := rfl
  simp only [fieldMask, h7, BitVec.getLsbD_shiftLeft, BitVec.getLsbD_setWidth,
    BitVec.getLsbD_allOnes]
  simp only [← decide_not, ← Bool.decide_and]
  exact decide_eq_decide.mpr (by omega)

/-- Pins of one register have fields that do not overlap. -/
theorem fieldMask_and_fieldMask {p q : Pin} (hr : fselReg p = fselReg q) (hn : p ≠ q) :
    fieldMask p &&& fieldMask q = 0 := by
  have hr' : p.val / 10 = q.val / 10 := congrArg Fin.val hr
  have hn' : p.val ≠ q.val := fun h => hn (Fin.ext h)
  refine BitVec.eq_of_getLsbD_eq fun i _ => ?_
  have hp : fselShift p = 3 * (p.val % 10) := rfl
  have hq : fselShift q = 3 * (q.val % 10) := rfl
  simp only [BitVec.getLsbD_and, getLsbD_fieldMask, BitVec.ofNat_eq_ofNat,
    BitVec.getLsbD_zero, Bool.and_eq_false_imp, decide_eq_true_eq, decide_eq_false_iff_not]
  omega

/-- Ten fields of three bits: a field ends below bit 30. -/
theorem fieldMask_lt (p : Pin) : (fieldMask p).toNat < 2 ^ 30 := by
  refine Nat.lt_pow_two_of_testBit _ fun i hi => ?_
  have : fselShift p + 3 ≤ 30 := by unfold fselShift; omega
  have h : (fieldMask p).getLsbD i = false := by
    rw [getLsbD_fieldMask, decide_eq_false_iff_not]
    omega
  exact h

/-- Settles O48: pins of one register differ in their place in it. -/
theorem fselLanesAreDisjoint : Obligations.FselLanesAreDisjoint := by
  intro p q hn
  refine ⟨?_, fieldMask_lt p⟩
  by_cases hr : fselReg p = fselReg q
  · exact .inr (fieldMask_and_fieldMask hr hn)
  · exact .inl hr

/-! ### Loopback (10_state.md R40) -/

/-- Bit `b` of a register belongs to the pin that stands there. -/
theorem pinAtBit_of_pin {r : Fin 2} {p : Pin} (h : bitReg p = r) :
    pinAtBit r (p.val % 32) = some p := by
  subst h
  have hp : 32 * (p.val / 32) + p.val % 32 = p.val := Nat.div_add_mod _ _
  unfold pinAtBit bitReg
  simp only [hp, p.isLt, dite_true]

theorem pin_of_pinAtBit {r : Fin 2} {b : Nat} {p : Pin} (hb : b < 32)
    (h : pinAtBit r b = some p) : bitReg p = r ∧ p.val % 32 = b := by
  unfold pinAtBit at h
  split at h
  · cases h
    refine ⟨Fin.ext ?_, ?_⟩
    · simp only [bitReg]
      omega
    · simp only
      omega
  · cases h

/-- The field of a pin holds `OUT`, in the terms of the statements. -/
theorem pinIsOut_iff (s : State) (p : Pin) :
    s.pinIsOut p = true ↔ (s.fselv[fselReg p] >>> (3 * (p.val % 10))) &&& 7 = 1 := by
  simp only [State.pinIsOut, decide_eq_true_eq]
  rfl

/-- One bit of a level register, read from a GPIO-kind bank. -/
theorem peek_lev_bit {s : State} (hk : s.cfg.kind = .gpio) (r : Fin 2) {b : Nat} (hb : b < 32) :
    (s.peek (levOffset r) .w4).getLsbD b = s.levelBit r (Config.draw s.draws) b := by
  rw [State.peek, bankRead_lev hk r]
  simp [State.levelValue, hb]

/-- A bit tied by the loopback law. -/
theorem levelBit_tied {s : State} {p : Pin} (drawn : Word) (hl : s.cfg.loopback = true)
    (ho : s.pinIsOut p = true) :
    s.levelBit (bitReg p) drawn (p.val % 32) = s.outv[bitReg p].getLsbD (p.val % 32) := by
  simp [State.levelBit, pinAtBit_of_pin rfl, hl, ho]

/-- A bit that no output pin ties. -/
theorem levelBit_free {s : State} {r : Fin 2} {b : Nat} (drawn : Word)
    (h : ∀ p, pinAtBit r b = some p → s.cfg.loopback = true → ¬ s.pinIsOut p = true) :
    s.levelBit r drawn b = drawn.getLsbD b := by
  unfold State.levelBit
  split
  next p hp =>
    rw [if_neg]
    rw [Bool.and_eq_true]
    exact fun ⟨hl, ho⟩ => h p hp hl ho
  next => rfl

/-- Settles O24, by the bits of the level value: tied ones and drawn ones. -/
theorem loopbackLaw : Obligations.LoopbackLaw := by
  intro s r hk
  refine ⟨fun p hr hl ho => ?_, fun b hb hfree => ?_⟩
  · subst hr
    rw [peek_lev_bit hk _ (Nat.mod_lt _ (by decide))]
    exact levelBit_tied _ hl ((pinIsOut_iff s p).mpr ho)
  · rw [peek_lev_bit hk r hb]
    refine levelBit_free _ fun p hp hl ho => ?_
    obtain ⟨hr, hpb⟩ := pin_of_pinAtBit hb hp
    exact hfree p hr hpb hl ((pinIsOut_iff s p).mp ho)

end Sys2Proof.Machine
end

section
/-! PROOFS. No operation reads what an earlier one left in a working register (10_state.md R23):
run from two states that differ in the working registers alone, its pseudocode does the same, and
the registers it has written itself hold the same. -/

namespace Sys2Proof.Machine

/-! ### Pseudocode that does not look at the working registers at all -/

/-- A result with other working registers in its state. -/
def withWork {α : Type} (left : WorkRegs) :
    EStateM.Result Stop State α → EStateM.Result Stop State α
  | .ok a t => .ok a { t with work := left }
  | .error e t => .error e { t with work := left }

/-- Pseudocode that neither reads nor changes the working registers. -/
structure Op.Blind {α : Type} (x : Op α) : Prop where
  blind : ∀ (s : State) (left : WorkRegs), x { s with work := left } = withWork left (x s)
  keeps : ∀ s : State, (finalState (x s)).work = s.work

theorem Op.Blind.pure {α : Type} (a : α) : Op.Blind (Pure.pure a : Op α) :=
  ⟨fun _ _ => rfl, fun _ => rfl⟩

theorem Op.Blind.raiseErr {α : Type} (e : Err) (info : BitVec 8) :
    Op.Blind (raiseErr e info : Op α) :=
  ⟨fun _ _ => rfl, fun _ => rfl⟩

theorem Op.Blind.refuse {α : Type} (r : Refusal) : Op.Blind (refuse r : Op α) :=
  ⟨fun _ _ => rfl, fun _ => rfl⟩

theorem Op.Blind.ite {α : Type} {c : Prop} [Decidable c] {x y : Op α} (hx : Op.Blind x)
    (hy : Op.Blind y) : Op.Blind (if c then x else y) := by
  split
  · exact hx
  · exact hy

theorem Op.Blind.requirePinBank : Op.Blind requirePinBank := by
  constructor <;> intro s <;> by_cases hb : 0x3C ≤ s.cfg.bankSize
  · intro left
    rw [requirePinBank_ok hb, requirePinBank_ok (s := { s with work := left }) hb]
    rfl
  · intro left
    rw [requirePinBank_refuse hb, requirePinBank_refuse (s := { s with work := left }) hb]
    rfl
  · rw [requirePinBank_ok hb]
    rfl
  · rw [requirePinBank_refuse hb]
    rfl

theorem checkRawArgs_blind (width : Word) (order : BitVec 8) :
    Op.Blind (checkRawArgs width order) := by
  unfold checkRawArgs
  split
  · exact .pure _
  · exact .raiseErr _ _

theorem checkBounds_blind (b : Bool) : Op.Blind (checkBounds b) :=
  .ite (.pure _) (.raiseErr _ _)

theorem admitIf_blind (r : Refusal) (b : Bool) : Op.Blind (Machine.admitIf r b) :=
  .ite (.pure _) (.refuse _)

theorem checkExtraBits_blind (e : BitVec 8) : Op.Blind (checkExtraBits e) :=
  .ite (.raiseErr _ _) (.pure _)

theorem checkPins_blind (pins : List Word) : Op.Blind (checkPins pins) := by
  unfold checkPins
  split
  · exact .pure _
  · exact .raiseErr _ _

theorem bankRead_work (s : State) (x : WorkRegs) (a : Nat) (w : AccessWidth) :
    ({ s with work := x }).bankRead a w =
      ((s.bankRead a w).1, { (s.bankRead a w).2 with work := x }) := by
  unfold State.bankRead
  dsimp only
  split
  · rfl
  · unfold State.gpioRead
    split <;> rfl

theorem memRead_blind (addr : Nat) (w : AccessWidth) : Op.Blind (memRead addr w) where
  blind s left := by
    simp only [memRead, State.inBank, envTurn_work, bankRead_work]
    by_cases hb : addr + w.bytes ≤ s.cfg.bankSize
    · cases ha : aligned addr w <;> simp [hb, withWork, State.record]
    · simp [hb, withWork]
  keeps s := by
    rcases memRead_cases s addr w with ⟨-, -, h⟩ | ⟨-, f, h⟩ <;> rw [h] <;> simp [finalState]

theorem memWrite_blind (addr : Nat) (w : AccessWidth) (v : Word) :
    Op.Blind (memWrite addr w v) where
  blind s left := by
    simp only [memWrite, State.inBank, envTurn_work, bankWrite_work]
    by_cases hb : addr + w.bytes ≤ s.cfg.bankSize
    · cases ha : aligned addr w <;> simp [hb, withWork, State.record]
    · simp [hb, withWork]
  keeps s := by
    rcases memWrite_cases s addr w v with ⟨-, -, h⟩ | ⟨-, f, h⟩ <;> rw [h] <;> simp [finalState]

/-! ### Pseudocode run from two contents of the working registers -/

/-- From contents of the working registers related by `R` the pseudocode answers or stops the same;
where it answers, what they hold then is related by `R'`. -/
def Op.Carries {α : Type} (R R' : WorkRegs → WorkRegs → Prop) (x : Op α) : Prop :=
  ∀ (s : State) (left : WorkRegs), R s.work left →
    (∀ a t, x s = .ok a t →
      ∃ left', x { s with work := left } = .ok a { t with work := left' } ∧ R' t.work left') ∧
    (∀ e t, x s = .error e t →
      ∃ left', x { s with work := left } = .error e { t with work := left' })

section Carries

variable {α β : Type} {R R' R'' : WorkRegs → WorkRegs → Prop}

theorem Op.Blind.carries {x : Op α} (hx : Op.Blind x) : Op.Carries R R x := by
  intro s left hR
  have hk := hx.keeps s
  rw [hx.blind s left]
  constructor
  · intro a t h
    rw [h] at hk ⊢
    exact ⟨left, rfl, hk ▸ hR⟩
  · intro e t h
    rw [h]
    exact ⟨left, rfl⟩

theorem Op.Carries.bind {x : Op α} {f : α → Op β} (hx : Op.Carries R R' x)
    (hf : ∀ a, Op.Carries R' R'' (f a)) : Op.Carries R R'' (x >>= f) := by
  intro s left hR
  constructor
  · intro b u h
    obtain ⟨a, t, h1, h2⟩ := Op.of_bind_ok h
    obtain ⟨left', h1', hR'⟩ := (hx s left hR).1 a t h1
    rw [Op.bind_ok h1']
    exact (hf a t left' hR').1 b u h2
  · intro e u h
    rcases Op.of_bind_error h with h | ⟨a, t, h1, h2⟩
    · obtain ⟨left', h'⟩ := (hx s left hR).2 e u h
      exact ⟨left', Op.bind_error h'⟩
    · obtain ⟨left', h1', hR'⟩ := (hx s left hR).1 a t h1
      rw [Op.bind_ok h1']
      exact (hf a t left' hR').2 e u h2

theorem Op.Carries.raiseErr (e : Err) (info : BitVec 8) :
    Op.Carries R R' (raiseErr e info : Op α) := by
  intro s left _
  constructor
  · intro a t h
    cases h
  · intro e t h
    cases h
    exact ⟨left, rfl⟩

/-- A change of the working registers that looks at nothing but them and the configuration. -/
theorem Op.Carries.update {f : State → State} (g : Params → WorkRegs → WorkRegs)
    (hf : ∀ s, f s = { s with work := g s.cfg s.work })
    (hg : ∀ c a b, R a b → R' (g c a) (g c b)) : Op.Carries R R' (update f) := by
  intro s left hR
  constructor
  · intro a t h
    simp only [update_run, hf] at h ⊢
    cases h
    exact ⟨_, rfl, hg _ _ _ hR⟩
  · intro e t h
    cases h

/-- Pseudocode that reads, of the working registers, only what `R` relates. -/
theorem Op.Carries.readState {f : State → Op α} (hf : ∀ s, Op.Carries R R' (f s))
    (hc : ∀ (s : State) (left : WorkRegs), R s.work left → f { s with work := left } = f s) :
    Op.Carries R R' (readState >>= f) := by
  intro s left hR
  have hrun : (Machine.readState >>= f) { s with work := left } = f s { s with work := left } := by
    rw [Op.bind_ok (readState_run _), hc s left hR]
  rw [hrun]
  exact hf s s left hR

theorem Op.Carries.ite {c : Prop} [Decidable c] {x y : Op α} (hx : Op.Carries R R' x)
    (hy : Op.Carries R R' y) : Op.Carries R R' (if c then x else y) := by
  split
  · exact hx
  · exact hy

/-- The end of an operation that answers with `RES`. -/
theorem readResults_carries (hR : ∀ a b, R a b → a.res = b.res) :
    Op.Carries R R (do return (← readState).work.res) :=
  .readState (fun _ => (Op.Blind.pure _).carries) fun _ _ h => by rw [hR _ _ h]

/-- The response drops the working registers, so related contents give the same outcome. -/
theorem runOp_carries {op : Op (List Word)} (hop : Op.Carries R R' op) {s : State}
    {left : WorkRegs} (hR : R s.work left) : runOp op { s with work := left } = runOp op s := by
  obtain ⟨hok, herr⟩ := hop s left hR
  cases h : op s with
  | ok rs t =>
    obtain ⟨left', h', -⟩ := hok rs t h
    rw [runOp_ok h, runOp_ok h']
    rfl
  | error e t =>
    obtain ⟨left', h'⟩ := herr e t h
    unfold runOp
    rw [h, h']
    cases e <;> rfl

end Carries

/-! ### What the operations have written, line by line -/

/-- Nothing is known to agree: what an operation starts from. -/
def AnyWork (_ _ : WorkRegs) : Prop := True

/-- `RES` agrees. -/
def SameRes (a b : WorkRegs) : Prop := a.res = b.res

/-- The function-select snapshot agrees, but for registers still to be read. -/
def SameSnapfBut (rs : List (Fin 6)) (a b : WorkRegs) : Prop :=
  ∀ r : Fin 6, r ∉ rs → a.snapf[r] = b.snapf[r]

/-- The function-select snapshot and `RES` agree. -/
def SameSnapfRes (a b : WorkRegs) : Prop := SameSnapfBut [] a b ∧ a.res = b.res

/-- The masks of `FSEL.SET` agree. -/
def SameFselMasks (a b : WorkRegs) : Prop := a.wm = b.wm ∧ a.vm = b.vm

/-- The level snapshot agrees, but for registers still to be read. -/
def SameSnaplBut (rs : List (Fin 2)) (a b : WorkRegs) : Prop :=
  ∀ r : Fin 2, r ∉ rs → a.snapl[r] = b.snapl[r]

/-- The level snapshot and `RES` agree. -/
def SameSnaplRes (a b : WorkRegs) : Prop := SameSnaplBut [] a b ∧ a.res = b.res

/-- The level snapshot and the masks of `DIO.WRRB` agree. -/
def SameSnaplMasks (a b : WorkRegs) : Prop := SameSnaplBut [] a b ∧ a.sm = b.sm ∧ a.cm = b.cm

/-- All that `DIO.WRRB` writes agrees. -/
def SameBatch (a b : WorkRegs) : Prop := SameSnaplMasks a b ∧ a.res = b.res

/-! ### RAW -/

theorem rawReadLoop_carries (w : AccessWidth) (tag : OrderTag) (a n : Nat) :
    Op.Carries SameRes SameRes (rawReadLoop w tag a n) := by
  induction n generalizing a with
  | zero => exact (Op.Blind.pure _).carries
  | succ n ih =>
    exact .bind (memRead_blind _ _).carries fun raw => .bind
      (.update (fun c x => { x with res := x.res ++ [convert c.native tag w raw] }) (fun _ => rfl)
        fun _ _ _ h => congrArg (· ++ _) h) fun _ => ih _

theorem rawWriteLoop_carries (w : AccessWidth) (tag : OrderTag) (a n : Nat)
    (values : List Word) : Op.Carries AnyWork AnyWork (rawWriteLoop w tag a n values) := by
  induction n generalizing a values with
  | zero => exact (Op.Blind.pure _).carries
  | succ n ih =>
    cases values with
    | nil => exact .raiseErr _ _
    | cons v vs =>
      exact .readState (fun _ => .bind (checkBounds_blind _).carries fun _ =>
        .bind (memWrite_blind _ _ _).carries fun _ => ih _ _) fun _ _ _ => rfl

/-! ### FSEL -/

theorem setSnapf_carries (r : Fin 6) (rs : List (Fin 6)) (v : Word) :
    Op.Carries (SameSnapfBut (r :: rs)) (SameSnapfBut rs) (update fun s => s.setSnapf r v) := by
  refine .update (fun _ x => { x with snapf := x.snapf.set r v }) (fun _ => rfl)
    fun _ a b h q hq => ?_
  by_cases hqr : q = r
  · subst hqr
    simp
  · have hne : r.val ≠ q.val := fun e => hqr (Fin.ext e.symm)
    simpa [hne] using h q (by simp [hqr, hq])

theorem loadSnapf_carries (rs : List (Fin 6)) :
    Op.Carries (SameSnapfBut rs) (SameSnapfBut []) (loadSnapf rs) := by
  induction rs with
  | nil => exact (Op.Blind.pure _).carries
  | cons r rs ih =>
    exact .bind (memRead_blind _ _).carries fun v => .bind (setSnapf_carries r rs v) fun _ => ih

theorem gatherCodes_carries (ps : List Pin) :
    Op.Carries SameSnapfRes SameSnapfRes (gatherCodes ps) := by
  induction ps with
  | nil => exact (Op.Blind.pure _).carries
  | cons p ps ih =>
    refine .bind (.update (fun _ x =>
      { x with res := x.res ++ [codeAt x.snapf[fselReg p] p] }) (fun _ => rfl) ?_) fun _ => ih
    rintro _ a b ⟨hs, hr⟩
    exact ⟨hs, by simp only [hs (fselReg p) List.not_mem_nil, hr]⟩

theorem scanCodes_carries (ps : List Pin) (cs : List Word) :
    Op.Carries SameFselMasks SameFselMasks (scanCodes ps cs) := by
  induction ps generalizing cs with
  | nil =>
    cases cs with
    | nil => exact (Op.Blind.pure _).carries
    | cons c cs => exact .raiseErr _ _
  | cons p ps ih =>
    cases cs with
    | nil => exact .raiseErr _ _
    | cons c cs =>
      unfold scanCodes
      split
      · exact .raiseErr _ _
      · rename_i code _
        refine .bind (.update (fun _ x =>
          { x with
            wm := x.wm.set (fselReg p) (x.wm[fselReg p] ||| fieldMask p)
            vm := x.vm.set (fselReg p) (x.vm[fselReg p] ||| fieldValue p code) })
          (fun _ => rfl) ?_) fun _ => ih _
        rintro _ a b ⟨hw, hv⟩
        exact ⟨by simp only [hw], by simp only [hv]⟩

theorem applyFselReg_carries (r : Fin 6) :
    Op.Carries SameFselMasks SameFselMasks (applyFselReg r) :=
  .readState (fun _ => .ite (.bind (memRead_blind _ _).carries fun _ =>
    (memWrite_blind _ _ _).carries) (Op.Blind.pure _).carries)
    fun s left ⟨hw, hv⟩ => by simp only [hw, hv]

theorem applyFsel_carries (rs : List (Fin 6)) :
    Op.Carries SameFselMasks SameFselMasks (applyFsel rs) := by
  induction rs with
  | nil => exact (Op.Blind.pure _).carries
  | cons r rs ih => exact .bind (applyFselReg_carries r) fun _ => ih

/-! ### DIO -/

theorem setSnapl_carries (r : Fin 2) (rs : List (Fin 2)) (v : Word) :
    Op.Carries (SameSnaplBut (r :: rs)) (SameSnaplBut rs) (update fun s => s.setSnapl r v) := by
  refine .update (fun _ x => { x with snapl := x.snapl.set r v }) (fun _ => rfl)
    fun _ a b h q hq => ?_
  by_cases hqr : q = r
  · subst hqr
    simp
  · have hne : r.val ≠ q.val := fun e => hqr (Fin.ext e.symm)
    simpa [hne] using h q (by simp [hqr, hq])

theorem loadSnapl_carries : Op.Carries (SameSnaplBut [0, 1]) (SameSnaplBut []) loadSnapl :=
  .bind (memRead_blind _ _).carries fun _ => .bind (setSnapl_carries 0 [1] _) fun _ =>
    .bind (memRead_blind _ _).carries fun _ => setSnapl_carries 1 [] _

/-- One level of the snapshot into `RES`, whatever else agrees. -/
theorem appendLevel_carries {R : WorkRegs → WorkRegs → Prop} (p : Pin)
    (hs : ∀ a b, R a b → a.snapl[bitReg p] = b.snapl[bitReg p] ∧ a.res = b.res)
    (hk : ∀ a b res, R a b → R { a with res := res } { b with res := res }) :
    Op.Carries R R (appendLevel p) := by
  refine .update (fun _ x => { x with res := x.res ++ [levelAt x.snapl[bitReg p] p] })
    (fun _ => rfl) fun _ a b h => ?_
  obtain ⟨hl, hr⟩ := hs a b h
  simp only [hl, hr]
  exact hk a b _ h

theorem gatherLevels_carries (ps : List Pin) :
    Op.Carries SameSnaplRes SameSnaplRes (gatherLevels ps) := by
  induction ps with
  | nil => exact (Op.Blind.pure _).carries
  | cons p ps ih =>
    exact .bind (appendLevel_carries p (fun _ _ ⟨hl, hr⟩ => ⟨hl _ List.not_mem_nil, hr⟩)
      fun _ _ _ ⟨hl, _⟩ => ⟨hl, rfl⟩) fun _ => ih

theorem accumulateLevel_carries (p : Pin) (v : Option Bool) :
    Op.Carries SameBatch SameBatch (update fun s => s.accumulateLevel p v) := by
  rcases v with _ | _ | _
  · exact .update (fun _ x => x) (fun _ => rfl) fun _ _ _ h => h
  · refine .update (fun _ x =>
      { x with cm := x.cm.set (bitReg p) (x.cm[bitReg p] ||| bitMask p) }) (fun _ => rfl) ?_
    rintro _ a b ⟨⟨hl, hsm, hcm⟩, hr⟩
    exact ⟨⟨hl, hsm, by simp only [hcm]⟩, hr⟩
  · refine .update (fun _ x =>
      { x with sm := x.sm.set (bitReg p) (x.sm[bitReg p] ||| bitMask p) }) (fun _ => rfl) ?_
    rintro _ a b ⟨⟨hl, hsm, hcm⟩, hr⟩
    exact ⟨⟨hl, by simp only [hsm], hcm⟩, hr⟩

theorem scanLevels_carries (ps : List Pin) (vs : List (Option Bool)) :
    Op.Carries SameBatch SameBatch (scanLevels ps vs) := by
  induction ps generalizing vs with
  | nil => exact (Op.Blind.pure _).carries
  | cons p ps ih =>
    cases vs with
    | nil => exact .raiseErr _ _
    | cons v vs =>
      exact .bind (accumulateLevel_carries p v) fun _ => .bind (appendLevel_carries p
        (fun _ _ ⟨⟨hl, _⟩, hr⟩ => ⟨hl _ List.not_mem_nil, hr⟩)
        fun _ _ _ ⟨hm, _⟩ => ⟨hm, rfl⟩) fun _ => ih _

theorem unlessZero_blind (m : Word) {write : Word → Op Unit} (h : ∀ m, Op.Blind (write m)) :
    Op.Blind (unlessZero m write) :=
  .ite (h m) (.pure _)

theorem applyLevels_carries : Op.Carries SameBatch SameBatch applyLevels :=
  .readState (fun _ =>
    .bind (unlessZero_blind _ fun _ => memWrite_blind _ _ _).carries fun _ =>
    .bind (unlessZero_blind _ fun _ => memWrite_blind _ _ _).carries fun _ =>
    .bind (unlessZero_blind _ fun _ => memWrite_blind _ _ _).carries fun _ =>
    (unlessZero_blind _ fun _ => memWrite_blind _ _ _).carries)
    fun s left ⟨⟨_, hsm, hcm⟩, _⟩ => by simp only [hsm, hcm]

/-! ### Every command -/

/-- `RES <- []` makes `RES` agree and keeps what else agrees. -/
theorem clearRes_carries {R R' : WorkRegs → WorkRegs → Prop}
    (h : ∀ a b, R a b → R' { a with res := [] } { b with res := [] }) :
    Op.Carries R R' (update State.clearRes) :=
  .update (fun _ x => { x with res := [] }) (fun _ => rfl) fun _ => h

theorem clearFselMasks_carries :
    Op.Carries AnyWork SameFselMasks (update State.clearFselMasks) :=
  .update (fun _ x => { x with wm := #v[0, 0, 0, 0, 0, 0], vm := #v[0, 0, 0, 0, 0, 0] })
    (fun _ => rfl) fun _ _ _ _ => ⟨rfl, rfl⟩

theorem clearDioMasks_carries :
    Op.Carries (SameSnaplBut []) SameSnaplMasks (update State.clearDioMasks) :=
  .update (fun _ x => { x with sm := #v[0, 0], cm := #v[0, 0] }) (fun _ => rfl)
    fun _ _ _ h => ⟨h, rfl, rfl⟩

theorem sameSnapfBut_fselRegs (a b : WorkRegs) : SameSnapfBut fselRegs a b := by
  intro r hr
  exact absurd (show r ∈ fselRegs by revert r; decide) hr

theorem sameSnaplBut_both (a b : WorkRegs) : SameSnaplBut [0, 1] a b := by
  intro r hr
  exact absurd (show r ∈ ([0, 1] : List (Fin 2)) by revert r; decide) hr

/-- No command looks at what the working registers held before it. -/
theorem exec_work (i : Instr) (s : State) (left : WorkRegs) :
    exec i { s with work := left } = exec i s := by
  cases i with
  | rawRead offset count width order =>
    exact runOp_carries (R := AnyWork) (.bind (checkRawArgs_blind _ _).carries fun _ =>
      .bind (checkBounds_blind _).carries fun _ => .bind (admitIf_blind _ _).carries fun _ =>
      .bind (clearRes_carries fun _ _ _ => rfl) fun _ =>
      .bind (rawReadLoop_carries _ _ _ _) fun _ => readResults_carries fun _ _ h => h) trivial
  | rawWrite offset count width order values =>
    exact runOp_carries (R := AnyWork) (.bind (checkRawArgs_blind _ _).carries fun _ =>
      .bind (checkBounds_blind _).carries fun _ => .bind (admitIf_blind _ _).carries fun _ =>
      .bind (admitIf_blind _ _).carries fun _ =>
      .bind (rawWriteLoop_carries _ _ _ _ _) fun _ => (Op.Blind.pure _).carries) trivial
  | fselGet pins =>
    exact runOp_carries (.bind Op.Blind.requirePinBank.carries fun _ =>
      .bind (checkPins_blind _).carries fun _ => .bind (loadSnapf_carries _) fun _ =>
      .bind (clearRes_carries fun _ _ h => ⟨h, rfl⟩) fun _ =>
      .bind (gatherCodes_carries _) fun _ => readResults_carries fun _ _ h => h.2)
      (sameSnapfBut_fselRegs _ _)
  | fselSet pins codes =>
    exact runOp_carries (R := AnyWork) (.bind Op.Blind.requirePinBank.carries fun _ =>
      .bind (checkPins_blind _).carries fun _ => .bind clearFselMasks_carries fun _ =>
      .bind (scanCodes_carries _ _) fun _ => .bind (applyFsel_carries _) fun _ =>
      (Op.Blind.pure _).carries) trivial
  | dioRead pins =>
    exact runOp_carries (.bind Op.Blind.requirePinBank.carries fun _ =>
      .bind (checkPins_blind _).carries fun _ => .bind loadSnapl_carries fun _ =>
      .bind (clearRes_carries fun _ _ h => ⟨h, rfl⟩) fun _ =>
      .bind (gatherLevels_carries _) fun _ => readResults_carries fun _ _ h => h.2)
      (sameSnaplBut_both _ _)
  | dioWrrb pins values =>
    exact runOp_carries (.bind Op.Blind.requirePinBank.carries fun _ =>
      .bind (checkPins_blind _).carries fun _ => .bind loadSnapl_carries fun _ =>
      .bind clearDioMasks_carries fun _ =>
      .bind (clearRes_carries fun _ _ h => ⟨h, rfl⟩) fun _ =>
      .bind (scanLevels_carries _ _) fun _ => .bind applyLevels_carries fun _ =>
      readResults_carries fun _ _ h => h.2) (sameSnaplBut_both _ _)
  | spiBuild len extra tx rx delay speed =>
    exact runOp_carries (R := AnyWork) (.bind (checkExtraBits_blind _).carries fun _ =>
      (Op.Blind.pure _).carries) trivial

/-- Settles O11: `exec_work`, and every operation ends by dropping the working registers
(`State.finish`). -/
theorem workingRegistersCarryNothingOver : Obligations.WorkingRegistersCarryNothingOver := by
  refine ⟨exec_work, fun i s t h => ?_⟩
  obtain ⟨u, q, -, rfl⟩ := exec_reaches h
  exact State.finish_work u q

end Sys2Proof.Machine
end

section
/-! PROOFS. Raw accesses of one element of a GPIO-kind bank (10_state.md R29 to R33; 20_memory.md
R56, R68): the order tag says which way the element's bytes run, a raw command of one element is
one bank access, and each device register answers that access its own way. -/

namespace Sys2Proof.Machine

/-! ### The order tag, in bytes (20_memory.md R56) -/

/-- Bit `i` of the mask of the low byte. -/
theorem getLsbD_lowByteMask (i : Nat) : (255#32).getLsbD i = decide (i < 8) :=
  getLsbD_widthMask .w1 i

/-- Bit `i` of the mask of the second byte. -/
theorem getLsbD_secondByteMask (i : Nat) : (65280#32).getLsbD i = decide (8 ≤ i ∧ i < 16) := by
  rw [show 65280#32 = 255#32 <<< 8 from rfl, BitVec.getLsbD_shiftLeft, getLsbD_lowByteMask]
  grind

/-- Bits above a bound are 0. -/
theorem getLsbD_of_toNat_lt {v : Word} {n i : Nat} (h : v.toNat < 2 ^ n) (hi : n ≤ i) :
    v.getLsbD i = false :=
  Nat.testBit_lt_two_pow (lt_of_lt_of_le h (Nat.pow_le_pow_right (by decide) hi))

/-- Two bytes are exchanged: bit `r` of byte `q`. -/
theorem getLsbD_bswap_w2 {v : Word} (h : v.toNat < 2 ^ 16) {q r : Nat} (hq : q < 2) (hr : r < 8) :
    (bswap .w2 v).getLsbD (8 * q + r) = v.getLsbD (8 * (1 - q) + r) := by
  have hz : ∀ i, 16 ≤ i → v.getLsbD i = false := fun _ => getLsbD_of_toNat_lt h
  simp only [bswap, BitVec.ofNat_eq_ofNat, BitVec.getLsbD_or, BitVec.getLsbD_and,
    BitVec.getLsbD_shiftLeft, BitVec.getLsbD_ushiftRight, getLsbD_lowByteMask]
  interval_cases q <;> grind

/-- Four bytes are turned round: bit `r` of byte `q`. -/
theorem getLsbD_bswap_w4 (v : Word) {q r : Nat} (hq : q < 4) (hr : r < 8) :
    (bswap .w4 v).getLsbD (8 * q + r) = v.getLsbD (8 * (3 - q) + r) := by
  have hz : ∀ i, 32 ≤ i → v.getLsbD i = false := fun i => BitVec.getLsbD_of_ge v i
  simp only [bswap, BitVec.ofNat_eq_ofNat, BitVec.natCast_eq_ofNat, BitVec.getLsbD_or,
    BitVec.getLsbD_and, BitVec.getLsbD_shiftLeft, BitVec.getLsbD_ushiftRight, getLsbD_lowByteMask,
    getLsbD_secondByteMask]
  interval_cases q <;> grind

/-- The bytes of `bswap` are the element's, the other way round. -/
theorem splitLittle_bswap {w : AccessWidth} {v : Word} (h : v.toNat < 2 ^ (8 * w.bytes)) :
    splitLittle w.bytes (bswap w v) = (splitLittle w.bytes v).reverse := by
  have hbit : ∀ q r, q < w.bytes → r < 8 →
      (bswap w v).getLsbD (8 * q + r) = v.getLsbD (8 * (w.bytes - 1 - q) + r) := by
    intro q r hq hr
    cases w with
    | w1 =>
      obtain rfl : q = 0 := Nat.lt_one_iff.mp hq
      rfl
    | w2 => exact getLsbD_bswap_w2 h hq hr
    | w4 => exact getLsbD_bswap_w4 v hq hr
  refine List.ext_getElem (by simp) fun q hq _ => BitVec.eq_of_getLsbD_eq fun r hr => ?_
  rw [length_splitLittle] at hq
  simp [splitLittle, hbit q r hq hr]

/-- `bswap` of a value that fits fits. -/
theorem bswap_lt {w : AccessWidth} {v : Word} (h : v.toNat < 2 ^ (8 * w.bytes)) :
    (bswap w v).toNat < 2 ^ (8 * w.bytes) := by
  cases w with
  | w1 => exact h
  | w4 => exact (bswap .w4 v).isLt
  | w2 =>
    have hz : ∀ i, 16 ≤ i → v.getLsbD i = false := fun _ => getLsbD_of_toNat_lt h
    refine Nat.lt_pow_two_of_testBit _ fun i hi => ?_
    show (bswap .w2 v).getLsbD i = false
    have hi' : 16 ≤ i := hi
    simp only [bswap, BitVec.ofNat_eq_ofNat, BitVec.getLsbD_or, BitVec.getLsbD_and,
      BitVec.getLsbD_shiftLeft, BitVec.getLsbD_ushiftRight, getLsbD_lowByteMask]
    grind

theorem convert_lt {native : ByteOrder} {tag : OrderTag} {w : AccessWidth} {v : Word}
    (h : v.toNat < 2 ^ (8 * w.bytes)) : (convert native tag w v).toNat < 2 ^ (8 * w.bytes) := by
  unfold convert
  split
  · exact bswap_lt h
  · exact h

/-- Two byte orders that differ run opposite ways. -/
theorem splitBytes_of_ne {a b : ByteOrder} (h : a ≠ b) (w : AccessWidth) (v : Word) :
    splitBytes a w v = (splitBytes b w v).reverse := by
  cases a <;> cases b <;> simp [splitBytes] at h ⊢

theorem joinBytes_of_ne {a b : ByteOrder} (h : a ≠ b) (bs : List Byte) :
    joinBytes a bs = joinBytes b bs.reverse := by
  cases a <;> cases b <;> simp [joinBytes] at h ⊢

theorem splitBytes_w1 (a b : ByteOrder) (v : Word) : splitBytes a .w1 v = splitBytes b .w1 v := by
  cases a <;> cases b <;> rfl

theorem splitBytes_bswap (native : ByteOrder) {w : AccessWidth} {v : Word}
    (h : v.toNat < 2 ^ (8 * w.bytes)) :
    splitBytes native w (bswap w v) = (splitBytes native w v).reverse := by
  cases native <;> simp only [splitBytes, splitLittle_bswap h]

theorem splitBytes_joinBytes (native : ByteOrder) {w : AccessWidth} {bs : List Byte}
    (h : bs.length = w.bytes) : splitBytes native w (joinBytes native bs) = bs := by
  have h4 : w.bytes ≤ 4 := by cases w <;> decide
  cases native with
  | little => exact splitLittle_joinLittle h h4
  | big =>
    show (splitLittle w.bytes (joinLittle bs.reverse)).reverse = bs
    rw [splitLittle_joinLittle (by simpa using h) h4, List.reverse_reverse]

theorem joinBytes_lt (native : ByteOrder) (bs : List Byte) :
    (joinBytes native bs).toNat < 2 ^ (8 * bs.length) := by
  cases native with
  | little => exact joinLittle_lt bs
  | big => simpa [joinBytes] using joinLittle_lt bs.reverse

/-- A converted value is stored as the element's bytes in the tag's order. -/
theorem splitBytes_convert (native : ByteOrder) (tag : OrderTag) {w : AccessWidth} {v : Word}
    (h : v.toNat < 2 ^ (8 * w.bytes)) :
    splitBytes native w (convert native tag w v) = splitBytes (tag.effective native) w v := by
  unfold convert
  split
  next hc => rw [splitBytes_bswap native h, splitBytes_of_ne hc.2]
  next hc =>
    by_cases he : tag.effective native = native
    · rw [he]
    · obtain rfl : w = .w1 := by_contra fun hw => hc ⟨hw, he⟩
      exact splitBytes_w1 _ _ v

/-- A converted value is read as the stored bytes in the tag's order. -/
theorem convert_joinBytes (native : ByteOrder) (tag : OrderTag) {w : AccessWidth} {bs : List Byte}
    (h : bs.length = w.bytes) :
    convert native tag w (joinBytes native bs) = joinBytes (tag.effective native) bs := by
  have hfit : (joinBytes native bs).toNat < 2 ^ (8 * w.bytes) := h ▸ joinBytes_lt native bs
  rw [← joinBytes_splitBytes (native := native) (convert_lt (tag := tag) hfit),
    splitBytes_convert native tag hfit]
  by_cases he : tag.effective native = native
  · rw [he, splitBytes_joinBytes native h]
  · rw [splitBytes_of_ne he, splitBytes_joinBytes native h, ← joinBytes_of_ne he]

/-! ### A raw command of one element is one access of the bank -/

theorem checkBounds_of_true {b : Bool} (h : b = true) (s : State) : checkBounds b s = .ok () s := by
  subst h
  rfl

theorem admitIf_of_true {r : Refusal} {b : Bool} (h : b = true) (s : State) :
    admitIf r b s = .ok () s := by
  subst h
  rfl

/-- `RAW.WRITE` of one element that fits, aligned and in the bank. -/
theorem rawWrite_one {s : State} {offset v : Word} {w : AccessWidth} (tag : OrderTag)
    (ha : offset.toNat % w.bytes = 0) (hb : offset.toNat + w.bytes ≤ s.cfg.bankSize)
    (hv : v.toNat < 2 ^ (8 * w.bytes)) :
    ∃ t : State, exec (.rawWrite offset 1 w.operand tag.operand [v]) s = .next t ∧
      Ended s (okResponse []) t ∧
      SameBank (s.envTurn.bankWrite offset.toNat w (convert s.cfg.native tag w v)) t ∧
      t.draws = s.draws := by
  have hp := bytes_pos w
  have hbounds : writeInBounds s.cfg.bankSize offset w = true := by
    simp only [writeInBounds, Bool.and_eq_true, decide_eq_true_eq]
    omega
  have hfit : valuesFit w (1 : Word).toNat [v] = true := by
    simp [valuesFit, fitsWidth, hv]
  obtain ⟨u, hu, hc, -, hsb, -, hd⟩ := memWrite_spec (convert s.cfg.native tag w v) hb ha
  have hloop : rawWriteLoop w tag offset.toNat (1 : Word).toNat [v] s = .ok () u := by
    show rawWriteLoop w tag offset.toNat 1 [v] s = .ok () u
    simp only [rawWriteLoop]
    rw [Op.bind_ok (readState_run s), Op.bind_ok (checkBounds_of_true (by simpa [State.inBank]) s),
      Op.bind_ok hu]
    rfl
  refine ⟨u.respondOk [], runOp_ok ?_, hc.ended _, ⟨hsb.bank.mem, hsb.bank.fselv, hsb.bank.outv⟩,
    hd⟩
  rw [Op.bind_ok (checkRawArgs_operands w tag s)]
  dsimp only
  rw [Op.bind_ok (checkBounds_of_true hbounds s),
    Op.bind_ok (admitIf_of_true (by simpa [aligned]) s), Op.bind_ok (admitIf_of_true hfit s),
    Op.bind_ok hloop]
  rfl

/-- `RAW.READ` of one element, aligned and in the bank. -/
theorem rawRead_one {s : State} {offset : Word} {w : AccessWidth} (tag : OrderTag)
    (ha : offset.toNat % w.bytes = 0) (hb : offset.toNat + w.bytes ≤ s.cfg.bankSize) :
    ∃ t : State, exec (.rawRead offset 1 w.operand tag.operand) s = .next t ∧
      Ended s (okResponse [convert s.cfg.native tag w (s.envTurn.peek offset.toNat w)]) t ∧
      SameBank s.envTurn t ∧ t.draws = (s.envTurn.bankRead offset.toNat w).2.draws := by
  have hp := bytes_pos w
  have hbounds : readInBounds s.cfg.bankSize offset 1 w = true := by
    simp only [readInBounds, Bool.and_eq_true, decide_eq_true_eq,
      show (1 : Word).toNat = 1 from rfl]
    omega
  have hclear : SameForBank s s.clearRes := ⟨⟨rfl, rfl, rfl⟩, rfl, rfl⟩
  have hturn := envTurn_sameForBank hclear
  obtain ⟨u, v, hu, hc, hw, hsb, -, hv, hd⟩ := memRead_spec (s := s.clearRes) hb ha
  obtain ⟨hv', hd'⟩ := bankRead_congr hturn (by simp) offset.toNat w
  have hloop : rawReadLoop w tag offset.toNat (1 : Word).toNat s.clearRes =
      .ok () (u.appendRes (convert s.cfg.native tag w v)) := by
    show rawReadLoop w tag offset.toNat 1 s.clearRes = _
    simp only [rawReadLoop]
    rw [Op.bind_ok hu, Op.bind_ok (update_run _ _), hc.cfg]
    rfl
  have hres : (u.appendRes (convert s.cfg.native tag w v)).work.res =
      [convert s.cfg.native tag w (s.envTurn.peek offset.toNat w)] := by
    simp [hw, hv, State.peek, hv']
  have hctl : SameControl s (u.appendRes (convert s.cfg.native tag w v)) :=
    ⟨hc.cfg, hc.seq, hc.cmd, hc.inbox, hc.outbox⟩
  refine ⟨_, runOp_ok (rs := [convert s.cfg.native tag w (s.envTurn.peek offset.toNat w)]) ?_,
    hctl.ended _, (hturn.trans hsb).bank.trans ⟨rfl, rfl, rfl⟩, hd.trans hd'⟩
  rw [Op.bind_ok (checkRawArgs_operands w tag s)]
  dsimp only
  rw [Op.bind_ok (checkBounds_of_true hbounds s),
    Op.bind_ok (admitIf_of_true (by simpa [aligned]) s), Op.bind_ok (update_run _ _),
    Op.bind_ok hloop, Op.bind_ok (readState_run _), hres]
  rfl

/-! ### Lanes of a device register, through a raw command -/

/-- An aligned element stays in its word (20_memory.md R59). -/
theorem lane_of_aligned {w : AccessWidth} {a : Nat} (h : a % w.bytes = 0) :
    (a % 4) % w.bytes = 0 ∧ a % 4 + w.bytes ≤ 4 := by
  cases w <;> simp only [AccessWidth.bytes] at h ⊢ <;> omega

theorem aligned_of_lane {w : AccessWidth} {base j : Nat} (hb : base % 4 = 0)
    (hj : j % w.bytes = 0) : (base + j) % w.bytes = 0 := by
  cases w <;> simp only [AccessWidth.bytes] at hj ⊢ <;> omega

/-- An offset word inside a register of the map. -/
theorem toNat_laneOffset {base j : Nat} (hb : base < 0x3C) (hj : j < 4) :
    (BitVec.ofNat 32 (base + j)).toNat = base + j := by
  rw [BitVec.toNat_ofNat]
  omega

/-- The addressed lanes, converted, are their bytes in the tag's order. -/
theorem convert_readLanes (native : ByteOrder) (tag : OrderTag) {j : Nat} {w : AccessWidth}
    (v : Word) (hw : j + w.bytes ≤ 4) :
    convert native tag w (readLanes native j w v) = joinBytes (tag.effective native)
      ((List.range w.bytes).map fun k => laneByte native (j + k) v) := by
  rw [readLanes_eq native v hw, convert_joinBytes native tag (by simp)]

section LaneAccess

variable {s : State} {offset : Word} {base j : Nat} {w : AccessWidth}

/-- `RAW.WRITE` of lanes `j ..` of the register at `base` of a GPIO-kind bank. -/
theorem rawWrite_gpio (hk : s.cfg.kind = .gpio) (ho : offset.toNat = base + j)
    (hb : base % 4 = 0) (hj : j % w.bytes = 0) (hw : j + w.bytes ≤ 4)
    (hs : base + j + w.bytes ≤ s.cfg.bankSize) (tag : OrderTag) {v : Word}
    (hv : v.toNat < 2 ^ (8 * w.bytes)) :
    ∃ t : State, exec (.rawWrite offset 1 w.operand tag.operand [v]) s = .next t ∧
      Ended s (okResponse []) t ∧
      SameBank (s.envTurn.gpioWrite (gpioRegAt base) j w (convert s.cfg.native tag w v)) t ∧
      t.draws = s.draws := by
  have hp := bytes_pos w
  rw [← bankWrite_gpio (by simpa using hk) hb (by omega), ← ho]
  exact rawWrite_one tag (ho ▸ aligned_of_lane hb hj) (ho ▸ hs) hv

/-- `RAW.READ` of lanes `j ..` of the register at `base` of a GPIO-kind bank. -/
theorem rawRead_gpio (hk : s.cfg.kind = .gpio) (ho : offset.toNat = base + j)
    (hb : base % 4 = 0) (hj : j % w.bytes = 0) (hw : j + w.bytes ≤ 4)
    (hs : base + j + w.bytes ≤ s.cfg.bankSize) (tag : OrderTag) :
    ∃ t : State, exec (.rawRead offset 1 w.operand tag.operand) s = .next t ∧
      Ended s (okResponse [convert s.cfg.native tag w
        (readLanes s.cfg.native j w (s.envTurn.gpioRead (gpioRegAt base)).1)]) t ∧
      SameBank s.envTurn t ∧ t.draws = (s.envTurn.gpioRead (gpioRegAt base)).2.draws := by
  have hp := bytes_pos w
  have hr := bankRead_gpio (s := s.envTurn) (by simpa using hk) hb (show j < 4 by omega) w
  obtain ⟨t, ht, he, hsb, hd⟩ := rawRead_one (s := s) (offset := offset) tag
    (ho ▸ aligned_of_lane hb hj) (ho ▸ hs)
  rw [State.peek, ho, hr, State.envTurn_cfg] at he
  rw [ho, hr] at hd
  exact ⟨t, ht, he, hsb, hd⟩

end LaneAccess

/-- Settles O34: `replaceLanes` and `readLanes` of the register, byte by byte. -/
theorem gpioFselIsStorage : Obligations.GpioFselIsStorage := by
  intro s n j w tag v hk hsize hj hw hv
  have hp := bytes_pos w
  obtain ⟨hspan, hbase⟩ := fselOffset_legal n
  have ho := toNat_laneOffset (base := fselOffset n) (j := j) (by omega) (by omega)
  have hs : fselOffset n + j + w.bytes ≤ s.cfg.bankSize := by omega
  have hw4 : w = .w4 → j = 0 := by
    rintro rfl
    simp only [AccessWidth.bytes] at hw
    omega
  constructor
  · obtain ⟨t, ht, he, hsb, hd⟩ := rawWrite_gpio hk ho hbase hj hw hs tag hv
    rw [gpioRegAt_fselOffset] at hsb
    refine ⟨t, replaceLanes s.cfg.native j w s.envTurn.fselv[n] (convert s.cfg.native tag w v), ht,
      he, ?_, fun k hk4 => ?_, fun h => ?_, hsb.outv, ?_, hd⟩
    · simpa [State.gpioWrite] using hsb.fselv
    · rw [laneByte_replaceLanes _ _ _ hw hk4, splitBytes_convert _ _ hv]
    · obtain rfl := hw4 h
      subst h
      exact replaceLanes_w4 _ _ _
    · simpa using hsb.mem
  · obtain ⟨t, ht, he, hsb, hd⟩ := rawRead_gpio hk ho hbase hj hw hs tag
    rw [gpioRegAt_fselOffset] at he hd
    refine ⟨t, convert s.cfg.native tag w (readLanes s.cfg.native j w s.envTurn.fselv[n]), ht, he,
      convert_readLanes _ _ _ hw, fun h => ?_, hsb, ?_⟩
    · obtain rfl := hw4 h
      subst h
      rw [readLanes_w4]
    · simpa [State.gpioRead] using hd

theorem setOffset_legal (r : Fin 2) : setOffset r + 4 ≤ 0x3C ∧ setOffset r % 4 = 0 := by
  revert r
  decide

theorem clrOffset_legal (r : Fin 2) : clrOffset r + 4 ≤ 0x3C ∧ clrOffset r % 4 = 0 := by
  revert r
  decide

/-- Settles O35: the mask is the converted element placed in the addressed lanes. -/
theorem gpioSetAndClearDriveLatch : Obligations.GpioSetAndClearDriveLatch := by
  refine ⟨fun s r j w tag v hk hsize hj hw hv => ?_, rfl, rfl⟩
  have hp := bytes_pos w
  have hwrite : ∀ base, base + 4 ≤ 0x3C ∧ base % 4 = 0 → ∃ t : State,
      exec (.rawWrite (BitVec.ofNat 32 (base + j)) 1 w.operand tag.operand [v]) s = .next t ∧
      Ended s (okResponse []) t ∧
      SameBank (s.envTurn.gpioWrite (gpioRegAt base) j w (convert s.cfg.native tag w v)) t ∧
      t.draws = s.draws := fun base ⟨hspan, hbase⟩ =>
    rawWrite_gpio hk (toNat_laneOffset (by omega) (by omega)) hbase hj hw (by omega) tag hv
  refine ⟨placeLanes s.cfg.native j w (convert s.cfg.native tag w v), fun k hk4 => ?_, fun h => ?_,
    ?_, ?_⟩
  · rw [laneByte_placeLanes _ _ hw hk4, splitBytes_convert _ _ hv]
  · subst h
    simp only [AccessWidth.bytes] at hw
    obtain rfl : j = 0 := by omega
    exact placeLanes_w4 _ _
  · obtain ⟨t, ht, he, hsb, hd⟩ := hwrite _ (setOffset_legal r)
    rw [gpioRegAt_setOffset] at hsb
    exact ⟨t, ht, he, by simpa [State.gpioWrite] using hsb.outv, hsb.fselv, by simpa using hsb.mem,
      hd⟩
  · obtain ⟨t, ht, he, hsb, hd⟩ := hwrite _ (clrOffset_legal r)
    rw [gpioRegAt_clrOffset] at hsb
    exact ⟨t, ht, he, by simpa [State.gpioWrite] using hsb.outv, hsb.fselv, by simpa using hsb.mem,
      hd⟩

/-- No register of the map stands at `0x3C` or above. -/
theorem gpioRegAt_of_le {a : Nat} (h : 0x3C ≤ a) : gpioRegAt a = .unnamed := by
  unfold gpioRegAt
  split <;> simp_all

/-- A write to a level register or to no register leaves the bank as it is. -/
theorem gpioWrite_ignored {base offset : Nat} (hbase : base = 4 * (offset / 4))
    (h : base ∈ [0x18, 0x24, 0x30, 0x34, 0x38] ∨ 0x3C ≤ offset) (s : State) (j : Nat)
    (w : AccessWidth) (v : Word) : s.gpioWrite (gpioRegAt base) j w v = s := by
  rcases h with h | h
  · simp only [List.mem_cons, List.not_mem_nil, or_false] at h
    rcases h with rfl | rfl | rfl | rfl | rfl <;> rfl
  · rw [gpioRegAt_of_le (by omega)]
    rfl

/-- A read of a write-only register or of no register is a draw. -/
theorem gpioRead_drawn {base offset : Nat} (hbase : base = 4 * (offset / 4))
    (h : base ∈ [0x18, 0x1C, 0x20, 0x24, 0x28, 0x2C, 0x30] ∨ 0x3C ≤ offset) (s : State) :
    s.gpioRead (gpioRegAt base) = s.drawn := by
  rcases h with h | h
  · simp only [List.mem_cons, List.not_mem_nil, or_false] at h
    rcases h with rfl | rfl | rfl | rfl | rfl | rfl | rfl <;> rfl
  · rw [gpioRegAt_of_le (by omega)]
    rfl

/-- Settles O36: the registers that ignore a write and those that answer a read with a draw. -/
theorem gpioOtherOffsetsKeepNothing : Obligations.GpioOtherOffsetsKeepNothing := by
  intro s offset v w tag hk ha hb hv
  obtain ⟨hj, hw⟩ := lane_of_aligned ha
  have ho : offset.toNat = 4 * (offset.toNat / 4) + offset.toNat % 4 :=
    (Nat.div_add_mod _ _).symm
  have hbase : 4 * (offset.toNat / 4) % 4 = 0 := Nat.mul_mod_right _ _
  have hs : 4 * (offset.toNat / 4) + offset.toNat % 4 + w.bytes ≤ s.cfg.bankSize := ho ▸ hb
  refine ⟨fun hreg => ?_, fun hreg => ?_⟩
  · obtain ⟨t, ht, he, hsb, hd⟩ := rawWrite_gpio hk ho hbase hj hw hs tag hv
    rw [gpioWrite_ignored rfl hreg] at hsb
    exact ⟨t, ht, he, hsb, hd⟩
  · obtain ⟨t, ht, he, hsb, hd⟩ := rawRead_gpio hk ho hbase hj hw hs tag
    rw [gpioRead_drawn rfl hreg] at he hd
    rw [convert_readLanes _ _ _ hw, State.drawn_fst, State.envTurn_draws] at he
    rw [State.drawn_draws, State.envTurn_draws] at hd
    exact ⟨t, ht, he, hsb, hd⟩

end Sys2Proof.Machine
end

section
/-! PROOFS. What every step and every command keeps (10_state.md R23, R37; 20_memory.md R50, R58,
R59, R64): the machine's invariant, legal accesses, and a bank that is what the traced accesses
leave. -/

namespace Sys2Proof.Machine

/-! ### The invariant -/

/-- Accepting a command or a reset leaves the bank alone. -/
theorem portStep_sameBank (s : State) : SameBank s s.portStep := by
  unfold State.portStep
  split <;> exact ⟨rfl, rfl, rfl⟩

theorem State.Inv.bankInv {s : State} (h : s.Inv) : s.BankInv :=
  ⟨h.memCanonical, h.memInBank, h.latchValid⟩

/-- The bank's invariant speaks of the bank and its size alone. -/
theorem State.BankInv.of_sameBank {s t : State} (h : s.BankInv) (hb : SameBank s t)
    (hc : t.cfg = s.cfg) : t.BankInv where
  memCanonical := hb.mem ▸ h.memCanonical
  memInBank := by
    unfold State.memInBank
    rw [hb.mem, hc]
    exact h.memInBank
  latchValid := by
    unfold State.latchValid
    rw [hb.outv]
    exact h.latchValid

/-- An IDLE block that still waits or takes a reset holds nothing; one that accepted a command is
BUSY. -/
theorem portStep_quietWhenIdle {s : State} (h : s.quietWhenIdle) : s.portStep.quietWhenIdle := by
  unfold State.portStep
  split
  next => exact h
  next => exact fun hidle => nomatch hidle
  next => exact fun _ => ⟨rfl, rfl⟩

/-- Settles O13, by the two values of `SEQ`: an IDLE step leaves the bank alone, and a BUSY step
reaches a state with the bank's invariant and responds there. -/
theorem stepKeepsInvariant : Obligations.StepKeepsInvariant := by
  intro s t hinv h
  suffices hboth : t.BankInv ∧ t.quietWhenIdle by
    obtain ⟨hbank, hquiet⟩ := hboth
    exact ⟨hbank.memCanonical, hbank.memInBank, hbank.latchValid, hquiet⟩
  cases hs : s.seq with
  | idle =>
    rw [step_of_idle hs] at h
    cases h
    exact ⟨hinv.bankInv.of_sameBank (portStep_sameBank s) (portStep_cfg s),
      portStep_quietWhenIdle hinv.quietWhenIdle⟩
  | busy =>
    obtain ⟨u, q, hu, rfl⟩ := busyStep_reaches hs h
    exact ⟨(hu.bank hinv.bankInv).of_sameBank ⟨rfl, rfl, rfl⟩ rfl, fun _ => ⟨rfl, rfl⟩⟩

/-! ### The accesses a command makes -/

/-- All that a command does to the bank and the trace: it appends legal accesses, and the bank and
the schedule are what these leave. -/
theorem exec_accesses {i : Instr} {s t : State} (h : exec i s = .next t) :
    ∃ made, t.trace = s.trace ++ made ∧ (∀ a ∈ made, a.Legal s.cfg.bankSize) ∧
      SameForBank (s.afterAccesses made) t := by
  obtain ⟨u, q, hu, rfl⟩ := exec_reaches h
  obtain ⟨made, htrace, hlegal, hbank⟩ := hu.trace
  exact ⟨made, htrace, hlegal, hbank.trans ⟨⟨rfl, rfl, rfl⟩, rfl, rfl⟩⟩

/-- Settles O16. -/
theorem everyAccessIsInBankAndAligned : Obligations.EveryAccessIsInBankAndAligned := by
  intro i s t h
  obtain ⟨made, htrace, hlegal, -⟩ := exec_accesses h
  exact ⟨made, htrace, hlegal⟩

/-- Settles O17. -/
theorem bankIsWhatTracedAccessesLeave : Obligations.BankIsWhatTracedAccessesLeave := by
  intro i s t h
  obtain ⟨made, htrace, -, hbank⟩ := exec_accesses h
  exact ⟨made, htrace, hbank.bank, hbank.env.trans (afterAccesses_env s made)⟩

end Sys2Proof.Machine
end

section
/-! PROOFS. The bank's own rules (20_memory.md R53, R54, R56, R61, R68): byte reversal, a write of
a MEM-kind bank read back, reads without effect, and narrow accesses of device registers. -/

namespace Sys2Proof.Machine

/-! ### Byte reversal and the byte store -/

/-- `bswap` undoes itself: reversing the bytes twice gives the bytes back. -/
theorem bswap_bswap {w : AccessWidth} {v : Word} (h : v.toNat < 2 ^ (8 * w.bytes)) :
    bswap w (bswap w v) = v := by
  have h1 := bswap_lt h
  have hbytes : splitLittle w.bytes (bswap w (bswap w v)) = splitLittle w.bytes v := by
    rw [splitLittle_bswap h1, splitLittle_bswap h, List.reverse_reverse]
  rw [← joinLittle_splitLittle (bswap_lt h1), hbytes, joinLittle_splitLittle h]

/-- Settles O20. -/
theorem bswapReversesBytes : Obligations.BswapReversesBytes :=
  fun _ _ h => ⟨splitLittle_bswap h, bswap_bswap h, bswap_lt h⟩

/-- A write of a MEM-kind bank stores the element's bytes (20_memory.md R54). -/
theorem bankWrite_mem {s : State} (hk : s.cfg.kind = .mem) (addr : Nat) (w : AccessWidth)
    (v : Word) :
    (s.bankWrite addr w v).mem = s.mem.storeBytes addr (splitBytes s.cfg.native w v) := by
  simp only [State.bankWrite, hk]

/-- A read of a MEM-kind bank joins the bytes that stand there (20_memory.md R53). -/
theorem peek_mem {s : State} (hk : s.cfg.kind = .mem) (addr : Nat) (w : AccessWidth) :
    s.peek addr w = joinBytes s.cfg.native (s.mem.bytesAt addr w.bytes) := by
  simp only [State.peek, State.bankRead, hk]

/-- Settles O21: the bytes stored are those of `splitBytes`, which `joinBytes` joins again. -/
theorem memWriteThenMemRead : Obligations.MemWriteThenMemRead := by
  intro s addr w v hk hv
  have hlen := length_splitBytes s.cfg.native w v
  have hbyte := Memory.byteAt_storeBytes s.mem addr (splitBytes s.cfg.native w v)
  rw [peek_mem (by simpa using hk), bankWrite_mem hk, State.bankWrite_cfg]
  refine ⟨?_, fun i hi => ?_, fun a ha => ?_⟩
  · rw [← hlen, Memory.bytesAt_storeBytes_self, joinBytes_splitBytes hv]
  · rw [hbyte, if_pos (by omega), Nat.add_sub_cancel_left]
    exact getD_splitBytes _ _ _ hi
  · rw [hbyte, if_neg (by omega)]

/-- Settles O22: all a read does is said by `memRead_spec`. -/
theorem readsHaveNoSideEffect : Obligations.ReadsHaveNoSideEffect := by
  intro s t addr w v h
  obtain ⟨hb, ha, -, -⟩ := memRead_ok h
  obtain ⟨t', v', hrun, hctl, hwork, hbank, htrace, hv, -⟩ := memRead_spec hb ha
  rw [hrun] at h
  cases h
  exact ⟨hv, hbank.bank, hctl.cfg, hctl.seq, hctl.cmd, hwork, hctl.inbox, hctl.outbox, htrace⟩

/-! ### Narrow accesses of a device register -/

section Lanes

variable {s : State} {base j : Nat} {w : AccessWidth}

/-- A narrow read of a device register: the addressed lanes of its 32-bit read. -/
theorem peek_gpio_lanes (hk : s.cfg.kind = .gpio) (hb : base % 4 = 0) (hw : j + w.bytes ≤ 4) :
    s.peek (base + j) w = joinBytes s.cfg.native
      ((List.range w.bytes).map fun k => laneByte s.cfg.native (j + k) (s.peek base .w4)) := by
  have hp := bytes_pos w
  rw [State.peek, State.peek, bankRead_gpio hk hb (by omega), bankRead_gpio_w4 hk hb]
  exact readLanes_eq _ _ hw

/-- A narrow write of a set or clear register is the 32-bit write of the placed element. -/
theorem bankWrite_placeLanes (hk : s.cfg.kind = .gpio) {r : Fin 2}
    (hbase : base = setOffset r ∨ base = clrOffset r) (hw : j + w.bytes ≤ 4) (v : Word) :
    s.bankWrite (base + j) w v = s.bankWrite base .w4 (placeLanes s.cfg.native j w v) := by
  have hp := bytes_pos w
  rcases hbase with rfl | rfl
  · have hb := (setOffset_legal r).2
    rw [bankWrite_gpio hk hb (by omega), bankWrite_gpio_w4 hk hb, gpioRegAt_setOffset]
    simp only [State.gpioWrite, placeLanes_w4]
  · have hb := (clrOffset_legal r).2
    rw [bankWrite_gpio hk hb (by omega), bankWrite_gpio_w4 hk hb, gpioRegAt_clrOffset]
    simp only [State.gpioWrite, placeLanes_w4]

end Lanes

/-- Settles O23: reads by `readLanes`, writes of `FSELn` by `replaceLanes`, writes of `SETr` and
`CLRr` by the mask `placeLanes`. -/
theorem narrowAccessesActOnLanes : Obligations.NarrowAccessesActOnLanes := by
  intro s base j w v hk hbase _ hw _
  have hp := bytes_pos w
  have hb : base % 4 = 0 := by
    revert base
    decide
  refine ⟨peek_gpio_lanes hk hb hw, ?_, ?_⟩
  · rintro n rfl k hk4
    rw [bankWrite_gpio hk hb (by omega), gpioRegAt_fselOffset, ← laneByte_replaceLanes _ _ _ hw hk4]
    simp [State.gpioWrite]
  · exact fun r hr => ⟨_, fun k hk4 => laneByte_placeLanes _ v hw hk4,
      bankWrite_placeLanes hk hr hw v⟩

end Sys2Proof.Machine
end

section
/-! PROOFS. How a command can stop short of its last line (20_memory.md R53, R54, R69;
60_exceptions.md R222): on a bank that holds the span a unit needs, its pseudocode makes legal
accesses only, so it stops by a raised error or by a refusal of its own and never by a fault. -/

namespace Sys2Proof.Machine

/-- The FSEL and DIO commands, which need a bank of `0x3C` bytes (20_memory.md R69). -/
def IsPinCommand : Instr → Prop
  | .fselGet _ | .fselSet _ _ | .dioRead _ | .dioWrrb _ _ => True
  | .rawRead _ _ _ _ | .rawWrite _ _ _ _ _ | .spiBuild _ _ _ _ _ _ => False

/-! ### The stops of pseudocode, on banks of one size -/

/-- On a bank of `size` bytes the pseudocode stops, if it stops, as `P` allows. -/
def Op.StopsOnly {α : Type} (size : Nat) (P : Stop → Prop) (x : Op α) : Prop :=
  ∀ s e t, s.cfg.bankSize = size → x s = .error e t → P e

/-- The stop is no fault. -/
def Stop.NoFault (e : Stop) : Prop := ∀ f, e ≠ .fault f

/-- The stop is a raised error. -/
def Stop.IsRaise (e : Stop) : Prop := ∃ err info, e = .raise err info

section StopsOnly

variable {size : Nat} {P : Stop → Prop} {α β : Type}

/-- Pseudocode that always answers has no stop at all. -/
theorem Op.StopsOnly.of_ok {x : Op α}
    (h : ∀ s, s.cfg.bankSize = size → ∃ a t, x s = .ok a t) : Op.StopsOnly size P x := by
  intro s e t hs he
  obtain ⟨a, u, hok⟩ := h s hs
  rw [hok] at he
  cases he

theorem Op.StopsOnly.pure (a : α) : Op.StopsOnly size P (Pure.pure a : Op α) :=
  .of_ok fun s _ => ⟨a, s, rfl⟩

theorem Op.StopsOnly.update (f : State → State) : Op.StopsOnly size P (update f) :=
  .of_ok fun s _ => ⟨(), f s, rfl⟩

theorem Op.StopsOnly.raiseErr {e : Err} {info : BitVec 8} (h : P (.raise e info)) :
    Op.StopsOnly size P (raiseErr e info : Op α) := by
  intro s _ _ _ he
  cases he
  exact h

theorem Op.StopsOnly.refuse {r : Refusal} (h : P (.refuse r)) :
    Op.StopsOnly size P (refuse r : Op α) := by
  intro s _ _ _ he
  cases he
  exact h

/-- A sequence stops only where one of its parts does; the second part may use what the first
answered, and from what state. -/
theorem Op.StopsOnly.bind {x : Op α} {f : α → Op β} (hr : Op.Reaches x)
    (hx : Op.StopsOnly size P x)
    (hf : ∀ a s t, s.cfg.bankSize = size → x s = .ok a t → Op.StopsOnly size P (f a)) :
    Op.StopsOnly size P (x >>= f) := by
  intro s e u hs he
  rcases Op.of_bind_error he with he | ⟨a, t, ha, he⟩
  · exact hx s e u hs he
  · exact hf a s t hs ha t e u (((hr s).1 a t ha).cfg ▸ hs) he

/-! ### Checks -/

/-- What passed a bounds check is in bounds. -/
theorem of_checkBounds_ok {b : Bool} {u : Unit} {s t : State} (h : checkBounds b s = .ok u t) :
    b = true := by
  cases b with
  | true => rfl
  | false => cases h

/-- What was admitted meets the condition. -/
theorem of_admitIf_ok {r : Refusal} {b : Bool} {u : Unit} {s t : State}
    (h : admitIf r b s = .ok u t) : b = true := by
  cases b with
  | true => rfl
  | false => cases h

theorem admitIf_stopsOnly {r : Refusal} (h : P (.refuse r)) (b : Bool) :
    Op.StopsOnly size P (admitIf r b) := by
  unfold admitIf
  split
  · exact .pure _
  · exact .refuse h

/-! ### Loops that always answer, on a bank that holds their span -/

theorem rawReadLoop_stopsOnly {w : AccessWidth} (tag : OrderTag) {a n : Nat}
    (hb : a + w.bytes * n ≤ size) (ha : a % w.bytes = 0) :
    Op.StopsOnly size P (rawReadLoop w tag a n) := by
  refine .of_ok fun s hs => ?_
  obtain ⟨t, -, h, -⟩ := rawReadLoop_spec w tag n a s (hs ▸ hb) ha
  exact ⟨(), t, h⟩

theorem loadSnapf_stopsOnly (hb : 0x3C ≤ size) : Op.StopsOnly size P (loadSnapf fselRegs) := by
  refine .of_ok fun s hs => ?_
  obtain ⟨t, -, h, -⟩ := loadSnapf_spec fselRegs s (hs ▸ hb) (by decide)
  exact ⟨(), t, h⟩

theorem gatherCodes_stopsOnly (ps : List Pin) : Op.StopsOnly size P (gatherCodes ps) :=
  .of_ok fun s _ => ⟨(), _, gatherCodes_spec ps s⟩

theorem applyFselReg_stopsOnly (hb : 0x3C ≤ size) (r : Fin 6) :
    Op.StopsOnly size P (applyFselReg r) := by
  refine .of_ok fun s hs => ?_
  by_cases hwm : s.work.wm[r] = 0
  · exact ⟨(), s, applyFselReg_skip hwm⟩
  · obtain ⟨t, -, h, -⟩ := applyFselReg_spec (hs ▸ hb) hwm
    exact ⟨(), t, h⟩

theorem applyFsel_stopsOnly (hb : 0x3C ≤ size) (rs : List (Fin 6)) :
    Op.StopsOnly size P (applyFsel rs) := by
  induction rs with
  | nil => exact .pure _
  | cons r rs ih =>
    exact .bind (applyFselReg_reaches r) (applyFselReg_stopsOnly hb r) fun _ _ _ _ _ => ih

theorem loadSnapl_stopsOnly (hb : 0x3C ≤ size) : Op.StopsOnly size P loadSnapl := by
  refine .of_ok fun s hs => ?_
  obtain ⟨t, -, -, h, -⟩ := loadSnapl_spec (s := s) (hs ▸ hb)
  exact ⟨(), t, h⟩

theorem gatherLevels_stopsOnly (ps : List Pin) : Op.StopsOnly size P (gatherLevels ps) :=
  .of_ok fun s _ => ⟨(), _, gatherLevels_spec ps s⟩

/-- One mask written to a register of the map, or no access. -/
theorem unlessZero_stopsOnly (hb : 0x3C ≤ size) {addr : Nat}
    (hl : addr + 4 ≤ 0x3C ∧ addr % 4 = 0) (m : Word) :
    Op.StopsOnly size P (unlessZero m fun m => memWrite addr .w4 m) := by
  refine .of_ok fun s hs => ?_
  obtain ⟨t, h, -⟩ := unlessZero_spec (s := s) (hs ▸ hb) hl.1 hl.2 m
  exact ⟨(), t, h⟩

theorem applyLevels_stopsOnly (hb : 0x3C ≤ size) : Op.StopsOnly size P applyLevels :=
  have reaches : ∀ m addr, Op.Reaches (unlessZero m fun m => memWrite addr .w4 m) :=
    fun _ _ => unlessZero_reaches _ fun _ => memWrite_reaches _ _ _
  .bind readState_reaches (.of_ok fun s _ => ⟨s, s, rfl⟩) fun _ _ _ _ _ =>
    .bind (reaches _ _) (unlessZero_stopsOnly hb (setOffset_legal 0) _) fun _ _ _ _ _ =>
      .bind (reaches _ _) (unlessZero_stopsOnly hb (setOffset_legal 1) _) fun _ _ _ _ _ =>
        .bind (reaches _ _) (unlessZero_stopsOnly hb (clrOffset_legal 0) _) fun _ _ _ _ _ =>
          unlessZero_stopsOnly hb (clrOffset_legal 1) _

theorem returnRes_stopsOnly :
    Op.StopsOnly size P (do return (← readState).work.res : Op (List Word)) :=
  .of_ok fun s _ => ⟨_, s, rfl⟩

/-! ### Lines that may raise an error -/

variable (hP : ∀ e info, P (.raise e info))
include hP

theorem checkRawArgs_stopsOnly (width : Word) (order : BitVec 8) :
    Op.StopsOnly size P (checkRawArgs width order) := by
  unfold checkRawArgs
  split
  · exact .pure _
  · exact .raiseErr (hP _ _)

theorem checkBounds_stopsOnly (b : Bool) : Op.StopsOnly size P (checkBounds b) := by
  unfold checkBounds
  split
  · exact .pure _
  · exact .raiseErr (hP _ _)

theorem checkPins_stopsOnly (pins : List Word) : Op.StopsOnly size P (checkPins pins) := by
  unfold checkPins
  split
  · exact .pure _
  · exact .raiseErr (hP _ _)

theorem rawWriteLoop_stopsOnly {w : AccessWidth} (tag : OrderTag) {a : Nat} (n : Nat)
    (values : List Word) (hb : a ≤ size) (ha : a % w.bytes = 0) :
    Op.StopsOnly size P (rawWriteLoop w tag a n values) := by
  intro s e t hs he
  obtain ⟨u, hrun, -⟩ := rawWriteLoop_spec w tag n a values s _ ha (hs ▸ hb) rfl
  rcases hrun with ⟨-, hrun⟩ | ⟨-, hrun⟩ <;> rw [hrun] at he <;> cases he
  exact hP _ _

theorem scanCodes_stopsOnly (ps : List Pin) (cs : List Word) :
    Op.StopsOnly size P (scanCodes ps cs) := by
  induction ps generalizing cs with
  | nil =>
    cases cs with
    | nil => exact .pure _
    | cons c cs => exact .raiseErr (hP _ _)
  | cons p ps ih =>
    cases cs with
    | nil => exact .raiseErr (hP _ _)
    | cons c cs =>
      unfold scanCodes
      split
      · exact .raiseErr (hP _ _)
      · exact .bind (update_reaches fun s => .of_work s _) (.update _) fun _ _ _ _ _ => ih cs

theorem scanLevels_stopsOnly (ps : List Pin) (vs : List (Option Bool)) :
    Op.StopsOnly size P (scanLevels ps vs) := by
  intro s e t _ he
  obtain ⟨u, hrun, -⟩ := scanLevels_spec ps vs s
  rcases hrun with ⟨-, hrun, -⟩ | ⟨-, hrun⟩ <;> rw [hrun] at he <;> cases he
  exact hP _ _

/-! ### The pin commands -/

/-- The four pin commands test the bank's size first; on a bank that holds their span the rest
stops by a raised error only. -/
theorem exec_pinCommand_body {i : Instr} (hi : IsPinCommand i) :
    ∃ body : Op (List Word), (∀ s, exec i s = runOp (do requirePinBank; body) s) ∧
      (0x3C ≤ size → Op.StopsOnly size P body) := by
  have hpins := checkPins_stopsOnly (size := size) hP
  cases i with
  | rawRead | rawWrite | spiBuild => exact hi.elim
  | fselGet pins =>
    exact ⟨_, fun _ => rfl, fun hb => .bind (checkPins_reaches _) (hpins pins) fun ps _ _ _ _ =>
      .bind (loadSnapf_reaches _) (loadSnapf_stopsOnly hb) fun _ _ _ _ _ =>
        .bind (update_reaches fun s => .of_work s _) (.update _) fun _ _ _ _ _ =>
          .bind (gatherCodes_reaches _) (gatherCodes_stopsOnly ps) fun _ _ _ _ _ =>
            returnRes_stopsOnly⟩
  | fselSet pins codes =>
    exact ⟨_, fun _ => rfl, fun hb => .bind (checkPins_reaches _) (hpins pins) fun ps _ _ _ _ =>
      .bind (update_reaches fun s => .of_work s _) (.update _) fun _ _ _ _ _ =>
        .bind (scanCodes_reaches _ _) (scanCodes_stopsOnly hP ps codes) fun _ _ _ _ _ =>
          .bind (applyFsel_reaches _) (applyFsel_stopsOnly hb _) fun _ _ _ _ _ => .pure _⟩
  | dioRead pins =>
    exact ⟨_, fun _ => rfl, fun hb => .bind (checkPins_reaches _) (hpins pins) fun ps _ _ _ _ =>
      .bind loadSnapl_reaches (loadSnapl_stopsOnly hb) fun _ _ _ _ _ =>
        .bind (update_reaches fun s => .of_work s _) (.update _) fun _ _ _ _ _ =>
          .bind (gatherLevels_reaches _) (gatherLevels_stopsOnly ps) fun _ _ _ _ _ =>
            returnRes_stopsOnly⟩
  | dioWrrb pins values =>
    exact ⟨_, fun _ => rfl, fun hb => .bind (checkPins_reaches _) (hpins pins) fun ps _ _ _ _ =>
      .bind loadSnapl_reaches (loadSnapl_stopsOnly hb) fun _ _ _ _ _ =>
        .bind (update_reaches fun s => .of_work s _) (.update _) fun _ _ _ _ _ =>
          .bind (update_reaches fun s => .of_work s _) (.update _) fun _ _ _ _ _ =>
            .bind (scanLevels_reaches _ _) (scanLevels_stopsOnly hP ps values) fun _ _ _ _ _ =>
              .bind applyLevels_reaches (applyLevels_stopsOnly hb) fun _ _ _ _ _ =>
                returnRes_stopsOnly⟩

end StopsOnly

/-- A pin command on a bank below its span: refused before anything else. -/
theorem pinCommand_refused {body : Op (List Word)} {s : State} (hb : ¬ 0x3C ≤ s.cfg.bankSize) :
    runOp (do requirePinBank; body) s = .refused .bankTooSmall :=
  runOp_refuse (Op.bind_error (requirePinBank_refuse hb))

/-- A pin command on a bank that holds its span ends with a response. -/
theorem pinCommand_next {body : Op (List Word)} {s : State} (hb : 0x3C ≤ s.cfg.bankSize)
    (hbody : Op.StopsOnly s.cfg.bankSize Stop.IsRaise body) :
    ∃ t, runOp (do requirePinBank; body) s = .next t := by
  have hrun : (do requirePinBank; body) s = body s := Op.bind_ok (requirePinBank_ok hb)
  cases h : body s with
  | ok rs t => exact ⟨_, runOp_ok (hrun.trans h)⟩
  | error e t =>
    obtain ⟨err, info, rfl⟩ := hbody s e t rfl h
    exact ⟨_, runOp_raise (hrun.trans h)⟩

/-- The two outcomes of a pin command: a refusal on a bank below its span, else a response. -/
theorem exec_pinCommand_cases {i : Instr} (hi : IsPinCommand i) (s : State) :
    (s.cfg.bankSize < 0x3C ∧ exec i s = .refused .bankTooSmall) ∨
      (0x3C ≤ s.cfg.bankSize ∧ ∃ t, exec i s = .next t) := by
  obtain ⟨body, hexec, hstops⟩ := exec_pinCommand_body (P := Stop.IsRaise)
    (fun err info => ⟨err, info, rfl⟩) hi
  rw [hexec]
  by_cases hb : 0x3C ≤ s.cfg.bankSize
  · exact .inr ⟨hb, pinCommand_next hb (hstops hb)⟩
  · exact .inl ⟨Nat.lt_of_not_le hb, pinCommand_refused hb⟩

/-! ### What a command is refused for, and that none faults -/

/-- `SPI.BUILD` makes no access and always ends with a response. -/
theorem exec_spiBuild_next (len : Word) (extra : BitVec 8) (tx rx delay speed : Word)
    (s : State) : ∃ t, exec (.spiBuild len extra tx rx delay speed) s = .next t := by
  show ∃ t, runOp (checkExtraBits extra >>= fun _ => _) s = .next t
  unfold checkExtraBits
  split
  next => exact ⟨_, runOp_raise rfl⟩
  next => exact ⟨_, runOp_ok rfl⟩

/-- Settles O19: the two outcomes of a pin command exclude each other. -/
theorem pinCommandsRefusedExactlyOnSmallBanks :
    Obligations.PinCommandsRefusedExactlyOnSmallBanks := by
  refine ⟨fun s pins codes values i r hi => ?_, fun s len extra tx rx delay speed r h => ?_⟩
  · have hpin : IsPinCommand i := by rcases hi with rfl | rfl | rfl | rfl <;> trivial
    rcases exec_pinCommand_cases hpin s with ⟨hsize, h⟩ | ⟨hsize, t, h⟩
    · rw [h]
      exact ⟨fun hr => ⟨by cases hr; rfl, hsize⟩, fun ⟨hr, _⟩ => hr ▸ rfl⟩
    · rw [h]
      exact ⟨fun hr => (nomatch hr), fun ⟨_, hsmall⟩ => absurd hsize (Nat.not_le.mpr hsmall)⟩
  · obtain ⟨t, ht⟩ := exec_spiBuild_next len extra tx rx delay speed s
    rw [ht] at h
    cases h

/-- A command whose pseudocode stops without a fault does not fault. -/
theorem runOp_ne_fault {op : Op (List Word)} {s : State}
    (h : Op.StopsOnly s.cfg.bankSize Stop.NoFault op) (f : Fault) : runOp op s ≠ .fault f := by
  intro hf
  obtain ⟨t, ht⟩ := runOp_fault hf
  exact h s _ t rfl ht f rfl

theorem raise_noFault (e : Err) (info : BitVec 8) : (Stop.raise e info).NoFault :=
  fun _ h => nomatch h

theorem refuse_noFault (r : Refusal) : (Stop.refuse r).NoFault :=
  fun _ h => nomatch h

/-- The elements `RAW.READ` reads are in the bank once its bounds are checked, and aligned once it
is admitted. -/
theorem exec_rawRead_ne_fault (offset count width : Word) (order : BitVec 8) (s : State)
    (f : Fault) : exec (.rawRead offset count width order) s ≠ .fault f :=
  runOp_ne_fault (.bind (checkRawArgs_reaches _ _) (checkRawArgs_stopsOnly raise_noFault _ _)
    fun (w, tag) _ _ _ _ => .bind (checkBounds_reaches _) (checkBounds_stopsOnly raise_noFault _)
      fun _ _ _ _ hbounds => .bind (admit_reaches _ _) (admitIf_stopsOnly (refuse_noFault _) _)
        fun _ _ _ _ hadmit => by
          have hin := of_checkBounds_ok hbounds
          have hal := of_admitIf_ok hadmit
          simp only [readInBounds, aligned, Bool.and_eq_true, decide_eq_true_eq] at hin hal
          exact .bind (update_reaches fun s => .of_work s _) (.update _) fun _ _ _ _ _ =>
            .bind (rawReadLoop_reaches _ _ _ _) (rawReadLoop_stopsOnly tag (by omega) hal)
              fun _ _ _ _ _ => returnRes_stopsOnly) f

/-- The first element `RAW.WRITE` writes is in the bank once its bounds are checked and aligned
once it is admitted; its loop checks the bounds of every other. -/
theorem exec_rawWrite_ne_fault (offset count width : Word) (order : BitVec 8)
    (values : List Word) (s : State) (f : Fault) :
    exec (.rawWrite offset count width order values) s ≠ .fault f :=
  runOp_ne_fault (.bind (checkRawArgs_reaches _ _) (checkRawArgs_stopsOnly raise_noFault _ _)
    fun (w, tag) _ _ _ _ => .bind (checkBounds_reaches _) (checkBounds_stopsOnly raise_noFault _)
      fun _ _ _ _ hbounds => .bind (admit_reaches _ _) (admitIf_stopsOnly (refuse_noFault _) _)
        fun _ _ _ _ hadmit => by
          have hin := of_checkBounds_ok hbounds
          have hal := of_admitIf_ok hadmit
          simp only [writeInBounds, aligned, Bool.and_eq_true, decide_eq_true_eq] at hin hal
          exact .bind (admit_reaches _ _) (admitIf_stopsOnly (refuse_noFault _) _)
            fun _ _ _ _ _ => .bind (rawWriteLoop_reaches _ _ _ _ _)
              (rawWriteLoop_stopsOnly raise_noFault tag _ values (by omega) hal)
              fun _ _ _ _ _ => .pure _) f

theorem exec_pinCommand_ne_fault {i : Instr} (hi : IsPinCommand i) (s : State) (f : Fault) :
    exec i s ≠ .fault f := by
  intro hf
  rcases exec_pinCommand_cases hi s with ⟨-, h⟩ | ⟨-, t, h⟩ <;> rw [h] at hf <;> cases hf

theorem exec_ne_fault (i : Instr) (s : State) (f : Fault) : exec i s ≠ .fault f := by
  cases i with
  | rawRead offset count width order => exact exec_rawRead_ne_fault offset count width order s f
  | rawWrite offset count width order values =>
    exact exec_rawWrite_ne_fault offset count width order values s f
  | fselGet | fselSet | dioRead | dioWrrb => exact exec_pinCommand_ne_fault (by trivial) s f
  | spiBuild len extraBits txbase rxbase delay speed =>
    obtain ⟨t, ht⟩ := exec_spiBuild_next len extraBits txbase rxbase delay speed s
    rw [ht]
    exact fun h => nomatch h

/-- Settles O15: a step waits or takes an event, runs a decoded command, or raises
`InvalidArgument`. -/
theorem noCommandFaults : Obligations.NoCommandFaults := by
  refine ⟨exec_ne_fault, fun s f => ?_⟩
  cases hs : s.seq with
  | idle =>
    rw [step_of_idle hs]
    exact fun h => nomatch h
  | busy =>
    cases hd : decode s.cmd with
    | ok i =>
      rw [step_of_decoded hs hd]
      exact exec_ne_fault i s f
    | error e =>
      rw [step_of_malformed hs hd]
      exact fun h => nomatch h

end Sys2Proof.Machine
end

section
/-! PROOFS. `DIO.WRRB` among other agents' writes (20_memory.md R66; 42_dio_batch.md R171, R176,
R177): the accesses it makes, what one write of a GPIO-kind bank does to one latch bit, and so what
a run of accesses does to it, with any environment and with one that spares the bit. -/

namespace Sys2Proof.Machine

/-! ### The accesses of `DIO.WRRB` -/

/-- The 4-byte writes of the masks that are not zero, in order. -/
def nonZeroWrites (ams : List (Nat × Word)) : List Access :=
  (ams.filter fun am => am.2 ≠ 0).map fun am => writeEntry am.1 am.2

theorem nonZeroWrites_cons (addr : Nat) (m : Word) (rest : List (Nat × Word)) :
    nonZeroWrites ((addr, m) :: rest) =
      (if m ≠ 0 then [writeEntry addr m] else []) ++ nonZeroWrites rest := by
  by_cases hm : m = 0#32 <;> simp [nonZeroWrites, hm]

/-- The masks of a batch, each with the offset it is written to (42_dio_batch.md R171, R173). -/
def batchMasks (pvs : List (Pin × Option Bool)) : List (Nat × Word) :=
  [(setOffset 0, batchLevelMask true 0 pvs), (setOffset 1, batchLevelMask true 1 pvs),
    (clrOffset 0, batchLevelMask false 0 pvs), (clrOffset 1, batchLevelMask false 1 pvs)]

theorem batchLevelWrites_eq (pvs : List (Pin × Option Bool)) :
    batchLevelWrites pvs = nonZeroWrites (batchMasks pvs) := rfl

/-- The accesses of a `DIO.WRRB` whose snapshot reads return `v0` and `v1` (42_dio_batch.md
R171). -/
def batchAccesses (v0 v1 : Word) (pvs : List (Pin × Option Bool)) : List Access :=
  [readEntry 0x34 v0, readEntry 0x38 v1] ++ batchLevelWrites pvs

@[simp] theorem length_batchAccesses (v0 v1 : Word) (pvs : List (Pin × Option Bool)) :
    (batchAccesses v0 v1 pvs).length = dioWrrbAccesses pvs := by
  simp only [batchAccesses, dioWrrbAccesses, List.length_append]
  rfl

/-- Step 4 of `DIO.WRRB`: the writes of the non-zero masks, in order. -/
theorem applyLevels_spec {s : State} (hb : 0x3C ≤ s.cfg.bankSize) :
    ∃ t, applyLevels s = .ok () t ∧ SameControl s t ∧ t.work = s.work ∧ t.draws = s.draws ∧
      t.trace = s.trace ++ nonZeroWrites
        [(setOffset 0, s.work.sm[(0 : Fin 2)]), (setOffset 1, s.work.sm[(1 : Fin 2)]),
          (clrOffset 0, s.work.cm[(0 : Fin 2)]), (clrOffset 1, s.work.cm[(1 : Fin 2)])] := by
  obtain ⟨t1, h1, hc1, hw1, hd1, ht1, -⟩ := unlessZero_spec hb (setOffset_legal 0).1
    (setOffset_legal 0).2 s.work.sm[(0 : Fin 2)]
  obtain ⟨t2, h2, hc2, hw2, hd2, ht2, -⟩ := unlessZero_spec (s := t1) (hc1.cfg ▸ hb)
    (setOffset_legal 1).1 (setOffset_legal 1).2 s.work.sm[(1 : Fin 2)]
  obtain ⟨t3, h3, hc3, hw3, hd3, ht3, -⟩ := unlessZero_spec (s := t2)
    ((hc1.trans hc2).cfg ▸ hb) (clrOffset_legal 0).1 (clrOffset_legal 0).2 s.work.cm[(0 : Fin 2)]
  obtain ⟨t4, h4, hc4, hw4, hd4, ht4, -⟩ := unlessZero_spec (s := t3)
    (((hc1.trans hc2).trans hc3).cfg ▸ hb) (clrOffset_legal 1).1 (clrOffset_legal 1).2
    s.work.cm[(1 : Fin 2)]
  refine ⟨t4, ?_, ((hc1.trans hc2).trans hc3).trans hc4, hw4.trans (hw3.trans (hw2.trans hw1)),
    hd4.trans (hd3.trans (hd2.trans hd1)), ?_⟩
  · unfold applyLevels
    rw [Op.bind_ok (readState_run s)]
    exact (Op.bind_ok h1).trans ((Op.bind_ok h2).trans ((Op.bind_ok h3).trans h4))
  · rw [ht4, ht3, ht2, ht1]
    simp only [nonZeroWrites_cons, List.append_assoc]
    rw [show nonZeroWrites [] = [] from rfl, List.append_nil]

/-- `DIO.WRRB` with a value for every pin: the two snapshot reads, the writes of the non-zero
masks, and the levels of the snapshot as results. -/
theorem dioWrrb_spec {s : State} (ps : List Pin) {values : List (Option Bool)}
    (hb : 0x3C ≤ s.cfg.bankSize) (hl : ps.length ≤ values.length) :
    ∃ (t : State) (v0 v1 : Word), exec (.dioWrrb (ps.map pinWord) values) s = .next t ∧
      [v0, v1] = s.readsAt .w4 [0x34, 0x38] ∧
      Ended s (okResponse (ps.map (snapshotLevel v0 v1))) t ∧
      t.trace = s.trace ++ batchAccesses v0 v1 (ps.zip values) := by
  obtain ⟨t1, v0, v1, h1, hc1, -, ht1, hw1, hread, -⟩ := loadSnapl_spec hb
  obtain ⟨t2, hscan, he2, hsm, hcm⟩ := scanLevels_spec ps values t1.clearDioMasks.clearRes
  obtain ⟨h2, hres⟩ : scanLevels ps values t1.clearDioMasks.clearRes = .ok () t2 ∧
      t2.work.res = ps.map (snapshotLevel v0 v1) := by
    rcases hscan with ⟨-, h2, hres⟩ | ⟨hlt, -⟩
    · have hsnap : t1.clearDioMasks.clearRes.work.snapl = #v[v0, v1] := by simp [hw1]
      refine ⟨h2, hres.trans ?_⟩
      simp only [hsnap, levelAt_snapshot]
      rfl
    · omega
  have hc2 : SameControl s t2 := by
    rw [he2]
    exact ⟨hc1.cfg, hc1.seq, hc1.cmd, hc1.inbox, hc1.outbox⟩
  obtain ⟨t3, h3, hc3, hw3, -, ht3⟩ := applyLevels_spec (s := t2) (hc2.cfg ▸ hb)
  refine ⟨t3.respondOk t3.work.res, v0, v1, runOp_ok ?_, hread, ?_, ?_⟩
  · rw [Op.bind_ok (requirePinBank_ok hb), checkPins_pinWords, pure_bind, Op.bind_ok h1,
      Op.bind_ok (update_run _ _), Op.bind_ok (update_run _ _), Op.bind_ok h2, Op.bind_ok h3]
    rfl
  · rw [hw3, hres]
    exact (hc2.trans hc3).ended _
  · have htrace2 : t2.trace = t1.trace := by rw [he2]; rfl
    have hmasks : ∀ r : Fin 2, t2.work.sm[r] = batchLevelMask true r (ps.zip values) ∧
        t2.work.cm[r] = batchLevelMask false r (ps.zip values) := by
      intro r
      rw [hsm, hcm]
      match r with
      | 0 => simp
      | 1 => simp
    rw [State.respondOk_trace, ht3, htrace2, ht1, batchAccesses, batchLevelWrites_eq,
      List.append_assoc, (hmasks 0).1, (hmasks 0).2, (hmasks 1).1, (hmasks 1).2]
    rfl

/-! ### One latch bit under a write of a GPIO-kind bank -/

/-- A pin's latch bit `b` after a write of element `v` at `addr` of a GPIO-kind bank
(10_state.md R30, R31): the other bits and registers have no part in it. -/
def drivenBit (native : ByteOrder) (addr : Nat) (w : AccessWidth) (v : Word) (q : Pin)
    (b : Bool) : Bool :=
  let hit (r : Fin 2) : Bool :=
    decide (r = bitReg q) && (placeLanes native (addr % 4) w v).getLsbD (q.val % 32)
  match gpioRegAt (addr - addr % 4) with
  | .set r => b || hit r
  | .clr r => b && !hit r
  | .fsel _ | .lev _ | .unnamed => b

theorem getLsbD_validMask (q : Pin) : (validMask (bitReg q)).getLsbD (q.val % 32) = true := by
  revert q
  decide

theorem latchBit_setOutv (s : State) (r : Fin 2) (v : Word) (q : Pin) :
    (s.setOutv r v).latchBit q =
      if r = bitReg q then v.getLsbD (q.val % 32) else s.latchBit q := by
  simp only [State.latchBit, State.setOutv_outv, Fin.getElem_fin, Vector.getElem_set, Fin.ext_iff]
  split <;> rfl

theorem bankWrite_latchBit {s : State} (hk : s.cfg.kind = .gpio) (addr : Nat) (w : AccessWidth)
    (v : Word) (q : Pin) : (s.bankWrite addr w v).latchBit q =
      drivenBit s.cfg.native addr w v q (s.latchBit q) := by
  have hlt : q.val % 32 < 32 := Nat.mod_lt _ (by decide)
  simp only [State.bankWrite, hk, drivenBit]
  cases gpioRegAt (addr - addr % 4) with
  | fsel | lev | unnamed => rfl
  | set r =>
    simp only [State.gpioWrite, latchBit_setOutv]
    split
    next hr =>
      subst hr
      simp only [BitVec.getLsbD_or, BitVec.getLsbD_and, getLsbD_validMask, State.latchBit,
        decide_true, Bool.true_and, Bool.and_true]
    next hr => simp [hr]
  | clr r =>
    simp only [State.gpioWrite, latchBit_setOutv]
    split
    next hr =>
      subst hr
      simp only [BitVec.getLsbD_and, BitVec.getLsbD_not, getLsbD_validMask, State.latchBit, hlt,
        decide_true, Bool.true_and, Bool.and_true]
    next hr => simp [hr]

theorem drivenBit_set (native : ByteOrder) (r : Fin 2) (m : Word) (q : Pin) (b : Bool) :
    drivenBit native (setOffset r) .w4 m q b =
      (b || (decide (r = bitReg q) && m.getLsbD (q.val % 32))) := by
  have h4 := (setOffset_legal r).2
  simp only [drivenBit, h4, Nat.sub_zero, gpioRegAt_setOffset, placeLanes_w4]

theorem drivenBit_clr (native : ByteOrder) (r : Fin 2) (m : Word) (q : Pin) (b : Bool) :
    drivenBit native (clrOffset r) .w4 m q b =
      (b && !(decide (r = bitReg q) && m.getLsbD (q.val % 32))) := by
  have h4 := (clrOffset_legal r).2
  simp only [drivenBit, h4, Nat.sub_zero, gpioRegAt_clrOffset, placeLanes_w4]

/-! ### The bits of a batch's masks -/

theorem getLsbD_orOver (ws : List Word) (i : Nat) :
    (orOver ws).getLsbD i = ws.any fun v => v.getLsbD i := by
  induction ws with
  | nil => simp [orOver]
  | cons v vs ih => simpa [orOver] using congrArg (v.getLsbD i || ·) ih

/-- A pin is the one at its place in its register. -/
theorem pin_ext {p q : Pin} (hr : bitReg p = bitReg q) (hb : p.val % 32 = q.val % 32) : p = q := by
  have hr' : p.val / 32 = q.val / 32 := congrArg Fin.val hr
  exact Fin.ext (by omega)

/-- A pin's bit in `SM` or `CM` says whether the batch gives it that level (42_dio_batch.md
R172). -/
theorem getLsbD_batchLevelMask (level : Bool) (r : Fin 2) (pvs : List (Pin × Option Bool))
    (q : Pin) (hr : r = bitReg q) :
    (batchLevelMask level r pvs).getLsbD (q.val % 32) = decide ((q, some level) ∈ pvs) := by
  have hlt : q.val % 32 < 32 := Nat.mod_lt _ (by decide)
  have hbit : ∀ p : Pin, ((1 : Word) <<< (p.val % 32)).getLsbD (q.val % 32) = true ↔
      p.val % 32 = q.val % 32 := by
    intro p
    simp only [BitVec.ofNat_eq_ofNat, BitVec.getLsbD_shiftLeft, hlt, BitVec.getLsbD_one]
    grind
  subst hr
  rw [Bool.eq_iff_iff, batchLevelMask, getLsbD_orOver]
  simp only [List.any_map, List.any_eq_true, List.mem_filter, Function.comp_apply, hbit,
    Bool.and_eq_true, decide_eq_true_eq]
  constructor
  · rintro ⟨⟨p, v⟩, ⟨hmem, hreg, hv⟩, hb⟩
    dsimp only at hreg hv hb
    subst hv
    exact pin_ext hreg hb ▸ hmem
  · exact fun hmem => ⟨(q, some level), ⟨hmem, rfl, rfl⟩, rfl⟩

/-! ### Banks that agree on some latch bits -/

/-- `t` agrees with `s` on the latch bits of the pins in `Q` and on all else that a write of a
GPIO-kind bank or the environment looks at. -/
structure AlikeOn (Q : Pin → Prop) (s t : State) : Prop where
  cfg : t.cfg = s.cfg
  env : t.env = s.env
  fselv : t.fselv = s.fselv
  mem : t.mem = s.mem
  latch : ∀ q, Q q → t.latchBit q = s.latchBit q

section Alike

variable {Q : Pin → Prop} {s t u : State}

theorem AlikeOn.refl (s : State) : AlikeOn Q s s := ⟨rfl, rfl, rfl, rfl, fun _ _ => rfl⟩

theorem AlikeOn.trans (h : AlikeOn Q s t) (k : AlikeOn Q t u) : AlikeOn Q s u :=
  ⟨k.cfg.trans h.cfg, k.env.trans h.env, k.fselv.trans h.fselv, k.mem.trans h.mem,
    fun q hq => (k.latch q hq).trans (h.latch q hq)⟩

theorem SameForBank.alikeOn (h : SameForBank s t) : AlikeOn Q s t :=
  ⟨h.cfg, h.env, h.bank.fselv, h.bank.mem, fun q _ => by simp only [State.latchBit, h.bank.outv]⟩

theorem bankWrite_mem_of_gpio (hk : s.cfg.kind = .gpio) (addr : Nat) (w : AccessWidth)
    (v : Word) : (s.bankWrite addr w v).mem = s.mem := by
  simp only [State.bankWrite, hk, State.gpioWrite_mem]

/-- A write acts on each latch bit by itself, so it keeps the agreement. -/
theorem bankWrite_alikeOn (hk : s.cfg.kind = .gpio) (h : AlikeOn Q s t) (addr : Nat)
    (w : AccessWidth) (v : Word) : AlikeOn Q (s.bankWrite addr w v) (t.bankWrite addr w v) where
  cfg := by simpa using h.cfg
  env := by simpa using h.env
  mem := by
    rw [bankWrite_mem_of_gpio hk, bankWrite_mem_of_gpio (h.cfg ▸ hk), h.mem]
  fselv := by
    simp only [State.bankWrite, h.cfg, hk]
    cases gpioRegAt (addr - addr % 4) with
    | fsel n => simp only [State.gpioWrite, State.setFselv_fselv, h.fselv, h.cfg]
    | set | clr | lev | unnamed => exact h.fselv
  latch q hq := by
    rw [bankWrite_latchBit hk, bankWrite_latchBit (h.cfg ▸ hk), h.latch q hq, h.cfg]

theorem envWrite_alikeOn (hk : s.cfg.kind = .gpio) (h : AlikeOn Q s t) (e : EnvWrite) :
    AlikeOn Q (s.envWrite e) (t.envWrite e) := by
  unfold State.envWrite State.inBank
  rw [h.cfg]
  split
  · exact bankWrite_alikeOn hk h _ _ _
  · exact h

theorem envWrites_alikeOn (hk : s.cfg.kind = .gpio) (h : AlikeOn Q s t) (gap : List EnvWrite) :
    AlikeOn Q (s.envWrites gap) (t.envWrites gap) := by
  induction gap generalizing s t with
  | nil => exact h
  | cons e es ih => exact ih (by simpa using hk) (envWrite_alikeOn hk h e)

theorem envTurn_alikeOn (hk : s.cfg.kind = .gpio) (h : AlikeOn Q s t) :
    AlikeOn Q s.envTurn t.envTurn := by
  unfold State.envTurn
  rw [h.env]
  split
  · exact h
  next gap rest _ =>
    exact envWrites_alikeOn (s := { s with env := rest }) (t := { t with env := rest }) hk
      ⟨h.cfg, rfl, h.fselv, h.mem, h.latch⟩ gap

/-- Accesses that leave the bits of `Q` alone leave them as the environment alone would. -/
theorem afterAccesses_alikeOn (made : List Access) (hk : s.cfg.kind = .gpio)
    (hmade : ∀ a ∈ made, a.kind = .write → ∀ x : State, x.cfg.kind = .gpio →
      AlikeOn Q x (x.bankWrite a.addr a.width a.value)) (h : AlikeOn Q s t) :
    AlikeOn Q (State.envTurns made.length s) (t.afterAccesses made) := by
  induction made generalizing s t with
  | nil => exact h
  | cons a rest ih =>
    have hturn := envTurn_alikeOn hk h
    have hrest : ∀ a ∈ rest, a.kind = .write → ∀ x : State, x.cfg.kind = .gpio →
        AlikeOn Q x (x.bankWrite a.addr a.width a.value) :=
      fun a ha => hmade a (List.mem_cons_of_mem _ ha)
    simp only [List.length_cons, State.envTurns, State.afterAccesses]
    cases ha : a.kind with
    | read => exact ih (by simpa using hk) hrest hturn
    | write =>
      exact ih (by simpa using hk) hrest (hturn.trans
        (hmade a List.mem_cons_self ha _ (by simpa [h.cfg] using hk)))

/-- A write to a set or clear register of a mask without the bits of `Q`. -/
theorem maskWrite_alikeOn (hk : s.cfg.kind = .gpio) {addr : Nat} {r : Fin 2}
    (haddr : addr = setOffset r ∨ addr = clrOffset r) {m : Word}
    (hm : ∀ q, Q q → r = bitReg q → m.getLsbD (q.val % 32) = false) :
    AlikeOn Q s (s.bankWrite addr .w4 m) where
  cfg := by simp
  env := by simp
  mem := bankWrite_mem_of_gpio hk _ _ _
  fselv := by
    rcases haddr with rfl | rfl
    · rw [bankWrite_gpio_w4 hk (setOffset_legal r).2, gpioRegAt_setOffset]
      rfl
    · rw [bankWrite_gpio_w4 hk (clrOffset_legal r).2, gpioRegAt_clrOffset]
      rfl
  latch q hq := by
    have hmiss : (decide (r = bitReg q) && m.getLsbD (q.val % 32)) = false := by
      by_cases hr : r = bitReg q
      · rw [hm q hq hr, Bool.and_false]
      · simp [hr]
    rw [bankWrite_latchBit hk]
    rcases haddr with rfl | rfl
    · rw [drivenBit_set, hmiss, Bool.or_false]
    · rw [drivenBit_clr, hmiss, Bool.not_false, Bool.and_true]

end Alike

/-- A set or clear write of a batch is the write of one of its masks to that mask's register. -/
theorem mem_batchLevelWrites {a : Access} {pvs : List (Pin × Option Bool)}
    (h : a ∈ batchLevelWrites pvs) : ∃ (level : Bool) (r : Fin 2),
      a = writeEntry (if level then setOffset r else clrOffset r) (batchLevelMask level r pvs) := by
  rw [batchLevelWrites_eq, nonZeroWrites, List.mem_map] at h
  obtain ⟨am, ham, rfl⟩ := h
  have hmem := List.mem_of_mem_filter ham
  simp only [batchMasks, List.mem_cons, List.not_mem_nil, or_false] at hmem
  rcases hmem with rfl | rfl | rfl | rfl
  · exact ⟨true, 0, rfl⟩
  · exact ⟨true, 1, rfl⟩
  · exact ⟨false, 0, rfl⟩
  · exact ⟨false, 1, rfl⟩

/-- The pins a batch gives no level (42_dio_batch.md R172). -/
def NoLevel (pvs : List (Pin × Option Bool)) (q : Pin) : Prop := ∀ v, (q, some v) ∉ pvs

/-- The accesses of `DIO.WRRB` leave the latch bits of all pins without a level, the function
selects and memory as the environment alone would. -/
theorem afterBatch_alikeOn {s : State} (hk : s.cfg.kind = .gpio) (v0 v1 : Word)
    (pvs : List (Pin × Option Bool)) :
    AlikeOn (NoLevel pvs) (State.envTurns (dioWrrbAccesses pvs) s)
      (s.afterAccesses (batchAccesses v0 v1 pvs)) := by
  rw [← length_batchAccesses v0 v1]
  refine afterAccesses_alikeOn _ hk (fun a ha hw x hx => ?_) (.refl s)
  rcases List.mem_append.mp ha with ha | ha
  · simp only [List.mem_cons, List.not_mem_nil, or_false] at ha
    rcases ha with rfl | rfl <;> cases hw
  · obtain ⟨level, r, rfl⟩ := mem_batchLevelWrites ha
    refine maskWrite_alikeOn (r := r) hx ?_ fun q hq hr => ?_
    · cases level
      · exact .inr rfl
      · exact .inl rfl
    · show (batchLevelMask level r pvs).getLsbD (q.val % 32) = false
      rw [getLsbD_batchLevelMask level r pvs q hr, decide_eq_false_iff_not]
      exact hq level

/-! ### A latch bit that the environment spares -/

theorem envWrites_latchBit {s : State} {q : Pin} {gap : List EnvWrite}
    (h : ∀ e ∈ gap, ∀ x : State, x.cfg = s.cfg → (x.envWrite e).latchBit q = x.latchBit q) :
    (s.envWrites gap).latchBit q = s.latchBit q := by
  induction gap generalizing s with
  | nil => rfl
  | cons e es ih =>
    have hes := ih (s := s.envWrite e) fun e' he' x hx =>
      h e' (List.mem_cons_of_mem _ he') x (by simpa using hx)
    exact hes.trans (h e List.mem_cons_self s rfl)

/-- The environment's next turn leaves a spared bit alone. -/
theorem envTurn_latchBit {s : State} {q : Pin} {n : Nat} (h : s.EnvSpares (n + 1) q) :
    s.envTurn.latchBit q = s.latchBit q := by
  unfold State.envTurn
  split
  next => rfl
  next gap rest henv =>
    exact envWrites_latchBit (s := { s with env := rest }) (h gap (by simp [henv]))

/-- A bit spared for a while is spared for the rest of it. -/
theorem envSpares_tail {s t : State} {q : Pin} {n : Nat} (h : s.EnvSpares (n + 1) q)
    (hc : t.cfg = s.cfg) (he : t.env = s.env.tail) : t.EnvSpares n q := by
  intro gap hgap e hmem x hx
  refine h gap ?_ e hmem x (hx.trans hc)
  rw [he] at hgap
  cases henv : s.env <;> simp_all

/-- One latch bit after one traced access. -/
def Access.drive (native : ByteOrder) (q : Pin) (b : Bool) (a : Access) : Bool :=
  match a.kind with
  | .read => b
  | .write => drivenBit native a.addr a.width a.value q b

/-- Where the environment spares a bit, the accesses alone drive it. -/
theorem afterAccesses_latchBit {s : State} {q : Pin} (made : List Access)
    (hk : s.cfg.kind = .gpio) (h : s.EnvSpares made.length q) :
    (s.afterAccesses made).latchBit q =
      made.foldl (Access.drive s.cfg.native q) (s.latchBit q) := by
  induction made generalizing s with
  | nil => rfl
  | cons a rest ih =>
    have hturn := envTurn_latchBit h
    simp only [State.afterAccesses, List.foldl_cons, Access.drive]
    cases a.kind with
    | read =>
      dsimp only
      rw [ih (by simpa using hk) (envSpares_tail h (by simp) (by simp)), hturn, State.envTurn_cfg]
    | write =>
      dsimp only
      rw [ih (by simpa using hk) (envSpares_tail h (by simp) (by simp)),
        bankWrite_latchBit (by simpa using hk), hturn, State.bankWrite_cfg, State.envTurn_cfg]

/-- A mask that is zero would drive no bit, so leaving it out changes nothing. -/
theorem foldl_drive_nonZeroWrites (native : ByteOrder) (q : Pin) (ams : List (Nat × Word))
    (b : Bool) : (nonZeroWrites ams).foldl (Access.drive native q) b =
      ams.foldl (fun b am => drivenBit native am.1 .w4 am.2 q b) b := by
  induction ams generalizing b with
  | nil => rfl
  | cons am rest ih =>
    obtain ⟨addr, m⟩ := am
    rw [nonZeroWrites_cons, List.foldl_append, ih, List.foldl_cons]
    congr 1
    split
    next => rfl
    next hm =>
      obtain rfl : m = 0 := not_not.mp hm
      have hz : ∀ j, placeLanes native j .w4 0 = 0 := by simp [placeLanes]
      simp only [drivenBit, hz]
      split <;> simp

/-- A pin's latch bit after the accesses of `DIO.WRRB` that no other agent disturbs: the clear
masks come last, so a clear wins (42_dio_batch.md R176, R177). -/
theorem foldl_drive_batch (native : ByteOrder) (q : Pin) (v0 v1 : Word)
    (pvs : List (Pin × Option Bool)) (b : Bool) :
    (batchAccesses v0 v1 pvs).foldl (Access.drive native q) b =
      if (q, some false) ∈ pvs then false else if (q, some true) ∈ pvs then true else b := by
  rw [batchAccesses, List.foldl_append, batchLevelWrites_eq, foldl_drive_nonZeroWrites]
  simp only [batchMasks, List.foldl_cons, List.foldl_nil, Access.drive, readEntry, drivenBit_set,
    drivenBit_clr]
  have hmask := fun level => getLsbD_batchLevelMask level _ pvs q rfl
  match hr : bitReg q with
  | 0 | 1 =>
    simp only [hr] at hmask
    by_cases hf : (q, some false) ∈ pvs <;> by_cases ht : (q, some true) ∈ pvs <;>
      simp [hmask, hf, ht]

/-- Settles O51: the bank is what the traced accesses leave (`exec_accesses`), and these act on each
latch bit by itself. -/
theorem dioWrrbIsAtomicPerBit : Obligations.DioWrrbIsAtomicPerBit := by
  rintro s e ps values hk hb hl rfl
  obtain ⟨t, v0, v1, hexec, -, -, htrace⟩ := dioWrrb_spec ps hb hl
  obtain ⟨made, hmade, -, hbank⟩ := exec_accesses hexec
  obtain rfl := List.append_cancel_left (hmade.symm.trans htrace)
  have halike := (afterBatch_alikeOn hk v0 v1 (ps.zip values)).trans hbank.alikeOn
  refine ⟨t, hexec, halike.latch, fun q hspare => ?_, halike.fselv, halike.mem⟩
  have hsame : t.latchBit q = _ := hbank.alikeOn.latch (Q := fun _ => True) q trivial
  rw [hsame, afterAccesses_latchBit _ hk (by rwa [length_batchAccesses]), foldl_drive_batch]

end Sys2Proof.Machine
end

section
/-! PROOFS. Command words and commands (30_encoding.md R91 to R99, R103, R104): what each format's
decoder accepts, the words that spell a command, and so the decoder and the encoder in both
directions; and the length that makes a command well formed. -/

namespace Sys2Proof

/-! ### What a format's decoder accepts, and what it makes of it -/

/-- A count word says a sequence's length exactly when the length fits and the word is the one the
encoder writes. -/
theorem length_eq_toNat_iff {α : Type} {xs : List α} {n : Word} :
    xs.length = n.toNat ↔ countFits xs = true ∧ n = countWord xs := by
  constructor
  · intro h
    exact ⟨decide_eq_true (h ▸ n.isLt),
      by rw [countWord, h, BitVec.ofNat_toNat, BitVec.setWidth_eq]⟩
  · rintro ⟨hfits, rfl⟩
    exact (Laws.EncodeShape.countWord_toNat hfits).symm

theorem countFits_map {α β : Type} (f : α → β) (xs : List α) :
    countFits (xs.map f) = countFits xs := by
  rw [countFits, countFits, List.length_map]

theorem countWord_map {α β : Type} (f : α → β) (xs : List α) :
    countWord (xs.map f) = countWord xs := by
  rw [countWord, countWord, List.length_map]

theorem decodeP_eq_ok_iff {body pins : List Word} :
    decodeP body = .ok pins ↔ countFits pins = true ∧ body = countWord pins :: pins := by
  match body with
  | [] => simp [decodeP]
  | np :: ps =>
    simp only [decodeP, ite_eq_iff, length_eq_toNat_iff, Except.ok.injEq, List.cons.injEq,
      reduceCtorEq, and_false, or_false]
    constructor
    · rintro ⟨⟨hfits, hnp⟩, rfl⟩
      exact ⟨hfits, hnp, rfl⟩
    · rintro ⟨hfits, hnp, rfl⟩
      exact ⟨⟨hfits, hnp⟩, rfl⟩

theorem decodePairs_eq_ok_iff {body ps os : List Word} :
    decodePairs body = .ok (ps, os) ↔
      (countFits ps = true ∧ countFits os = true) ∧
        body = countWord ps :: countWord os :: (ps ++ os) := by
  constructor
  · intro h
    unfold decodePairs at h
    split at h
    next np nc ops =>
      split at h <;> cases h
      next hlen =>
        have hps : (ops.take np.toNat).length = np.toNat := by rw [List.length_take]; omega
        have hos : (ops.drop np.toNat).length = nc.toNat := by rw [List.length_drop]; omega
        obtain ⟨hfp, hnp⟩ := length_eq_toNat_iff.mp hps
        obtain ⟨hfo, hnc⟩ := length_eq_toNat_iff.mp hos
        exact ⟨⟨hfp, hfo⟩, by rw [← hnp, ← hnc, List.take_append_drop]⟩
    next => cases h
  · rintro ⟨⟨hfp, hfo⟩, rfl⟩
    simp [decodePairs, Laws.EncodeShape.countWord_toNat, hfp, hfo]

theorem decodeR_eq_ok_iff {h : Word} {body : List Word} {i : Instr} :
    decodeR h body = .ok i ↔ ∃ offset count, body = [offset, count] ∧
      i = .rawRead offset count ((fieldA h).setWidth 32) (fieldB h) := by
  constructor
  · intro hd
    unfold decodeR at hd
    split at hd <;> cases hd
    exact ⟨_, _, rfl, rfl⟩
  · rintro ⟨offset, count, rfl, rfl⟩
    rfl

theorem decodeRW_eq_ok_iff {h : Word} {body : List Word} {i : Instr} :
    decodeRW h body = .ok i ↔ ∃ offset count values, countFits values = true ∧
      body = offset :: count :: countWord values :: values ∧
      i = .rawWrite offset count ((fieldA h).setWidth 32) (fieldB h) values := by
  constructor
  · intro hd
    unfold decodeRW at hd
    split at hd
    next offset count nv values =>
      split at hd <;> cases hd
      next hlen =>
        obtain ⟨hfits, hnv⟩ := length_eq_toNat_iff.mp hlen
        exact ⟨offset, count, values, hfits, by rw [hnv], rfl⟩
    next => cases hd
  · rintro ⟨offset, count, values, hfits, rfl, rfl⟩
    simp [decodeRW, Laws.EncodeShape.countWord_toNat hfits]

theorem decodeS_eq_ok_iff {h : Word} {body : List Word} {i : Instr} :
    decodeS h body = .ok i ↔ ∃ len txbase rxbase delay speed,
      body = [len, txbase, rxbase, delay, speed] ∧
      i = .spiBuild len (fieldA h) txbase rxbase delay speed := by
  constructor
  · intro hd
    unfold decodeS at hd
    split at hd <;> cases hd
    exact ⟨_, _, _, _, _, rfl, rfl⟩
  · rintro ⟨len, txbase, rxbase, delay, speed, rfl, rfl⟩
    rfl

theorem requireZeroAB_map_eq_ok_iff {α β : Type} {h : Word} {k : Except DecodeError α}
    {f : α → β} {y : β} : requireZeroAB h (k.map f) = .ok y ↔
      fieldA h = 0 ∧ fieldB h = 0 ∧ ∃ x, k = .ok x ∧ f x = y := by
  cases k <;> simp [requireZeroAB, Except.map, ite_eq_iff]

theorem requireZeroAB_header_map_eq_ok_iff {α β : Type} {o a b : BitVec 8}
    {k : Except DecodeError α} {f : α → β} {y : β} :
    requireZeroAB (header o a b) (k.map f) = .ok y ↔ a = 0 ∧ b = 0 ∧ ∃ x, k = .ok x ∧ f x = y := by
  rw [requireZeroAB_map_eq_ok_iff, fieldA_header, fieldB_header]

theorem decode_cons_eq_ok_iff {h : Word} {body : List Word} {i : Instr} :
    decode (h :: body) = .ok i ↔ ∃ op, opcodeOf (fieldOpc h) = some op ∧ fieldRsv h = 0 ∧
      decodeBody op h body = .ok i := by
  simp only [decode]
  split
  next ho => simp [ho]
  next op ho => simp [ho, ite_eq_iff]

/-! ### The words that spell a command -/

/-- The words the decoder reads as the command: its encoding, but that any word may stand for an
optional bool of `DIO.WRRB` that R98 reads as it. -/
def Instr.SpelledBy (ws : List Word) : Instr → Prop
  | .dioWrrb pins values => ∃ vals, values = vals.map decodeOptBool ∧
      ws = header Opcode.dioWrrb.code 0 0 :: countWord pins :: countWord values :: (pins ++ vals)
  | i => ws = encode i

theorem decodeOptBool_encodeOptBool : ∀ v : Option Bool, decodeOptBool (encodeOptBool v) = v := by
  decide

theorem spelledBy_encode (i : Instr) : i.SpelledBy (encode i) := by
  cases i with
  | dioWrrb pins values =>
    have hvalues : (values.map encodeOptBool).map decodeOptBool = values := by
      simp [Function.comp_def, decodeOptBool_encodeOptBool]
    exact ⟨values.map encodeOptBool, hvalues.symm, rfl⟩
  | _ => rfl

/-- Every spelling of a command is as long as its encoding. -/
theorem Instr.SpelledBy.length {i : Instr} {ws : List Word} (h : i.SpelledBy ws) :
    (encode i).length = ws.length := by
  cases i with
  | dioWrrb pins values =>
    obtain ⟨vals, rfl, rfl⟩ := h
    simp [encode]
  | _ => exact congrArg List.length h.symm

theorem widthFits_setWidth (a : BitVec 8) : widthFits (a.setWidth 32) = true := by
  have := a.isLt
  simp only [widthFits, BitVec.toNat_setWidth, decide_eq_true_eq]
  omega

theorem setWidth_setWidth_of_widthFits {width : Word} (h : widthFits width = true) :
    (width.setWidth 8).setWidth 32 = width := by
  simp only [widthFits, decide_eq_true_eq] at h
  exact BitVec.eq_of_toNat_eq (by simp only [BitVec.toNat_setWidth]; omega)

/-- The decoder makes an expressible command of words only if they spell it. -/
theorem spelledBy_of_decodeBody {op : Opcode} {a b : BitVec 8} {body : List Word} {i : Instr}
    (h : decodeBody op (header op.code a b) body = .ok i) :
    i.wellFormed = true ∧ i.SpelledBy (header op.code a b :: body) := by
  cases op with
  | rawRead =>
    obtain ⟨offset, count, rfl, rfl⟩ := decodeR_eq_ok_iff.mp h
    simp [Instr.wellFormed, widthFits_setWidth, Instr.SpelledBy, encode]
  | rawWrite =>
    obtain ⟨offset, count, values, hfits, rfl, rfl⟩ := decodeRW_eq_ok_iff.mp h
    simp [Instr.wellFormed, widthFits_setWidth, hfits, Instr.SpelledBy, encode]
  | fselGet | dioRead =>
    obtain ⟨rfl, rfl, pins, hpins, rfl⟩ := requireZeroAB_header_map_eq_ok_iff.mp h
    obtain ⟨hfits, rfl⟩ := decodeP_eq_ok_iff.mp hpins
    exact ⟨hfits, rfl⟩
  | fselSet =>
    obtain ⟨rfl, rfl, ⟨pins, codes⟩, hpairs, rfl⟩ := requireZeroAB_header_map_eq_ok_iff.mp h
    obtain ⟨hfits, rfl⟩ := decodePairs_eq_ok_iff.mp hpairs
    exact ⟨Bool.and_eq_true_iff.mpr hfits, rfl⟩
  | dioWrrb =>
    obtain ⟨rfl, rfl, ⟨pins, vals⟩, hpairs, rfl⟩ := requireZeroAB_header_map_eq_ok_iff.mp h
    obtain ⟨hfits, rfl⟩ := decodePairs_eq_ok_iff.mp hpairs
    refine ⟨?_, vals, rfl, ?_⟩
    · rw [Instr.wellFormed, countFits_map]
      exact Bool.and_eq_true_iff.mpr hfits
    · rw [countWord_map]
  | spiBuild =>
    simp only [decodeBody, fieldB_header] at h
    split at h
    next => cases h
    next hb =>
      obtain rfl := not_not.mp hb
      obtain ⟨len, txbase, rxbase, delay, speed, rfl, rfl⟩ := decodeS_eq_ok_iff.mp h
      simp [Instr.wellFormed, Instr.SpelledBy, encode]

theorem decode_header_cons (op : Opcode) (a b : BitVec 8) (body : List Word) :
    decode (header op.code a b :: body) = decodeBody op (header op.code a b) body := by
  simp [decode]

/-- The decoder reads an expressible command off each of its spellings. -/
theorem decode_of_spelledBy {i : Instr} {ws : List Word} (hw : i.wellFormed = true)
    (h : i.SpelledBy ws) : decode ws = .ok i := by
  cases i with
  | rawRead offset count width order =>
    obtain rfl := h
    rw [encode, decode_header_cons]
    simp [decodeBody, decodeR, setWidth_setWidth_of_widthFits hw]
  | rawWrite offset count width order values =>
    obtain rfl := h
    obtain ⟨hwidth, hfits⟩ := Bool.and_eq_true_iff.mp hw
    rw [encode, decode_header_cons]
    refine decodeRW_eq_ok_iff.mpr ⟨offset, count, values, hfits, rfl, ?_⟩
    simp [setWidth_setWidth_of_widthFits hwidth]
  | fselGet pins | dioRead pins =>
    obtain rfl := h
    rw [encode, decode_header_cons]
    exact requireZeroAB_header_map_eq_ok_iff.mpr
      ⟨rfl, rfl, pins, decodeP_eq_ok_iff.mpr ⟨hw, rfl⟩, rfl⟩
  | fselSet pins codes =>
    obtain rfl := h
    rw [encode, decode_header_cons]
    have hfits := Bool.and_eq_true_iff.mp hw
    exact requireZeroAB_header_map_eq_ok_iff.mpr
      ⟨rfl, rfl, (pins, codes), decodePairs_eq_ok_iff.mpr ⟨hfits, rfl⟩, rfl⟩
  | dioWrrb pins values =>
    obtain ⟨vals, rfl, rfl⟩ := h
    rw [Instr.wellFormed, countFits_map] at hw
    rw [countWord_map, decode_header_cons]
    have hfits := Bool.and_eq_true_iff.mp hw
    exact requireZeroAB_header_map_eq_ok_iff.mpr
      ⟨rfl, rfl, (pins, vals), decodePairs_eq_ok_iff.mpr ⟨hfits, rfl⟩, rfl⟩
  | spiBuild len extraBits txbase rxbase delay speed =>
    obtain rfl := h
    rw [encode, decode_header_cons]
    simp [decodeBody, decodeS]

/-- What the decoder does, both ways: it answers exactly the expressible commands, off exactly the
words that spell them. -/
theorem decode_eq_ok_iff {ws : List Word} {i : Instr} :
    decode ws = .ok i ↔ i.wellFormed = true ∧ i.SpelledBy ws := by
  refine ⟨fun h => ?_, fun ⟨hw, hs⟩ => decode_of_spelledBy hw hs⟩
  obtain ⟨hd, body, op, rfl, hop, hrsv, hbody⟩ := decode_ok h
  rw [← header_fields hrsv, hop] at hbody ⊢
  exact spelledBy_of_decodeBody hbody

/-- Settles O1: an encoding is one of the spellings. -/
theorem decodeReadsBackEncode : Obligations.DecodeReadsBackEncode :=
  fun i hw => decode_of_spelledBy hw (spelledBy_encode i)

/-- Settles O2: what is decoded is spelled by its words (`decode_eq_ok_iff`). -/
theorem encodeWritesBackDecode : Obligations.EncodeWritesBackDecode := by
  intro ws i h
  obtain ⟨hw, hs⟩ := decode_eq_ok_iff.mp h
  refine ⟨hw, hs.length, decode_of_spelledBy hw (spelledBy_encode i), fun hne => ?_, ?_⟩
  · cases i with
    | dioWrrb pins values => exact absurd rfl (hne pins values)
    | _ => exact hs.symm
  · rintro pins values rfl
    obtain ⟨vals, hvalues, hws⟩ := hs
    exact ⟨vals, hws, hvalues⟩

/-! ### Malformed commands -/

theorem requiredLength_dioRead (ws : List Word) :
    requiredLength .dioRead ws = requiredLength .fselGet ws := rfl

theorem requiredLength_dioWrrb (ws : List Word) :
    requiredLength .dioWrrb ws = requiredLength .fselSet ws := rfl

theorem decodeP_accepts_iff {h : Word} {body : List Word} :
    (∃ pins, decodeP body = .ok pins) ↔
      requiredLength .fselGet (h :: body) = some (h :: body).length := by
  match body with
  | [] => simp [decodeP, requiredLength]
  | np :: pins =>
    have haccepts : (∃ ps, decodeP (np :: pins) = .ok ps) ↔ pins.length = np.toNat := by
      simp [decodeP, ite_eq_iff]
    have hrequired : requiredLength .fselGet (h :: np :: pins) = some (2 + np.toNat) := rfl
    simp only [haccepts, hrequired, Option.some_inj, List.length_cons]
    omega

theorem decodePairs_accepts_iff {h : Word} {body : List Word} :
    (∃ pairs, decodePairs body = .ok pairs) ↔
      requiredLength .fselSet (h :: body) = some (h :: body).length := by
  match body with
  | [] | [_] => simp [decodePairs, requiredLength]
  | np :: nc :: ops =>
    have haccepts : (∃ pairs, decodePairs (np :: nc :: ops) = .ok pairs) ↔
        ops.length = np.toNat + nc.toNat := by
      simp [decodePairs, ite_eq_iff]
    have hrequired : requiredLength .fselSet (h :: np :: nc :: ops) =
        some (3 + np.toNat + nc.toNat) := rfl
    simp only [haccepts, hrequired, Option.some_inj, List.length_cons]
    omega

theorem decodeRW_accepts_iff {h : Word} {body : List Word} :
    (∃ i, decodeRW h body = .ok i) ↔
      requiredLength .rawWrite (h :: body) = some (h :: body).length := by
  match body with
  | [] | [_] | [_, _] => simp [decodeRW, requiredLength]
  | offset :: count :: nv :: values =>
    have haccepts : (∃ i, decodeRW h (offset :: count :: nv :: values) = .ok i) ↔
        values.length = nv.toNat := by
      simp [decodeRW, ite_eq_iff]
    have hrequired : requiredLength .rawWrite (h :: offset :: count :: nv :: values) =
        some (4 + nv.toNat) := rfl
    simp only [haccepts, hrequired, Option.some_inj, List.length_cons]
    omega

theorem decodeR_accepts_iff {h : Word} {body : List Word} :
    (∃ i, decodeR h body = .ok i) ↔
      requiredLength .rawRead (h :: body) = some (h :: body).length := by
  constructor
  · rintro ⟨i, hi⟩
    obtain ⟨offset, count, rfl, -⟩ := decodeR_eq_ok_iff.mp hi
    rfl
  · intro hlen
    match body, hlen with
    | [_, _], _ => exact ⟨_, rfl⟩

theorem decodeS_accepts_iff {h : Word} {body : List Word} :
    (∃ i, decodeS h body = .ok i) ↔
      requiredLength .spiBuild (h :: body) = some (h :: body).length := by
  constructor
  · rintro ⟨i, hi⟩
    obtain ⟨len, txbase, rxbase, delay, speed, rfl, -⟩ := decodeS_eq_ok_iff.mp hi
    rfl
  · intro hlen
    match body, hlen with
    | [_, _, _, _, _], _ => exact ⟨_, rfl⟩

theorem requireZeroAB_map_accepts_iff {α β : Type} {h : Word} {k : Except DecodeError α}
    {f : α → β} : (∃ y, requireZeroAB h (k.map f) = .ok y) ↔
      fieldA h = 0 ∧ fieldB h = 0 ∧ ∃ x, k = .ok x := by
  simp [requireZeroAB_map_eq_ok_iff]

/-- A body is decoded when the fields its format defines as 0 are 0 and the length is the one
30_encoding.md R104 computes. -/
theorem decodeBody_accepts_iff {op : Opcode} {h : Word} {body : List Word} :
    (∃ i, decodeBody op h body = .ok i) ↔
      (op.zeroA = true → fieldA h = 0) ∧ (op.zeroB = true → fieldB h = 0) ∧
        requiredLength op (h :: body) = some (h :: body).length := by
  cases op with
  | rawRead => simpa [decodeBody, Opcode.zeroA, Opcode.zeroB] using decodeR_accepts_iff
  | rawWrite => simpa [decodeBody, Opcode.zeroA, Opcode.zeroB] using decodeRW_accepts_iff
  | fselGet | dioRead =>
    simp only [decodeBody, requireZeroAB_map_accepts_iff, decodeP_accepts_iff (h := h),
      requiredLength_dioRead, Opcode.zeroA, Opcode.zeroB, forall_const]
  | fselSet | dioWrrb =>
    simp only [decodeBody, requireZeroAB_map_accepts_iff, decodePairs_accepts_iff (h := h),
      requiredLength_dioWrrb, Opcode.zeroA, Opcode.zeroB, forall_const]
  | spiBuild =>
    simpa [decodeBody, Opcode.zeroA, Opcode.zeroB, ite_eq_iff] using
      fun _ => decodeS_accepts_iff (h := h) (body := body)

/-- What 30_encoding.md R103 asks of a command with a header. -/
theorem not_malformed_cons_iff {h : Word} {body : List Word} :
    ¬ Malformed (h :: body) ↔ ∃ op, opcodeOf (fieldOpc h) = some op ∧ fieldRsv h = 0 ∧
      (op.zeroA = true → fieldA h = 0) ∧ (op.zeroB = true → fieldB h = 0) ∧
        requiredLength op (h :: body) = some (h :: body).length := by
  simp only [Malformed]
  split
  next ho => simp [ho]
  next op ho => simp [ho]

theorem decode_accepts_iff_not_malformed {ws : List Word} :
    (∃ i, decode ws = .ok i) ↔ ¬ Malformed ws := by
  match ws with
  | [] => simp [decode, Malformed]
  | h :: body =>
    simp only [decode_cons_eq_ok_iff, not_malformed_cons_iff, ← decodeBody_accepts_iff]
    constructor
    · rintro ⟨i, op, hop, hrsv, hi⟩
      exact ⟨op, hop, hrsv, i, hi⟩
    · rintro ⟨op, hop, hrsv, i, hi⟩
      exact ⟨i, op, hop, hrsv, hi⟩

theorem exists_eq_error_iff {ε α : Type} {x : Except ε α} :
    (∃ e, x = .error e) ↔ ¬ ∃ a, x = .ok a := by
  cases x <;> simp

/-- Settles O3: the decoder accepts exactly what is not malformed. -/
theorem decoderRefusesExactlyMalformed : Obligations.DecoderRefusesExactlyMalformed := by
  intro ws
  rw [exists_eq_error_iff, decode_accepts_iff_not_malformed, not_not]

end Sys2Proof
end

section
/-! PROOFS. The response (30_encoding.md R100): the fields of its first word, and what a malformed
command answers (R103). -/

namespace Sys2Proof.Machine

/-- The first response word is laid out as a command header with the status for `OPC`, `INFO` for
`A` and 0 for `B` (30_encoding.md R91, R100). -/
theorem statusWord_eq_header (st : Status) (info : BitVec 8) :
    statusWord st info = header st.code info 0 := by
  simp [statusWord, header]

theorem statusWord_upperHalf (st : Status) (info : BitVec 8) :
    (statusWord st info).extractLsb' 16 16 = 0 := by
  refine BitVec.eq_of_getElem_eq fun i hi => ?_
  simp [statusWord, BitVec.getLsbD_of_ge st.code (16 + i) (by omega),
    BitVec.getLsbD_of_ge info (16 + i - 8) (by omega)]

/-- Settles O6. -/
theorem responseWordsHoldStatusInfoResults : Obligations.ResponseWordsHoldStatusInfoResults := by
  refine ⟨fun q => ⟨statusWord q.status q.info, rfl, ?_, ?_, statusWord_upperHalf q.status q.info⟩,
    rfl, rfl, rfl, rfl, rfl, rfl, fun _ _ => ⟨rfl, rfl, rfl⟩⟩
  · rw [statusWord_eq_header]
    exact fieldOpc_header q.status.code q.info 0
  · rw [statusWord_eq_header]
    exact fieldA_header q.status.code q.info 0

theorem raiseMalformed_noAccess (s : State) : NoAccess s s.raiseMalformed :=
  ⟨⟨rfl, rfl, rfl⟩, rfl, rfl, rfl⟩

/-- Settles O4: the decoder refuses the command, and the step raises where it stands. -/
theorem malformedCommandRaisesInvalidArgument :
    Obligations.MalformedCommandRaisesInvalidArgument := by
  intro s hs hm
  obtain ⟨e, he⟩ := (decoderRefusesExactlyMalformed s.cmd).mpr hm
  exact ⟨s.raiseMalformed, step_of_malformed hs he,
    (SameControl.refl s).ended (errorResponse .invalidArgument 0), raiseMalformed_noAccess s⟩

end Sys2Proof.Machine
end

section
/-! PROOFS. The raw commands (40_raw_accessor.md R130 to R135): their checks in the order R131, R130,
R135, and what an admitted command does, on either bank kind and whatever the environment does. -/

namespace Sys2Proof.Machine

/-! ### The argument check (40_raw_accessor.md R131) -/

theorem parseWidth_eq_some {width : Word} {w : AccessWidth} (h : parseWidth width = some w) :
    width = w.operand := by
  unfold parseWidth at h
  split_ifs at h with h1 h2 h4 <;> cases h <;> assumption

theorem parseOrder_eq_some {order : BitVec 8} {tag : OrderTag} (h : parseOrder order = some tag) :
    order = tag.operand := by
  refine BitVec.eq_of_toInt_eq ?_
  unfold parseOrder at h
  split_ifs at h with h0 h1 h2 <;> cases h <;> assumption

/-- The legal raw arguments are the operands of a width and of a tag. -/
theorem legalRawArgs_iff {width : Word} {order : BitVec 8} :
    LegalRawArgs width order ↔
      ∃ (w : AccessWidth) (tag : OrderTag), width = w.operand ∧ order = tag.operand := by
  constructor
  · rintro ⟨hwidth, horder⟩
    have hw : ∃ w : AccessWidth, width = w.operand := by
      rcases hwidth with rfl | rfl | rfl
      exacts [⟨.w1, rfl⟩, ⟨.w2, rfl⟩, ⟨.w4, rfl⟩]
    have htag : ∃ tag : OrderTag, order = tag.operand := by
      rcases horder with rfl | rfl | rfl
      exacts [⟨.native, rfl⟩, ⟨.big, rfl⟩, ⟨.little, rfl⟩]
    obtain ⟨w, rfl⟩ := hw
    obtain ⟨tag, rfl⟩ := htag
    exact ⟨w, tag, rfl, rfl⟩
  · rintro ⟨w, tag, rfl, rfl⟩
    exact ⟨by cases w <;> decide, by cases tag <;> decide⟩

theorem checkRawArgs_illegal {width : Word} {order : BitVec 8} (h : ¬ LegalRawArgs width order)
    (s : State) : checkRawArgs width order s = .error (.raise .invalidArgument 0) s := by
  unfold checkRawArgs
  cases hw : parseWidth width with
  | none => rfl
  | some w =>
    cases htag : parseOrder order with
    | none => rfl
    | some tag =>
      exact absurd (legalRawArgs_iff.mpr ⟨w, tag, parseWidth_eq_some hw, parseOrder_eq_some htag⟩) h

/-- A command whose pseudocode raises before it has changed anything (60_exceptions.md R214). -/
theorem endsUntouched_of_raise {i : Instr} {op : Op (List Word)} {s : State} {e : Err}
    {info : BitVec 8} (hi : exec i s = runOp op s) (h : op s = .error (.raise e info) s) :
    EndsUntouched i s (errorResponse e info) :=
  ⟨_, hi.trans (runOp_raise h), (SameControl.refl s).ended _, ⟨⟨rfl, rfl, rfl⟩, rfl, rfl, rfl⟩⟩

/-- Settles O25: the argument check is the first line of both operations. -/
theorem rawIllegalArgumentRaises : Obligations.RawIllegalArgumentRaises :=
  fun s _ _ _ _ _ h =>
    ⟨endsUntouched_of_raise rfl (Op.bind_error (checkRawArgs_illegal h s)),
      endsUntouched_of_raise rfl (Op.bind_error (checkRawArgs_illegal h s))⟩

/-! ### The bounds checks and the admission (40_raw_accessor.md R130, R135) -/

theorem readInBounds_iff {size : Nat} {offset count : Word} {w : AccessWidth} :
    readInBounds size offset count w = true ↔
      offset.toNat < size ∧ w.bytes * count.toNat ≤ size - offset.toNat := by
  simp only [readInBounds, Bool.and_eq_true, decide_eq_true_eq]

theorem writeInBounds_iff {size : Nat} {offset : Word} {w : AccessWidth} :
    writeInBounds size offset w = true ↔
      offset.toNat < size ∧ w.bytes ≤ size - offset.toNat := by
  simp only [writeInBounds, Bool.and_eq_true, decide_eq_true_eq]

theorem aligned_iff {a : Nat} {w : AccessWidth} : aligned a w = true ↔ a % w.bytes = 0 := by
  simp only [aligned, decide_eq_true_eq]

theorem valuesFit_iff {w : AccessWidth} {n : Nat} {values : List Word} :
    valuesFit w n values = true ↔ ∀ v ∈ values.take n, v.toNat < 2 ^ (8 * w.bytes) := by
  simp only [valuesFit, fitsWidth, List.all_eq_true, decide_eq_true_eq]

theorem checkBounds_of_not {b : Bool} (h : ¬ b = true) (s : State) :
    checkBounds b s = .error (.raise .outOfRange 0) s := by
  rw [Bool.not_eq_true] at h
  subst h
  rfl

theorem admitIf_of_not {r : Refusal} {b : Bool} (h : ¬ b = true) (s : State) :
    admitIf r b s = .error (.refuse r) s := by
  rw [Bool.not_eq_true] at h
  subst h
  rfl

section Checks

variable {s : State} {offset count : Word} {w : AccessWidth} (tag : OrderTag) {values : List Word}

theorem rawRead_outOfBounds (hb : ¬ (offset.toNat < s.cfg.bankSize ∧
      w.bytes * count.toNat ≤ s.cfg.bankSize - offset.toNat)) :
    EndsUntouched (.rawRead offset count w.operand tag.operand) s (errorResponse .outOfRange 0) :=
  endsUntouched_of_raise rfl <| (Op.bind_ok (checkRawArgs_operands w tag s)).trans <|
    Op.bind_error (checkBounds_of_not (readInBounds_iff.not.mpr hb) s)

theorem rawRead_misaligned (hb : offset.toNat < s.cfg.bankSize ∧
      w.bytes * count.toNat ≤ s.cfg.bankSize - offset.toNat)
    (ha : ¬ offset.toNat % w.bytes = 0) :
    exec (.rawRead offset count w.operand tag.operand) s = .refused .misaligned :=
  runOp_refuse <| (Op.bind_ok (checkRawArgs_operands w tag s)).trans <|
    (Op.bind_ok (checkBounds_of_true (readInBounds_iff.mpr hb) s)).trans <|
    Op.bind_error (admitIf_of_not (aligned_iff.not.mpr ha) s)

theorem rawWrite_outOfBounds (count : Word) (values : List Word)
    (hb : ¬ (offset.toNat < s.cfg.bankSize ∧ w.bytes ≤ s.cfg.bankSize - offset.toNat)) :
    EndsUntouched (.rawWrite offset count w.operand tag.operand values) s
      (errorResponse .outOfRange 0) :=
  endsUntouched_of_raise rfl <| (Op.bind_ok (checkRawArgs_operands w tag s)).trans <|
    Op.bind_error (checkBounds_of_not (writeInBounds_iff.not.mpr hb) s)

theorem rawWrite_misaligned (count : Word) (values : List Word)
    (hb : offset.toNat < s.cfg.bankSize ∧ w.bytes ≤ s.cfg.bankSize - offset.toNat)
    (ha : ¬ offset.toNat % w.bytes = 0) :
    exec (.rawWrite offset count w.operand tag.operand values) s = .refused .misaligned :=
  runOp_refuse <| (Op.bind_ok (checkRawArgs_operands w tag s)).trans <|
    (Op.bind_ok (checkBounds_of_true (writeInBounds_iff.mpr hb) s)).trans <|
    Op.bind_error (admitIf_of_not (aligned_iff.not.mpr ha) s)

theorem rawWrite_valueTooWide
    (hb : offset.toNat < s.cfg.bankSize ∧ w.bytes ≤ s.cfg.bankSize - offset.toNat)
    (ha : offset.toNat % w.bytes = 0)
    (hv : ¬ ∀ v ∈ values.take count.toNat, v.toNat < 2 ^ (8 * w.bytes)) :
    exec (.rawWrite offset count w.operand tag.operand values) s = .refused .valueTooWide :=
  runOp_refuse <| (Op.bind_ok (checkRawArgs_operands w tag s)).trans <|
    (Op.bind_ok (checkBounds_of_true (writeInBounds_iff.mpr hb) s)).trans <|
    (Op.bind_ok (admitIf_of_true (aligned_iff.mpr ha) s)).trans <|
    Op.bind_error (admitIf_of_not (valuesFit_iff.not.mpr hv) s)

end Checks

/-- Settles O26. -/
theorem rawOutOfBoundsRaises : Obligations.RawOutOfBoundsRaises :=
  fun _ _ count _ tag values =>
    ⟨rawRead_outOfBounds tag, rawWrite_outOfBounds tag count values⟩

/-! ### An admitted command, whatever the environment does (40_raw_accessor.md R132, R133) -/

theorem runOp_congr {op op' : Op (List Word)} {s t : State} (h : op s = op' t) :
    runOp op s = runOp op' t := by
  simp only [runOp, h]

section Admitted

variable {s : State} {offset count : Word} {w : AccessWidth} (tag : OrderTag)

/-- All that an admitted `RAW.READ` does: the read loop, and its results as the response. -/
theorem rawRead_spec (hb : offset.toNat < s.cfg.bankSize ∧
      w.bytes * count.toNat ≤ s.cfg.bankSize - offset.toNat)
    (ha : offset.toNat % w.bytes = 0) :
    ∃ (t : State) (vs : List Word),
      exec (.rawRead offset count w.operand tag.operand) s = .next t ∧
      vs = s.readsAt w (elementOffsets w offset.toNat count.toNat) ∧ vs.length = count.toNat ∧
      (∀ v ∈ vs, v.toNat < 2 ^ (8 * w.bytes)) ∧
      Ended s (okResponse (vs.map (convert s.cfg.native tag w))) t ∧
      t.trace = s.trace ++ accessesAt .read w offset.toNat vs ∧
      SameBank (State.envTurns count.toNat s) t ∧
      (s.Quiet count.toNat → s.cfg.kind = .mem → t.draws = s.draws ∧
        vs = (List.range count.toNat).map fun i =>
          joinBytes s.cfg.native (s.mem.bytesAt (offset.toNat + i * w.bytes) w.bytes)) := by
  have hclear : SameForBank s s.clearRes := ⟨⟨rfl, rfl, rfl⟩, rfl, rfl⟩
  obtain ⟨u, vs, hloop, hlen, hctl, hres, hbank, htrace, hfit, hread, hquiet⟩ :=
    rawReadLoop_spec w tag count.toNat offset.toNat s.clearRes
      (by rw [State.clearRes_cfg]; omega) ha
  have hctl' : SameControl s u := ⟨hctl.cfg, hctl.seq, hctl.cmd, hctl.inbox, hctl.outbox⟩
  have hrun : exec (.rawRead offset count w.operand tag.operand) s =
      .next (u.respondOk u.work.res) :=
    runOp_ok <| (Op.bind_ok (checkRawArgs_operands w tag s)).trans <|
      (Op.bind_ok (checkBounds_of_true (readInBounds_iff.mpr hb) s)).trans <|
      (Op.bind_ok (admitIf_of_true (aligned_iff.mpr ha) s)).trans <|
      (Op.bind_ok (update_run _ _)).trans <| (Op.bind_ok hloop).trans <|
      Op.bind_ok (readState_run u)
  refine ⟨_, vs, hrun, ?_, hlen, hfit, ?_, htrace, ?_, hquiet⟩
  · rw [hread, readsAt_congr w _ hclear (by simp)]
  · rw [hres]
    exact hctl'.ended _
  · exact ((envTurns_sameForBank hclear count.toNat).trans hbank).bank.trans ⟨rfl, rfl, rfl⟩

/-- An admitted `RAW.WRITE` is its write loop. -/
theorem exec_rawWrite_admitted {values : List Word}
    (hb : offset.toNat < s.cfg.bankSize ∧ w.bytes ≤ s.cfg.bankSize - offset.toNat)
    (ha : offset.toNat % w.bytes = 0)
    (hv : ∀ v ∈ values.take count.toNat, v.toNat < 2 ^ (8 * w.bytes)) :
    exec (.rawWrite offset count w.operand tag.operand values) s =
      runOp (do rawWriteLoop w tag offset.toNat count.toNat values; return []) s :=
  runOp_congr <| (Op.bind_ok (checkRawArgs_operands w tag s)).trans <|
    (Op.bind_ok (checkBounds_of_true (writeInBounds_iff.mpr hb) s)).trans <|
    (Op.bind_ok (admitIf_of_true (aligned_iff.mpr ha) s)).trans <|
    Op.bind_ok (admitIf_of_true (valuesFit_iff.mpr hv) s)

/-- All that an admitted `RAW.WRITE` does: it makes `m` writes, where `m` is the count or, if they
are fewer, the values or the elements left in the bank; then it responds `OK` or raises. -/
theorem rawWrite_spec {values : List Word}
    (hb : offset.toNat < s.cfg.bankSize ∧ w.bytes ≤ s.cfg.bankSize - offset.toNat)
    (ha : offset.toNat % w.bytes = 0)
    (hv : ∀ v ∈ values.take count.toNat, v.toNat < 2 ^ (8 * w.bytes)) {m : Nat}
    (hm : m = min count.toNat
      (min values.length ((s.cfg.bankSize - offset.toNat) / w.bytes))) :
    ∃ t : State, exec (.rawWrite offset count w.operand tag.operand values) s = .next t ∧
      ((m = count.toNat ∧ Ended s (okResponse []) t) ∨
        (m < count.toNat ∧ Ended s (errorResponse .outOfRange 0) t)) ∧
      t.draws = s.draws ∧
      t.trace = s.trace ++ accessesAt .write w offset.toNat
        ((values.take m).map (convert s.cfg.native tag w)) ∧
      SameBank (s.writesFrom w offset.toNat
        ((values.take m).map (convert s.cfg.native tag w))) t ∧
      (s.Quiet m → s.cfg.kind = .mem → t.fselv = s.fselv ∧ t.outv = s.outv ∧
        (∀ i, i < m → t.mem.bytesAt (offset.toNat + i * w.bytes) w.bytes =
          splitBytes s.cfg.native w (convert s.cfg.native tag w (values.getD i 0))) ∧
        ∀ k, k < offset.toNat ∨ offset.toNat + m * w.bytes ≤ k →
          t.mem.byteAt k = s.mem.byteAt k) := by
  obtain ⟨u, hloop, hctl, hdraws, htrace, hbank, -, hquiet⟩ :=
    rawWriteLoop_spec w tag count.toNat offset.toNat values s m ha hb.1.le hm
  have hexec := exec_rawWrite_admitted tag hb ha hv
  rcases hloop with ⟨hlt, hrun⟩ | ⟨hlt, hrun⟩
  · exact ⟨u.respondOk [], hexec.trans (runOp_ok (Op.bind_ok hrun)), .inl ⟨hlt, hctl.ended _⟩,
      hdraws, htrace, hbank.bank.trans ⟨rfl, rfl, rfl⟩, hquiet⟩
  · exact ⟨u.raise .outOfRange 0, hexec.trans (runOp_raise (Op.bind_error hrun)),
      .inr ⟨hlt, hctl.ended _⟩, hdraws, htrace, hbank.bank.trans ⟨rfl, rfl, rfl⟩, hquiet⟩

end Admitted

/-- Settles O27. -/
theorem rawReadCompletes : Obligations.RawReadCompletes := by
  intro s offset count w tag hoff hspan ha
  obtain ⟨t, vs, hrun, hread, hlen, hfit, hended, htrace, hbank, -⟩ :=
    rawRead_spec tag ⟨hoff, hspan⟩ ha
  refine ⟨t, vs, hrun, hread, hlen, hended, htrace, hbank, fun v hv => ?_⟩
  obtain ⟨x, hx, rfl⟩ := List.mem_map.mp hv
  exact convert_lt (hfit x hx)

/-! ### What a raw command is refused for (40_raw_accessor.md R135) -/

theorem EndsUntouched.ne_refused {i : Instr} {s : State} {q : Response}
    (h : EndsUntouched i s q) (r : Refusal) : exec i s ≠ .refused r := by
  obtain ⟨t, ht, -⟩ := h
  rw [ht]
  exact fun h => nomatch h

/-- `RAW.READ` with legal arguments: out of bounds it raises, aligned it completes. -/
theorem rawRead_refused_iff (s : State) (offset count : Word) (w : AccessWidth) (tag : OrderTag)
    (r : Refusal) :
    exec (.rawRead offset count w.operand tag.operand) s = .refused r ↔
      r = .misaligned ∧ (offset.toNat < s.cfg.bankSize ∧
        w.bytes * count.toNat ≤ s.cfg.bankSize - offset.toNat) ∧
        ¬ offset.toNat % w.bytes = 0 := by
  by_cases hb : offset.toNat < s.cfg.bankSize ∧
      w.bytes * count.toNat ≤ s.cfg.bankSize - offset.toNat
  · by_cases ha : offset.toNat % w.bytes = 0
    · obtain ⟨t, vs, hrun, -⟩ := rawRead_spec tag hb ha
      rw [hrun]
      exact iff_of_false (fun h => nomatch h) fun ⟨_, _, hna⟩ => hna ha
    · rw [rawRead_misaligned tag hb ha]
      exact ⟨fun h => ⟨by cases h; rfl, hb, ha⟩, fun ⟨hr, _⟩ => hr ▸ rfl⟩
  · exact iff_of_false ((rawRead_outOfBounds tag hb).ne_refused r) fun ⟨_, hin, _⟩ => hb hin

/-- `RAW.WRITE` with legal arguments: out of bounds it raises; aligned and with values that fit it
responds. -/
theorem rawWrite_refused_iff (s : State) (offset count : Word) (w : AccessWidth) (tag : OrderTag)
    (values : List Word) (r : Refusal) :
    exec (.rawWrite offset count w.operand tag.operand values) s = .refused r ↔
      (offset.toNat < s.cfg.bankSize ∧ w.bytes ≤ s.cfg.bankSize - offset.toNat) ∧
        ((r = .misaligned ∧ ¬ offset.toNat % w.bytes = 0) ∨
          (r = .valueTooWide ∧ offset.toNat % w.bytes = 0 ∧
            ¬ ∀ v ∈ values.take count.toNat, v.toNat < 2 ^ (8 * w.bytes))) := by
  by_cases hb : offset.toNat < s.cfg.bankSize ∧ w.bytes ≤ s.cfg.bankSize - offset.toNat
  · by_cases ha : offset.toNat % w.bytes = 0
    · by_cases hv : ∀ v ∈ values.take count.toNat, v.toNat < 2 ^ (8 * w.bytes)
      · obtain ⟨t, hrun, -⟩ := rawWrite_spec tag hb ha hv rfl
        rw [hrun]
        refine iff_of_false (fun h => nomatch h) ?_
        rintro ⟨-, ⟨-, hna⟩ | ⟨-, -, hnv⟩⟩
        · exact hna ha
        · exact hnv hv
      · rw [rawWrite_valueTooWide tag hb ha hv]
        refine ⟨fun h => ⟨hb, .inr ⟨by cases h; rfl, ha, hv⟩⟩, ?_⟩
        rintro ⟨-, ⟨-, hna⟩ | ⟨rfl, -⟩⟩
        · exact absurd ha hna
        · rfl
    · rw [rawWrite_misaligned tag count values hb ha]
      refine ⟨fun h => ⟨hb, .inl ⟨by cases h; rfl, ha⟩⟩, ?_⟩
      rintro ⟨-, ⟨rfl, -⟩ | ⟨-, hal, -⟩⟩
      · rfl
      · exact absurd hal ha
  · exact iff_of_false ((rawWrite_outOfBounds tag count values hb).ne_refused r)
      fun ⟨hin, _⟩ => hb hin

/-- Settles O18: an illegal argument raises; the operands of legal ones are those of a width and a
tag. -/
theorem rawRefusedExactlyOutsideTheContract : Obligations.RawRefusedExactlyOutsideTheContract := by
  refine ⟨fun s offset count width order r => ?_, fun s offset count width order values r => ?_⟩
  · by_cases hl : LegalRawArgs width order
    · obtain ⟨w, tag, rfl, rfl⟩ := legalRawArgs_iff.mp hl
      rw [rawRead_refused_iff, operand_toNat]
      tauto
    · obtain ⟨hread, -⟩ := rawIllegalArgumentRaises s offset count width order [] hl
      exact iff_of_false (hread.ne_refused r) fun ⟨_, hlegal, _⟩ => hl hlegal
  · by_cases hl : LegalRawArgs width order
    · obtain ⟨w, tag, rfl, rfl⟩ := legalRawArgs_iff.mp hl
      rw [rawWrite_refused_iff, operand_toNat]
      simp only [not_forall, Nat.not_lt, exists_prop]
      tauto
    · obtain ⟨-, hwrite⟩ := rawIllegalArgumentRaises s offset count width order values hl
      exact iff_of_false (hwrite.ne_refused r) fun ⟨hlegal, _⟩ => hl hlegal

/-! ### How far a write gets (40_raw_accessor.md R133) -/

/-- The span of `n` elements lies in the bank. -/
theorem span_le_iff {w : AccessWidth} {n room : Nat} : w.bytes * n ≤ room ↔ n ≤ room / w.bytes := by
  rw [Nat.le_div_iff_mul_le (bytes_pos w), Nat.mul_comm]

/-- Settles O29: the count is the least of the three bounds. -/
theorem rawWriteCompletes : Obligations.RawWriteCompletes := by
  intro s offset count w tag values hoff hfirst hspan ha hlen hv
  have hroom := span_le_iff.mp hspan
  obtain ⟨t, hrun, hend, hdraws, htrace, hbank, -⟩ :=
    rawWrite_spec tag ⟨hoff, hfirst⟩ ha hv (m := count.toNat) (by omega)
  obtain ⟨-, hended⟩ | ⟨hlt, -⟩ := hend
  · exact ⟨t, hrun, hended, htrace, hbank, hdraws⟩
  · exact absurd hlt (Nat.lt_irrefl _)

/-- Settles O30: the count is not the least of the three bounds. -/
theorem rawWriteRaisesAfterPrefix : Obligations.RawWriteRaisesAfterPrefix := by
  intro s offset count w tag values n hoff hfirst ha hv hn hlt
  obtain ⟨t, hrun, hend, hdraws, htrace, hbank, -⟩ :=
    rawWrite_spec tag ⟨hoff, hfirst⟩ ha hv (m := n) (by omega)
  obtain ⟨heq, -⟩ | ⟨-, hended⟩ := hend
  · omega
  · exact ⟨t, hrun, hended, htrace, hbank, hdraws⟩

end Sys2Proof.Machine
end

section
/-! PROOFS. The raw commands on a MEM-kind bank (40_raw_accessor.md R132, R133, R136, R137): the
bytes they read and store under `EXCL`, what a read after a write returns, and what the pin units
read of a raw write. -/

namespace Sys2Proof.Machine

/-! ### A command under `EXCL` (20_memory.md R64) -/

/-- Where an operation of `n` accesses starts under `EXCL`: the bank as its first access finds it,
and no other agent to come. -/
def State.exclStart (n : Nat) (s : State) : State :=
  match n with
  | 0 => s
  | _ + 1 => s.alone

@[simp] theorem exclStart_cfg (n : Nat) (s : State) : (s.exclStart n).cfg = s.cfg := by
  cases n <;> simp [State.exclStart]

@[simp] theorem exclStart_draws (n : Nat) (s : State) : (s.exclStart n).draws = s.draws := by
  cases n <;> simp [State.exclStart]

@[simp] theorem exclStart_trace (n : Nat) (s : State) : (s.exclStart n).trace = s.trace := by
  cases n <;> simp [State.exclStart]

theorem exclStart_quiet (n : Nat) (s : State) : (s.exclStart n).Quiet n := by
  cases n <;> simp [State.exclStart, State.Quiet]

theorem exclStart_sameBank (n : Nat) (s : State) :
    SameBank (s.atFirstAccess n) (s.exclStart n) := by
  cases n
  · exact .refl s
  · exact alone_sameBank s

/-- A command of `n` accesses ends under `EXCL` as it does from `State.exclStart`. -/
theorem exec_of_exclStart {i : Instr} {n : Nat} {s t' : State} (hE : s.Excl n)
    (h : exec i (s.exclStart n) = .next t') (hn : t'.trace.length = s.trace.length + n) :
    ∃ t, exec i s = .next t ∧ SameBank t' t ∧ t.draws = t'.draws ∧
      ∀ q, Ended (s.exclStart n) q t' → Ended s q t := by
  cases n with
  | zero => exact ⟨t', h, .refl t', rfl, fun _ hq => hq⟩
  | succ n =>
    obtain ⟨t, hrun, -, rfl⟩ := exec_alone i hE h hn (Nat.le_refl _)
    refine ⟨t, hrun, ⟨rfl, rfl, rfl⟩, rfl, fun q hq => ?_⟩
    obtain ⟨hcfg, hseq, hcmd, hinbox, houtbox, hwork⟩ := hq
    simp only [State.exclStart, alone_cfg, alone_inbox, alone_outbox] at hcfg hinbox houtbox
    exact ⟨hcfg, hseq, hcmd, hinbox, houtbox, hwork⟩

@[simp] theorem length_accessesAt (kind : AccessKind) (w : AccessWidth) (a : Nat)
    (vs : List Word) : (accessesAt kind w a vs).length = vs.length := by
  induction vs generalizing a with
  | nil => rfl
  | cons v vs ih => simp [accessesAt, ih]

/-! ### The bytes read and stored (20_memory.md R51, R53, R54, R56) -/

/-- Settles O28: each element is read and converted where the bank stands still. -/
theorem rawReadReturnsBankBytes : Obligations.RawReadReturnsBankBytes := by
  intro s offset count w tag hk hE hoff hspan ha
  obtain ⟨t', vs, hrun, -, -, -, hended, htrace, hbank, hquiet⟩ :=
    rawRead_spec (s := s.exclStart count.toNat) (count := count) tag
      (by simpa using ⟨hoff, hspan⟩) ha
  have hq := exclStart_quiet count.toNat s
  have hsb := exclStart_sameBank count.toNat s
  obtain ⟨hdraws, rfl⟩ := hquiet hq (by simpa using hk)
  obtain ⟨t, hrunT, hbankT, hdrawsT, hendedT⟩ :=
    exec_of_exclStart hE hrun (by simp [htrace])
  refine ⟨t, hrunT, ?_, hsb.trans ((quiet_envTurns hq).trans (hbank.trans hbankT)),
    hdrawsT.trans (by simpa using hdraws)⟩
  have hconv : ∀ i, convert s.cfg.native tag w (joinBytes s.cfg.native
      ((s.exclStart count.toNat).mem.bytesAt (offset.toNat + i * w.bytes) w.bytes)) =
      joinBytes (tag.effective s.cfg.native)
        ((s.atFirstAccess count.toNat).mem.bytesAt (offset.toNat + i * w.bytes) w.bytes) :=
    fun i => by rw [convert_joinBytes _ _ (by simp), hsb.mem]
  simpa only [List.map_map, Function.comp_def, exclStart_cfg, hconv] using hendedT _ hended

/-- The values a write consumes are among those its admission looked at. -/
theorem getD_mem_take {values : List Word} {n i : Nat} (hn : i < n) (hi : i < values.length) :
    values.getD i 0 ∈ values.take n := by
  rw [List.getD_eq_getElem _ _ hi]
  exact List.mem_take_iff_getElem.mpr ⟨i, by omega, rfl⟩

/-- Settles O31: the elements are stored converted, which is in the tag's order. -/
theorem rawWriteStoresElements : Obligations.RawWriteStoresElements := by
  intro s offset count w tag values n hk hE hoff hfirst ha hv hn
  obtain ⟨t', hrun, -, hdraws, htrace, -, hquiet⟩ :=
    rawWrite_spec (s := s.exclStart n) tag (by simpa using ⟨hoff, hfirst⟩) ha hv
      (m := n) (by simpa using hn)
  have hsb := exclStart_sameBank n s
  obtain ⟨hfselv, houtv, hbytes, hframe⟩ :=
    hquiet (exclStart_quiet n s) (by simpa using hk)
  obtain ⟨t, hrunT, hbankT, hdrawsT, -⟩ := exec_of_exclStart hE hrun (by
    simp only [htrace, exclStart_trace, List.length_append, length_accessesAt, List.length_map,
      List.length_take]
    omega)
  refine ⟨t, hrunT, fun i hi => ?_, fun a hout => ?_, ?_, ?_, ?_⟩
  · have hfit := hv _ (getD_mem_take (i := i) (by omega) (by omega))
    rw [hbankT.mem, hbytes i hi, exclStart_cfg, splitBytes_convert _ _ hfit]
  · rw [hbankT.mem, hframe a hout, hsb.mem]
  · rw [hbankT.fselv, hfselv, hsb.fselv]
  · rw [hbankT.outv, houtv, hsb.outv]
  · rw [hdrawsT, hdraws, exclStart_draws]

/-! ### Reading back (40_raw_accessor.md R136) -/

/-- A command that responded `OK` raised no error: the statuses differ (30_encoding.md R100). -/
theorem Ended.not_error {s t : State} {results : List Word} (h : Ended s (okResponse results) t)
    (e : Err) (info : BitVec 8) : ¬ Ended s (errorResponse e info) t := by
  intro he
  have hwords : (okResponse results).words = (errorResponse e info).words := by
    simpa [h.outbox] using he.outbox
  have hstatus : Status.ok.code = (Status.error e).code := by
    have hhead : statusWord .ok 0 = statusWord (.error e) info := (List.cons.inj hwords).1
    simpa only [statusWord_eq_header, fieldOpc_header] using congrArg fieldOpc hhead
  cases e <;> exact absurd hstatus (by decide)

theorem EndsUntouched.not_ok {i : Instr} {s t : State} {e : Err} {info : BitVec 8}
    {results : List Word} (h : EndsUntouched i s (errorResponse e info))
    (ht : exec i s = .next t) : ¬ Ended s (okResponse results) t := by
  obtain ⟨u, hu, hended, -⟩ := h
  rw [hu] at ht
  cases ht
  exact fun hok => hok.not_error _ _ hended

/-- What a `RAW.WRITE` that responded `OK` had: an aligned span in the bank and values that fit and
fill it. -/
theorem rawWrite_ok {s t : State} {offset count : Word} {w : AccessWidth} {tag : OrderTag}
    {values : List Word}
    (h : exec (.rawWrite offset count w.operand tag.operand values) s = .next t)
    (hok : Ended s (okResponse []) t) :
    (offset.toNat < s.cfg.bankSize ∧ w.bytes ≤ s.cfg.bankSize - offset.toNat) ∧
      offset.toNat % w.bytes = 0 ∧
      (∀ v ∈ values.take count.toNat, v.toNat < 2 ^ (8 * w.bytes)) ∧
      count.toNat ≤ values.length ∧
      count.toNat ≤ (s.cfg.bankSize - offset.toNat) / w.bytes := by
  have hb : offset.toNat < s.cfg.bankSize ∧ w.bytes ≤ s.cfg.bankSize - offset.toNat :=
    by_contra fun hb => (rawWrite_outOfBounds tag count values hb).not_ok h hok
  have hnr : ∀ r, exec (.rawWrite offset count w.operand tag.operand values) s ≠ .refused r := by
    rw [h]
    exact fun r hr => nomatch hr
  have ha : offset.toNat % w.bytes = 0 :=
    by_contra fun ha => hnr _ (rawWrite_misaligned tag count values hb ha)
  have hv : ∀ v ∈ values.take count.toNat, v.toNat < 2 ^ (8 * w.bytes) :=
    by_contra fun hv => hnr _ (rawWrite_valueTooWide tag hb ha hv)
  obtain ⟨u, hu, hend, -⟩ := rawWrite_spec tag hb ha hv rfl
  rw [h] at hu
  cases hu
  obtain ⟨hm, -⟩ | ⟨-, herr⟩ := hend
  · exact ⟨hb, ha, hv, by omega, by omega⟩
  · exact absurd herr (hok.not_error _ _)

/-- Bytes joined in the order they were split in, or in the other one (20_memory.md R56). -/
theorem joinBytes_splitBytes_eq_ite (a b : ByteOrder) {w : AccessWidth} {v : Word}
    (h : v.toNat < 2 ^ (8 * w.bytes)) :
    joinBytes b (splitBytes a w v) = if a = b then v else bswap w v := by
  split
  next hab => rw [hab, joinBytes_splitBytes h]
  next hab =>
    rw [splitBytes_of_ne hab, ← splitBytes_bswap b h, joinBytes_splitBytes (bswap_lt h)]

/-- Settles O32: the bytes stored are those of `rawWriteStoresElements`, the bytes read those of
`rawReadReturnsBankBytes`. -/
theorem rawReadAfterWrite : Obligations.RawReadAfterWrite := by
  intro s t u offset count w tagW tagR values hk hEs hEu hwrite hok hsb hcfg
  obtain ⟨⟨hoff, hfirst⟩, ha, hv, hlen, hroom⟩ := rawWrite_ok hwrite hok
  have hcfgU : u.cfg = s.cfg := hcfg.trans hok.cfg
  obtain ⟨t', hwrite', hbytes, -⟩ := rawWriteStoresElements s offset count w tagW values
    count.toNat hk hEs hoff hfirst ha hv (by omega)
  obtain rfl : t = t' := by
    rw [hwrite] at hwrite'
    cases hwrite'
    rfl
  obtain ⟨v, hread, hended, -⟩ := rawReadReturnsBankBytes u offset count w tagR (hcfgU ▸ hk) hEu
    (hcfgU ▸ hoff) (span_le_iff.mpr (hcfgU ▸ hroom)) ha
  refine ⟨v, hread, ?_⟩
  convert hended using 2
  refine List.ext_getElem (by simp [hlen]) fun i hi _ => ?_
  have hi' : i < count.toNat := lt_of_lt_of_le hi (by simp)
  have hget : values[i] = values.getD i 0 := (List.getD_eq_getElem _ _ (by omega)).symm
  have hfit := hv _ (getD_mem_take hi' (by omega))
  simp only [List.getElem_map, List.getElem_take, List.getElem_range, hsb.mem, hcfgU, hget,
    hbytes i hi', joinBytes_splitBytes_eq_ite _ _ hfit]

/-! ### What the pin units read (40_raw_accessor.md R137) -/

/-- `DIO.READ` of valid pins: the two snapshot reads, and its pins' levels as results. -/
theorem dioRead_spec {s : State} (ps : List Pin) (hb : 0x3C ≤ s.cfg.bankSize) :
    ∃ (t : State) (v0 v1 : Word), exec (.dioRead (ps.map pinWord)) s = .next t ∧
      [v0, v1] = s.readsAt .w4 [0x34, 0x38] ∧
      Ended s (okResponse (ps.map (snapshotLevel v0 v1))) t ∧
      t.trace = s.trace ++ [readEntry 0x34 v0, readEntry 0x38 v1] ∧
      SameBank (State.envTurns 2 s) t := by
  obtain ⟨u, v0, v1, hload, hctl, hbank, htrace, hwork, hread, -⟩ := loadSnapl_spec hb
  have hgather := gatherLevels_spec ps u.clearRes
  have hlevels : (ps.map fun p => levelAt u.clearRes.work.snapl[bitReg p] p) =
      ps.map (snapshotLevel v0 v1) := by
    simp only [State.clearRes_work, hwork, levelAt_snapshot]
  rw [hlevels] at hgather
  have hrun : exec (.dioRead (ps.map pinWord)) s = .next _ :=
    runOp_ok <| (Op.bind_ok (requirePinBank_ok hb)).trans <| by
      rw [checkPins_pinWords, pure_bind]
      exact (Op.bind_ok hload).trans <| (Op.bind_ok (update_run _ _)).trans <|
        (Op.bind_ok hgather).trans <| Op.bind_ok (readState_run _)
  exact ⟨_, v0, v1, hrun, hread, hctl.ended _, htrace, hbank.bank.trans ⟨rfl, rfl, rfl⟩⟩

/-- The native order, said with a tag, converts nothing. -/
theorem convert_of_effective {native : ByteOrder} {tag : OrderTag}
    (h : tag.effective native = native) (w : AccessWidth) (v : Word) :
    convert native tag w v = v := by
  simp [convert, h]

/-- Settles O33: both the pin units and the raw accessor read what the bank holds. -/
theorem rawWriteIsReadByPinUnits : Obligations.RawWriteIsReadByPinUnits := by
  intro s offset v tag ps hk htag ha hb hspan hps
  obtain ⟨t, hrun, hended, hsb, -⟩ := rawWrite_one (w := .w4) tag ha hb v.isLt
  rw [convert_of_effective htag] at hsb
  have hpeek : ∀ x : State, x.cfg = t.cfg → SameBank t x → x.peek offset.toNat .w4 = v := by
    intro x hcfg hx
    have hcfgX : x.cfg = s.cfg := hcfg.trans hended.cfg
    obtain ⟨hstored, -⟩ := memWriteThenMemRead s.envTurn offset.toNat .w4 v (by simpa using hk)
      v.isLt
    rw [peek_mem (by simpa using hk)] at hstored
    rw [peek_mem (by rw [hcfgX]; exact hk), hx.mem, hsb.mem, hcfgX]
    simpa using hstored
  refine ⟨t, hrun, hended, hpeek t rfl (.refl t), fun hlev u hcfg _ hu => ?_⟩
  obtain ⟨x, v0, v1, hread, hsnap, hendedX, -⟩ := dioRead_spec (s := u) ps
    (by rw [hcfg, hended.cfg]; exact hspan)
  obtain rfl : v0 = v := by
    rw [(List.cons.inj hsnap).1, ← hlev]
    exact hpeek _ (by simpa using hcfg) hu
  have hlevel : ∀ p ∈ ps, snapshotLevel v0 v1 p = (v0 >>> p.val) &&& 1 := fun p hp => by
    simp only [snapshotLevel, hps p hp, if_true, Nat.mod_eq_of_lt]
  exact ⟨x, hread, List.map_congr_left hlevel ▸ hendedX⟩

end Sys2Proof.Machine
end

section
/-! PROOFS. The masks of an `FSEL.SET` batch, bit by bit (41_pinmux_codec.md R151, R152, R154,
R156): what the write of an affected register leaves in the fields of the batch and in every other
bit. -/

namespace Sys2Proof.Machine

/-! ### The bits of a merged register and of a field -/

/-- The value mask where the write mask is set, the old value elsewhere. -/
theorem getLsbD_mergeField (old wm vm : Word) (k : Nat) :
    (mergeField old wm vm).getLsbD k = if wm.getLsbD k then vm.getLsbD k else old.getLsbD k := by
  by_cases hk : k < 32
  · simp only [mergeField, BitVec.getLsbD_or, BitVec.getLsbD_and, BitVec.getLsbD_not, hk,
      decide_true, Bool.true_and]
    cases wm.getLsbD k <;> simp
  · simp [BitVec.getLsbD_of_ge _ k (Nat.not_lt.mp hk)]

/-- A zero write mask keeps the register. -/
theorem mergeField_zero (old vm : Word) : mergeField old 0 vm = old :=
  BitVec.eq_of_getLsbD_eq fun k _ => by simp [getLsbD_mergeField]

/-- Bit `k` of a code in its pin's field. -/
theorem getLsbD_fieldValue (p : Pin) (c : BitVec 3) (k : Nat) :
    (fieldValue p c).getLsbD k = (decide (fselShift p ≤ k) && c.getLsbD (k - fselShift p)) := by
  have hs : fselShift p + 3 ≤ 32 := by unfold fselShift; omega
  simp only [fieldValue, BitVec.getLsbD_shiftLeft, BitVec.getLsbD_setWidth]
  by_cases hlt : k - fselShift p < 3
  · grind
  · simp [BitVec.getLsbD_of_ge c _ (Nat.not_lt.mp hlt)]

/-- A code stays in its pin's field. -/
theorem getLsbD_fieldMask_of_fieldValue {p : Pin} {c : BitVec 3} {k : Nat}
    (h : (fieldValue p c).getLsbD k = true) : (fieldMask p).getLsbD k = true := by
  rw [getLsbD_fieldValue, Bool.and_eq_true, decide_eq_true_eq] at h
  have hlt := BitVec.lt_of_getLsbD h.2
  rw [getLsbD_fieldMask, decide_eq_true_eq]
  omega

/-- Bit `i` of the code a pin's field holds. -/
theorem getLsbD_codeAt (v : Word) (p : Pin) (i : Nat) :
    (codeAt v p).getLsbD i = (decide (i < 3) && v.getLsbD (fselShift p + i)) := by
  have h7 : (7 : Word) = (BitVec.allOnes 3).setWidth 32 := rfl
  simp only [codeAt, h7, BitVec.getLsbD_and, BitVec.getLsbD_ushiftRight, BitVec.getLsbD_setWidth,
    BitVec.getLsbD_allOnes]
  grind

/-- The three bits of a pin's own field. -/
theorem getLsbD_fieldMask_own (p : Pin) {i : Nat} (hi : i < 3) :
    (fieldMask p).getLsbD (fselShift p + i) = true := by
  rw [getLsbD_fieldMask, decide_eq_true_eq]
  omega

/-- Pins whose fields share a bit of one register are the same pin. -/
theorem pin_eq_of_getLsbD_fieldMask {p q : Pin} {k : Nat} (hr : fselReg p = fselReg q)
    (hp : (fieldMask p).getLsbD k = true) (hq : (fieldMask q).getLsbD k = true) : p = q := by
  by_contra hn
  have hbit := congrArg (fun v : Word => v.getLsbD k) (fieldMask_and_fieldMask hr hn)
  simp [hp, hq] at hbit

/-! ### The bits of a batch's masks -/

/-- Bit `k` of `WM[r]`: it lies in the field of a pin of the batch. -/
theorem getLsbD_batchWriteMask {r : Fin 6} {ps : List Pin} {k : Nat} :
    (batchWriteMask r ps).getLsbD k = true ↔
      ∃ p ∈ ps, fselReg p = r ∧ (fieldMask p).getLsbD k = true := by
  have hmask : batchWriteMask r ps =
      orOver ((ps.filter fun p => fselReg p = r).map fieldMask) := rfl
  simp only [hmask, getLsbD_orOver, List.any_map, List.any_eq_true, List.mem_filter,
    Function.comp_apply, decide_eq_true_eq, and_assoc]

/-- Bit `k` of `VM[r]`: a code of the batch sets it. -/
theorem getLsbD_batchValueMask {r : Fin 6} {pcs : List (Pin × BitVec 3)} {k : Nat} :
    (batchValueMask r pcs).getLsbD k = true ↔
      ∃ pc ∈ pcs, fselReg pc.1 = r ∧ (fieldValue pc.1 pc.2).getLsbD k = true := by
  have hmask : batchValueMask r pcs = orOver ((pcs.filter fun pc => fselReg pc.1 = r).map
      fun pc => fieldValue pc.1 pc.2) := rfl
  simp only [hmask, getLsbD_orOver, List.any_map, List.any_eq_true, List.mem_filter,
    Function.comp_apply, decide_eq_true_eq, and_assoc]

/-- Bit `i` of the OR of the codes given for a pin. -/
theorem getLsbD_batchCode {p : Pin} {pcs : List (Pin × BitVec 3)} {i : Nat} :
    (batchCode p pcs).getLsbD i = true ↔
      ∃ pc ∈ pcs, pc.1 = p ∧ (codeWord pc.2).getLsbD i = true := by
  simp only [batchCode, getLsbD_orOver, List.any_map, List.any_eq_true, List.mem_filter,
    Function.comp_apply, decide_eq_true_eq, and_assoc]

/-- `VM[r]` has no bit outside `WM[r]`. -/
theorem getLsbD_batchWriteMask_of_batchValueMask {r : Fin 6} {pcs : List (Pin × BitVec 3)}
    {k : Nat} (h : (batchValueMask r pcs).getLsbD k = true) :
    (batchWriteMask r (pcs.map Prod.fst)).getLsbD k = true := by
  obtain ⟨pc, hmem, hr, hbit⟩ := getLsbD_batchValueMask.mp h
  exact getLsbD_batchWriteMask.mpr
    ⟨pc.1, List.mem_map_of_mem hmem, hr, getLsbD_fieldMask_of_fieldValue hbit⟩

/-- The write mask is not zero exactly for an affected register (41_pinmux_codec.md R151). -/
theorem batchWriteMask_ne_zero_iff {r : Fin 6} {ps : List Pin} :
    batchWriteMask r ps ≠ 0 ↔ ∃ p ∈ ps, fselReg p = r := by
  constructor
  · intro h
    by_contra hn
    refine h (BitVec.eq_of_getLsbD_eq fun k _ => ?_)
    rw [BitVec.ofNat_eq_ofNat, BitVec.getLsbD_zero, Bool.eq_false_iff]
    intro hbit
    obtain ⟨p, hp, hr, -⟩ := getLsbD_batchWriteMask.mp hbit
    exact hn ⟨p, hp, hr⟩
  · rintro ⟨p, hp, hr⟩ hz
    have hbit : (batchWriteMask r ps).getLsbD (fselShift p) = true :=
      getLsbD_batchWriteMask.mpr ⟨p, hp, hr, getLsbD_fieldMask_own p (i := 0) (by decide)⟩
    simp [hz] at hbit

/-- Batches of different pins set different bits. -/
theorem batchWriteMask_disjoint {r : Fin 6} {ps qs : List Pin} (h : ∀ p ∈ ps, ∀ q ∈ qs, p ≠ q)
    {k : Nat} (hp : (batchWriteMask r ps).getLsbD k = true) :
    (batchWriteMask r qs).getLsbD k = false := by
  rw [Bool.eq_false_iff]
  intro hq
  obtain ⟨p, hpm, hpr, hpk⟩ := getLsbD_batchWriteMask.mp hp
  obtain ⟨q, hqm, hqr, hqk⟩ := getLsbD_batchWriteMask.mp hq
  exact h p hpm q hqm (pin_eq_of_getLsbD_fieldMask (hpr.trans hqr.symm) hpk hqk)

/-! ### The fields after a batch -/

/-- In a pin's field `VM` holds the OR of the codes given for the pin. -/
theorem getLsbD_batchValueMask_field {p : Pin} {pcs : List (Pin × BitVec 3)} {i : Nat}
    (hi : i < 3) :
    (batchValueMask (fselReg p) pcs).getLsbD (fselShift p + i) = (batchCode p pcs).getLsbD i := by
  have hfield : ∀ c : BitVec 3, (fieldValue p c).getLsbD (fselShift p + i) =
      (codeWord c).getLsbD i := by
    intro c
    have hw : i < 32 := by omega
    simp [getLsbD_fieldValue, codeWord, hw]
  rw [Bool.eq_iff_iff, getLsbD_batchValueMask, getLsbD_batchCode]
  constructor
  · rintro ⟨⟨q, c⟩, hmem, hr, hbit⟩
    obtain rfl : q = p :=
      pin_eq_of_getLsbD_fieldMask hr (getLsbD_fieldMask_of_fieldValue hbit)
        (getLsbD_fieldMask_own p hi)
    exact ⟨_, hmem, rfl, hfield c ▸ hbit⟩
  · rintro ⟨⟨q, c⟩, hmem, rfl, hbit⟩
    exact ⟨_, hmem, rfl, hfield c ▸ hbit⟩

/-- The field of a pin of the batch after the write of its register. -/
theorem codeAt_mergeField_of_mem {p : Pin} {pcs : List (Pin × BitVec 3)} (old : Word)
    (hp : p ∈ pcs.map Prod.fst) :
    codeAt (mergeField old (batchWriteMask (fselReg p) (pcs.map Prod.fst))
      (batchValueMask (fselReg p) pcs)) p = batchCode p pcs := by
  refine BitVec.eq_of_getLsbD_eq fun i _ => ?_
  rw [getLsbD_codeAt]
  by_cases hi : i < 3
  · have hw : (batchWriteMask (fselReg p) (pcs.map Prod.fst)).getLsbD (fselShift p + i) = true :=
      getLsbD_batchWriteMask.mpr ⟨p, hp, rfl, getLsbD_fieldMask_own p hi⟩
    rw [getLsbD_mergeField, if_pos hw, getLsbD_batchValueMask_field hi, decide_eq_true hi,
      Bool.true_and]
  · rw [decide_eq_false hi, Bool.false_and, eq_comm, Bool.eq_false_iff]
    intro hbit
    obtain ⟨pc, -, -, hc⟩ := getLsbD_batchCode.mp hbit
    simp [codeWord, BitVec.getLsbD_of_ge pc.2 i (Nat.not_lt.mp hi)] at hc

/-- A bit outside the fields of the batch after the write of its register. -/
theorem getLsbD_mergeField_of_outside {r : Fin 6} {ps : List Pin} {k : Nat} (old vm : Word)
    (h : ∀ p ∈ ps, fselReg p = r → (fieldMask p).getLsbD k = false) :
    (mergeField old (batchWriteMask r ps) vm).getLsbD k = old.getLsbD k := by
  rw [getLsbD_mergeField, if_neg]
  intro hbit
  obtain ⟨p, hp, hr, hk⟩ := getLsbD_batchWriteMask.mp hbit
  rw [h p hp hr] at hk
  cases hk

/-- The field of a pin that is not in the batch after the write of its register. -/
theorem codeAt_mergeField_of_not_mem {p : Pin} {ps : List Pin} (old vm : Word) (hp : p ∉ ps) :
    codeAt (mergeField old (batchWriteMask (fselReg p) ps) vm) p = codeAt old p := by
  refine BitVec.eq_of_getLsbD_eq fun i _ => ?_
  rw [getLsbD_codeAt, getLsbD_codeAt]
  by_cases hi : i < 3
  · rw [getLsbD_mergeField_of_outside]
    intro q hq hr
    rw [Bool.eq_false_iff]
    intro hk
    exact hp (pin_eq_of_getLsbD_fieldMask hr hk (getLsbD_fieldMask_own p hi) ▸ hq)
  · rw [decide_eq_false hi, Bool.false_and, Bool.false_and]

/-! ### Two batches -/

theorem orOver_append (vs ws : List Word) : orOver (vs ++ ws) = orOver vs ||| orOver ws := by
  refine BitVec.eq_of_getLsbD_eq fun k _ => ?_
  rw [BitVec.getLsbD_or, getLsbD_orOver, getLsbD_orOver, getLsbD_orOver, List.any_append]

theorem batchWriteMask_append (r : Fin 6) (ps qs : List Pin) :
    batchWriteMask r (ps ++ qs) = batchWriteMask r ps ||| batchWriteMask r qs := by
  simp only [batchWriteMask, List.filter_append, List.map_append, orOver_append]

theorem batchValueMask_append (r : Fin 6) (as bs : List (Pin × BitVec 3)) :
    batchValueMask r (as ++ bs) = batchValueMask r as ||| batchValueMask r bs := by
  simp only [batchValueMask, List.filter_append, List.map_append, orOver_append]

/-- One merge of two batches over different pins is the two merges, one after the other. -/
theorem mergeField_append {as bs : List (Pin × BitVec 3)} (h : ∀ a ∈ as, ∀ b ∈ bs, a.1 ≠ b.1)
    (r : Fin 6) (old : Word) :
    mergeField old (batchWriteMask r ((as ++ bs).map Prod.fst)) (batchValueMask r (as ++ bs)) =
      mergeField (mergeField old (batchWriteMask r (as.map Prod.fst)) (batchValueMask r as))
        (batchWriteMask r (bs.map Prod.fst)) (batchValueMask r bs) := by
  have hdisj : ∀ p ∈ as.map Prod.fst, ∀ q ∈ bs.map Prod.fst, p ≠ q := by
    simp only [List.forall_mem_map]
    exact h
  refine BitVec.eq_of_getLsbD_eq fun k _ => ?_
  have hwa : (batchWriteMask r (as.map Prod.fst)).getLsbD k = true →
      (batchWriteMask r (bs.map Prod.fst)).getLsbD k = false := batchWriteMask_disjoint hdisj
  have hva := getLsbD_batchWriteMask_of_batchValueMask (r := r) (pcs := as) (k := k)
  have hvb := getLsbD_batchWriteMask_of_batchValueMask (r := r) (pcs := bs) (k := k)
  simp only [List.map_append, batchWriteMask_append, batchValueMask_append, getLsbD_mergeField,
    BitVec.getLsbD_or]
  grind

end Sys2Proof.Machine
end

section
/-! PROOFS. `FSEL.GET` (41_pinmux_codec.md R150): the six snapshot reads and one code per pin,
whatever the environment does, and under `EXCL`. -/

namespace Sys2Proof.Machine

/-- A function-select register answers a read without a draw, so equal banks answer alike. -/
theorem fselPeek_congr {s t : State} (h : SameBank s t) (hc : t.cfg = s.cfg) (r : Fin 6) :
    t.peek (fselOffset r) .w4 = s.peek (fselOffset r) .w4 := by
  have ha := (fselOffset_legal r).2
  cases hk : s.cfg.kind with
  | mem => rw [peek_mem hk, peek_mem (hc ▸ hk), h.mem, hc]
  | gpio =>
    rw [State.peek, State.peek, bankRead_gpio_w4 hk ha, bankRead_gpio_w4 (hc ▸ hk) ha,
      gpioRegAt_fselOffset]
    simp only [State.gpioRead, h.fselv]

theorem mem_fselRegs (r : Fin 6) : r ∈ fselRegs := by
  revert r
  decide

theorem fselRegs_nodup : fselRegs.Nodup := by decide

/-- All that `FSEL.GET` of valid pins does: the six snapshot reads, and its pins' codes as results;
in a quiet environment the snapshot is what stands in the registers. -/
theorem fselGet_spec {s : State} (ps : List Pin) (hb : 0x3C ≤ s.cfg.bankSize) :
    ∃ (t : State) (snap : Fin 6 → Word), exec (.fselGet (ps.map pinWord)) s = .next t ∧
      fselRegs.map snap = s.readsAt .w4 (fselRegs.map fselOffset) ∧
      Ended s (okResponse (ps.map fun p => codeAt (snap (fselReg p)) p)) t ∧
      t.trace = s.trace ++ fselRegs.map (fun r => readEntry (fselOffset r) (snap r)) ∧
      SameBank (State.envTurns 6 s) t ∧ t.draws = s.draws ∧
      (s.Quiet 6 → ∀ r, snap r = s.peek (fselOffset r) .w4) := by
  obtain ⟨u, snap, hload, hctl, hbank, hdraws, htrace, hsnap, -, hread, hquiet⟩ :=
    loadSnapf_spec fselRegs s hb fselRegs_nodup
  have hgather := gatherCodes_spec ps u.clearRes
  have hcodes : (ps.map fun p => codeAt u.clearRes.work.snapf[fselReg p] p) =
      ps.map fun p => codeAt (snap (fselReg p)) p := by
    simp only [State.clearRes_work, hsnap, mem_fselRegs, if_true]
  rw [hcodes] at hgather
  have hrun : exec (.fselGet (ps.map pinWord)) s = .next _ :=
    runOp_ok <| (Op.bind_ok (requirePinBank_ok hb)).trans <| by
      rw [checkPins_pinWords, pure_bind]
      exact (Op.bind_ok hload).trans <| (Op.bind_ok (update_run _ _)).trans <|
        (Op.bind_ok hgather).trans <| Op.bind_ok (readState_run _)
  exact ⟨_, snap, hrun, hread, hctl.ended _, htrace, hbank.bank.trans ⟨rfl, rfl, rfl⟩, hdraws,
    fun hq r => hquiet hq r (mem_fselRegs r)⟩

/-- Settles O38. -/
theorem fselGetCompletes : Obligations.FselGetCompletes := by
  intro s ps hb
  obtain ⟨t, snap, hrun, hread, hended, htrace, hbank, -⟩ := fselGet_spec ps hb
  exact ⟨t, snap, hrun, hread, hended, htrace, hbank⟩

/-- Settles O39: under `EXCL` the six reads find the bank as the first one does. -/
theorem fselGetReturnsStandingCodes : Obligations.FselGetReturnsStandingCodes := by
  intro s ps hb hE
  obtain ⟨t', snap, hrun, -, hended, htrace, hbank, hdraws, hquiet⟩ :=
    fselGet_spec (s := s.exclStart 6) ps (by simpa using hb)
  have hq := exclStart_quiet 6 s
  have hsb : SameBank s.envTurn (s.exclStart 6) := exclStart_sameBank 6 s
  obtain ⟨t, hrunT, hbankT, hdrawsT, hendedT⟩ :=
    exec_of_exclStart hE hrun (by simp [htrace, fselRegs])
  have hcode : ∀ p : Pin, codeAt (snap (fselReg p)) p =
      (s.envTurn.peek (4 * (p.val / 10)) .w4 >>> (3 * (p.val % 10))) &&& 7 := by
    intro p
    rw [hquiet hq, fselPeek_congr hsb (by simp)]
    rfl
  simp only [hcode] at hended
  exact ⟨t, hrunT, hendedT _ hended, hsb.trans ((quiet_envTurns hq).trans (hbank.trans hbankT)),
    hdrawsT.trans (hdraws.trans (exclStart_draws 6 s))⟩

end Sys2Proof.Machine
end

section
/-! PROOFS. `FSEL.SET` (41_pinmux_codec.md R151, R258): one read-modify-write per affected register
whatever the environment does, and what it leaves of the bank under `EXCL`. -/

namespace Sys2Proof.Machine

/-! ### Step 5: the read-modify-writes -/

/-- The accesses made for a register with masks `wm` and `vm` whose read returns `old`: none where
the write mask is zero (41_pinmux_codec.md R151). -/
def mergeAccesses (wm vm old : Fin 6 → Word) (r : Fin 6) : List Access :=
  if wm r ≠ 0 then
    [readEntry (fselOffset r) (old r), writeEntry (fselOffset r) (mergeField (old r) (wm r) (vm r))]
  else []

theorem mergeAccesses_of_ne {wm : Fin 6 → Word} {r : Fin 6} (h : wm r ≠ 0)
    (vm old : Fin 6 → Word) :
    mergeAccesses wm vm old r = [readEntry (fselOffset r) (old r),
      writeEntry (fselOffset r) (mergeField (old r) (wm r) (vm r))] :=
  if_pos h

theorem mergeAccesses_of_eq {wm : Fin 6 → Word} {r : Fin 6} (h : wm r = 0)
    (vm old : Fin 6 → Word) : mergeAccesses wm vm old r = [] :=
  if_neg (not_not.mpr h)

/-- The accesses for a run of registers depend on the values read from these alone. -/
theorem flatMap_mergeAccesses_congr {wm vm old old' : Fin 6 → Word} {rs : List (Fin 6)}
    (h : ∀ r ∈ rs, wm r ≠ 0 → old r = old' r) :
    rs.flatMap (mergeAccesses wm vm old) = rs.flatMap (mergeAccesses wm vm old') := by
  refine List.flatMap_congr fun r hr => ?_
  by_cases hz : wm r = 0
  · rw [mergeAccesses_of_eq hz, mergeAccesses_of_eq hz]
  · rw [mergeAccesses_of_ne hz, mergeAccesses_of_ne hz, h r hr hz]

/-- The bank of `t` is that of `s` with the registers `rs` merged under the masks `wm` and `vm`. -/
structure MergedOn (rs : List (Fin 6)) (wm vm : Fin 6 → Word) (s t : State) : Prop where
  peek : ∀ q : Fin 6, t.peek (fselOffset q) .w4 =
    if q ∈ rs then mergeField (s.peek (fselOffset q) .w4) (wm q) (vm q)
    else s.peek (fselOffset q) .w4
  byteAt : ∀ a, (∀ r ∈ rs, wm r ≠ 0 → a / 4 ≠ r.val) → t.mem.byteAt a = s.mem.byteAt a
  mem : s.cfg.kind = .gpio → t.mem = s.mem
  fselv : s.cfg.kind = .mem → t.fselv = s.fselv
  outv : t.outv = s.outv

theorem MergedOn.nil (wm vm : Fin 6 → Word) (s : State) : MergedOn [] wm vm s s :=
  ⟨fun _ => rfl, fun _ _ => rfl, fun _ => rfl, fun _ => rfl, rfl⟩

/-- A register with a zero mask is merged as it stands. -/
theorem MergedOn.skip {wm : Fin 6 → Word} {r : Fin 6} (h : wm r = 0) (vm : Fin 6 → Word)
    (s : State) : MergedOn [r] wm vm s s where
  peek q := by
    split
    next hq =>
      obtain rfl := List.mem_singleton.mp hq
      rw [h, mergeField_zero]
    next => rfl
  byteAt _ _ := rfl
  mem _ := rfl
  fselv _ := rfl
  outv := rfl

/-- The write of one merged value. -/
theorem MergedOn.write {wm vm : Fin 6 → Word} {s t : State} {r : Fin 6} (h : wm r ≠ 0)
    (hc : t.cfg = s.cfg)
    (hsb : SameBank (s.bankWrite (fselOffset r) .w4
      (mergeField (s.peek (fselOffset r) .w4) (wm r) (vm r))) t) :
    MergedOn [r] wm vm s t := by
  obtain ⟨houtv, hgpio, hmem, hpeek, hbyte⟩ :=
    bankWrite_fsel s r (mergeField (s.peek (fselOffset r) .w4) (wm r) (vm r))
  refine ⟨fun q => ?_, fun a ha => ?_, fun hk => hsb.mem.trans (hgpio hk).1,
    fun hk => hsb.fselv.trans (hmem hk), hsb.outv.trans houtv⟩
  · rw [fselPeek_congr hsb (by simpa using hc), hpeek]
    by_cases hq : q = r
    · subst hq
      simp
    · simp [hq]
  · rw [hsb.mem]
    exact hbyte a (ha r List.mem_cons_self h)

theorem MergedOn.cons {wm vm : Fin 6 → Word} {s t u : State} {r : Fin 6} {rs : List (Fin 6)}
    (hr : r ∉ rs) (hc : t.cfg = s.cfg) (h : MergedOn [r] wm vm s t)
    (k : MergedOn rs wm vm t u) : MergedOn (r :: rs) wm vm s u where
  peek q := by
    rw [k.peek, h.peek]
    by_cases hq : q = r
    · subst hq
      simp [hr]
    · simp [hq]
  byteAt a ha := (k.byteAt a fun q hq => ha q (List.mem_cons_of_mem _ hq)).trans
    (h.byteAt a fun q hq => ha q (by simp [List.mem_singleton.mp hq]))
  mem hk := (k.mem (hc ▸ hk)).trans (h.mem hk)
  fselv hk := (k.fselv (hc ▸ hk)).trans (h.fselv hk)
  outv := k.outv.trans h.outv

/-- Only the bank and its parameters matter. -/
theorem MergedOn.of_sameBank {rs : List (Fin 6)} {wm vm : Fin 6 → Word} {s s' t t' : State}
    (h : MergedOn rs wm vm s t) (hs : SameBank s' s) (hsc : s.cfg = s'.cfg)
    (ht : SameBank t t') (htc : t'.cfg = t.cfg) : MergedOn rs wm vm s' t' where
  peek q := by
    rw [fselPeek_congr ht htc, h.peek, fselPeek_congr hs hsc]
  byteAt a ha := by
    rw [ht.mem, h.byteAt a ha, hs.mem]
  mem hk := ht.mem.trans ((h.mem (hsc ▸ hk)).trans hs.mem)
  fselv hk := ht.fselv.trans ((h.fselv (hsc ▸ hk)).trans hs.fselv)
  outv := ht.outv.trans (h.outv.trans hs.outv)

/-- One register of step 5, with a zero mask or not. -/
theorem applyFselReg_merges {s : State} (hb : 0x3C ≤ s.cfg.bankSize) {wm vm : Fin 6 → Word}
    {r : Fin 6} (hwm : s.work.wm[r] = wm r) (hvm : s.work.vm[r] = vm r) :
    ∃ (t : State) (old : Word), applyFselReg r s = .ok () t ∧ SameControl s t ∧
      t.work = s.work ∧ t.draws = s.draws ∧
      t.trace = s.trace ++ mergeAccesses wm vm (fun _ => old) r ∧
      t.env = s.env.drop (mergeAccesses wm vm (fun _ => old) r).length ∧
      (s.Quiet (mergeAccesses wm vm (fun _ => old) r).length →
        old = s.peek (fselOffset r) .w4 ∧ MergedOn [r] wm vm s t) := by
  by_cases hz : wm r = 0
  · simp only [mergeAccesses_of_eq hz]
    exact ⟨s, s.peek (fselOffset r) .w4, applyFselReg_skip (hwm.trans hz), .refl s, rfl, rfl,
      by simp, rfl, fun _ => ⟨rfl, .skip hz vm s⟩⟩
  · obtain ⟨t, old, hrun, hctl, hwork, hdraws, henv, htrace, hquiet⟩ :=
      applyFselReg_spec hb (r := r) (hwm ▸ hz)
    rw [hwm, hvm] at htrace hquiet
    simp only [mergeAccesses_of_ne hz]
    have hdrop : t.env = s.env.drop 2 := by
      rw [henv, ← List.drop_one, ← List.drop_one, List.drop_drop]
    refine ⟨t, old, hrun, hctl, hwork, hdraws, htrace, hdrop, fun hq => ?_⟩
    obtain ⟨hold, hsb⟩ := hquiet hq
    subst hold
    exact ⟨rfl, .write hz hctl.cfg hsb⟩

/-- Step 5 over registers that differ: the accesses of each in turn; in a quiet environment each
read finds what stood in its register. -/
theorem applyFsel_merges {wm vm : Fin 6 → Word} (rs : List (Fin 6)) {s : State}
    (hb : 0x3C ≤ s.cfg.bankSize) (hn : rs.Nodup) (hwm : ∀ r : Fin 6, s.work.wm[r] = wm r)
    (hvm : ∀ r : Fin 6, s.work.vm[r] = vm r) :
    ∃ (t : State) (old : Fin 6 → Word), applyFsel rs s = .ok () t ∧ SameControl s t ∧
      t.draws = s.draws ∧ t.trace = s.trace ++ rs.flatMap (mergeAccesses wm vm old) ∧
      (s.Quiet (rs.flatMap (mergeAccesses wm vm old)).length →
        (∀ r ∈ rs, old r = s.peek (fselOffset r) .w4) ∧ MergedOn rs wm vm s t) := by
  induction rs generalizing s with
  | nil =>
    exact ⟨s, fun _ => 0, rfl, .refl s, rfl, by simp, fun _ => ⟨by simp, .nil wm vm s⟩⟩
  | cons r rs ih =>
    obtain ⟨hr, hn⟩ := List.nodup_cons.mp hn
    obtain ⟨t1, v, hrun1, hctl1, hwork1, hdraws1, htrace1, henv1, hquiet1⟩ :=
      applyFselReg_merges hb (hwm r) (hvm r)
    obtain ⟨t2, old, hrun2, hctl2, hdraws2, htrace2, hquiet2⟩ :=
      ih (hctl1.cfg ▸ hb) hn (fun q => hwork1 ▸ hwm q) (fun q => hwork1 ▸ hvm q)
    have hne : ∀ q ∈ rs, q ≠ r := by
      rintro q hq rfl
      exact hr hq
    have hacc : (r :: rs).flatMap (mergeAccesses wm vm (Function.update old r v)) =
        mergeAccesses wm vm (fun _ => v) r ++ rs.flatMap (mergeAccesses wm vm old) := by
      rw [List.flatMap_cons, flatMap_mergeAccesses_congr fun q hq _ =>
        Function.update_of_ne (hne q hq) v old]
      congr 1
      simp only [mergeAccesses, Function.update_self]
    refine ⟨t2, Function.update old r v, (Op.bind_ok hrun1).trans hrun2, hctl1.trans hctl2,
      hdraws2.trans hdraws1, ?_, fun hq => ?_⟩
    · rw [htrace2, htrace1, hacc, List.append_assoc]
    · rw [hacc, List.length_append] at hq
      obtain ⟨hv, hmerged1⟩ := hquiet1 (quiet_mono hq (Nat.le_add_right _ _))
      obtain ⟨hold, hmerged2⟩ := hquiet2 (quiet_drop (Nat.add_comm _ _ ▸ hq) henv1)
      refine ⟨fun q hq => ?_, hmerged1.cons hr hctl1.cfg hmerged2⟩
      rcases List.mem_cons.mp hq with rfl | hq
      · rw [Function.update_self, hv]
      · rw [Function.update_of_ne (hne q hq), hold q hq, hmerged1.peek]
        simp [hne q hq]

/-! ### The whole command -/

/-- The masks of a batch, by register (41_pinmux_codec.md R152). -/
def batchWM (pcs : List (Pin × BitVec 3)) (r : Fin 6) : Word :=
  batchWriteMask r (pcs.map Prod.fst)

/-- See `batchWM`. -/
def batchVM (pcs : List (Pin × BitVec 3)) (r : Fin 6) : Word := batchValueMask r pcs

theorem batchWM_ne_zero_iff {pcs : List (Pin × BitVec 3)} {r : Fin 6} :
    batchWM pcs r ≠ 0 ↔ ∃ pc ∈ pcs, fselReg pc.1 = r := by
  rw [batchWM, batchWriteMask_ne_zero_iff]
  simp

/-- The accesses of a batch whose reads return `old`. -/
def fselSetMade (pcs : List (Pin × BitVec 3)) (old : Fin 6 → Word) : List Access :=
  fselRegs.flatMap (mergeAccesses (batchWM pcs) (batchVM pcs) old)

theorem length_fselSetMade (pcs : List (Pin × BitVec 3)) (old : Fin 6 → Word) :
    (fselSetMade pcs old).length = fselSetAccesses (pcs.map Prod.fst) := by
  have hrs : ∀ rs : List (Fin 6),
      (rs.flatMap (mergeAccesses (batchWM pcs) (batchVM pcs) old)).length =
        2 * (rs.filter fun r => ∃ p ∈ pcs.map Prod.fst, fselReg p = r).length := by
    intro rs
    induction rs with
    | nil => rfl
    | cons r rs ih =>
      rw [List.flatMap_cons, List.length_append, ih]
      by_cases hz : batchWM pcs r = 0
      · have hnone := batchWriteMask_ne_zero_iff.not.mp (not_not.mpr hz)
        rw [mergeAccesses_of_eq hz, List.filter_cons_of_neg (by simpa using hnone)]
        simp
      · have hsome := batchWriteMask_ne_zero_iff.mp hz
        rw [mergeAccesses_of_ne hz, List.filter_cons_of_pos (by simpa using hsome)]
        simp only [List.length_cons, List.length_nil]
        omega
  exact hrs fselRegs

theorem zeroMasks_getElem (r : Fin 6) : (#v[0, 0, 0, 0, 0, 0] : Vector Word 6)[r] = 0 := by
  revert r
  decide

/-- Steps 2 to 4: the masks of the batch, and nothing else is touched. -/
theorem scanBatch_spec (pcs : List (Pin × BitVec 3)) (s : State) :
    ∃ t, scanCodes (pcs.map Prod.fst) (pcs.map fun pc => codeWord pc.2) s.clearFselMasks =
        .ok () t ∧
      SameControl s t ∧ SameForBank s t ∧ t.draws = s.draws ∧ t.trace = s.trace ∧
      (∀ r : Fin 6, t.work.wm[r] = batchWM pcs r) ∧
      ∀ r : Fin 6, t.work.vm[r] = batchVM pcs r := by
  obtain ⟨t, hscan, ht, hwm, hvm⟩ := scanCodes_spec pcs s.clearFselMasks
  refine ⟨t, hscan, ?_, ?_, by rw [ht]; rfl, by rw [ht]; rfl, fun r => ?_, fun r => ?_⟩
  · rw [ht]
    exact ⟨rfl, rfl, rfl, rfl, rfl⟩
  · rw [ht]
    exact ⟨⟨rfl, rfl, rfl⟩, rfl, rfl⟩
  · have hzero : s.clearFselMasks.work.wm[r] = 0 := zeroMasks_getElem r
    rw [hwm, hzero, BitVec.ofNat_eq_ofNat, BitVec.zero_or]
    rfl
  · have hzero : s.clearFselMasks.work.vm[r] = 0 := zeroMasks_getElem r
    rw [hvm, hzero, BitVec.ofNat_eq_ofNat, BitVec.zero_or]
    rfl

/-- All that `FSEL.SET` of a valid batch does, whatever the environment does; in a quiet one it
leaves the bank it found with every register merged. -/
theorem fselSet_spec {s : State} (pcs : List (Pin × BitVec 3)) (hb : 0x3C ≤ s.cfg.bankSize) :
    ∃ (t : State) (old : Fin 6 → Word),
      exec (.fselSet (pcs.map fun pc => pinWord pc.1) (pcs.map fun pc => codeWord pc.2)) s =
        .next t ∧
      Ended s (okResponse []) t ∧ t.draws = s.draws ∧ t.trace = s.trace ++ fselSetMade pcs old ∧
      (s.Quiet (fselSetAccesses (pcs.map Prod.fst)) →
        (∀ r, old r = s.peek (fselOffset r) .w4) ∧
        MergedOn fselRegs (batchWM pcs) (batchVM pcs) s t) := by
  obtain ⟨u, hscan, hctlU, hbankU, hdrawsU, htraceU, hwm, hvm⟩ := scanBatch_spec pcs s
  obtain ⟨x, old, happly, hctlX, hdrawsX, htraceX, hquiet⟩ :=
    applyFsel_merges fselRegs (hctlU.cfg ▸ hb) fselRegs_nodup hwm hvm
  have hpins : (pcs.map fun pc => pinWord pc.1) = (pcs.map Prod.fst).map pinWord := by
    rw [List.map_map]
    rfl
  have hrun : exec (.fselSet (pcs.map fun pc => pinWord pc.1)
      (pcs.map fun pc => codeWord pc.2)) s = .next (x.respondOk []) := by
    rw [hpins]
    refine runOp_ok <| (Op.bind_ok (requirePinBank_ok hb)).trans ?_
    rw [checkPins_pinWords, pure_bind]
    exact (Op.bind_ok (update_run _ _)).trans <| (Op.bind_ok hscan).trans <| Op.bind_ok happly
  refine ⟨_, old, hrun, (hctlU.trans hctlX).ended _, hdrawsX.trans hdrawsU, ?_, fun hq => ?_⟩
  · rw [State.respondOk_trace, htraceX, htraceU]
    rfl
  · rw [← length_fselSetMade pcs old] at hq
    obtain ⟨hold, hmerged⟩ := hquiet (quiet_of_env hq hbankU.env)
    exact ⟨fun r => (hold r (mem_fselRegs r)).trans (fselPeek_congr hbankU.bank hctlU.cfg r),
      hmerged.of_sameBank hbankU.bank hctlU.cfg ⟨rfl, rfl, rfl⟩ rfl⟩

/-- The accesses of a batch, in the terms of the statements. -/
theorem fselSetMade_eq (pcs : List (Pin × BitVec 3)) (old : Fin 6 → Word) :
    fselSetMade pcs old = ([0, 1, 2, 3, 4, 5] : List (Fin 6)).flatMap (fun r =>
      if ∃ pc ∈ pcs, fselReg pc.1 = r then
        [readEntry (fselOffset r) (old r), writeEntry (fselOffset r)
          (mergeField (old r) (batchWM pcs r) (batchVM pcs r))]
      else []) := by
  refine List.flatMap_congr fun r _ => ?_
  by_cases h : ∃ pc ∈ pcs, fselReg pc.1 = r
  · rw [mergeAccesses_of_ne (batchWM_ne_zero_iff.mpr h), if_pos h]
  · rw [mergeAccesses_of_eq (not_not.mp (batchWM_ne_zero_iff.not.mpr h)), if_neg h]

/-- Settles O41. -/
theorem fselSetTouchesOnlyAffectedRegisters : Obligations.FselSetTouchesOnlyAffectedRegisters := by
  intro s pcs hb
  obtain ⟨t, old, hrun, hended, -, htrace, -⟩ := fselSet_spec pcs hb
  exact ⟨t, old, hrun, hended, htrace.trans (congrArg (s.trace ++ ·) (fselSetMade_eq pcs old))⟩

/-! ### Under `EXCL` (20_memory.md R64) -/

@[simp] theorem atFirstAccess_cfg (n : Nat) (s : State) : (s.atFirstAccess n).cfg = s.cfg := by
  cases n <;> simp [State.atFirstAccess]

/-- A command of `n` accesses traces under `EXCL` what it traces from `State.exclStart`. -/
theorem exec_of_exclStart_trace {i : Instr} {n : Nat} {s t t' : State} (hE : s.Excl n)
    (h : exec i (s.exclStart n) = .next t') (hn : t'.trace.length = s.trace.length + n)
    (ht : exec i s = .next t) : t.trace = t'.trace := by
  cases n with
  | zero =>
    cases h.symm.trans ht
    rfl
  | succ n =>
    obtain ⟨u, hu, -, rfl⟩ := exec_alone i hE h hn (Nat.le_refl _)
    cases hu.symm.trans ht
    rfl

/-- All that `FSEL.SET` of a valid batch does under `EXCL`: the bank found at the first access, with
every register merged. -/
theorem fselSet_excl {s : State} (pcs : List (Pin × BitVec 3)) (hb : 0x3C ≤ s.cfg.bankSize)
    (hE : s.Excl (fselSetAccesses (pcs.map Prod.fst))) :
    ∃ (t : State) (old : Fin 6 → Word),
      exec (.fselSet (pcs.map fun pc => pinWord pc.1) (pcs.map fun pc => codeWord pc.2)) s =
        .next t ∧
      Ended s (okResponse []) t ∧ t.draws = s.draws ∧ t.trace = s.trace ++ fselSetMade pcs old ∧
      (∀ r, old r =
        (s.atFirstAccess (fselSetAccesses (pcs.map Prod.fst))).peek (fselOffset r) .w4) ∧
      MergedOn fselRegs (batchWM pcs) (batchVM pcs)
        (s.atFirstAccess (fselSetAccesses (pcs.map Prod.fst))) t := by
  obtain ⟨t', old, hrun, hended, hdraws, htrace, hquiet⟩ :=
    fselSet_spec (s := s.exclStart _) pcs (by simpa using hb)
  have hlen : t'.trace.length = s.trace.length + fselSetAccesses (pcs.map Prod.fst) := by
    simp [htrace, length_fselSetMade]
  obtain ⟨hold, hmerged⟩ := hquiet (exclStart_quiet _ s)
  have hsb := exclStart_sameBank (fselSetAccesses (pcs.map Prod.fst)) s
  obtain ⟨t, hrunT, hbankT, hdrawsT, hendedT⟩ := exec_of_exclStart hE hrun hlen
  have htraceT := exec_of_exclStart_trace hE hrun hlen hrunT
  refine ⟨t, old, hrunT, hendedT _ hended, hdrawsT.trans (hdraws.trans (exclStart_draws _ s)), ?_,
    fun r => (hold r).trans (fselPeek_congr hsb (by simp) r),
    hmerged.of_sameBank hsb (by simp) hbankT ?_⟩
  · rw [htraceT, htrace, exclStart_trace]
  · rw [(hendedT _ hended).cfg, hended.cfg, exclStart_cfg]

/-- Every register is merged, the affected ones under a mask that is not zero. -/
theorem MergedOn.peek_batch {pcs : List (Pin × BitVec 3)} {s t : State}
    (h : MergedOn fselRegs (batchWM pcs) (batchVM pcs) s t) (r : Fin 6) :
    t.peek (fselOffset r) .w4 =
      mergeField (s.peek (fselOffset r) .w4) (batchWM pcs r) (batchVM pcs r) := by
  rw [h.peek, if_pos (mem_fselRegs r)]

/-- Settles O40: the bank under `EXCL` is the one found with every register merged. -/
theorem fselSetCompletes : Obligations.FselSetCompletes := by
  rintro s b pcs hb hE rfl
  obtain ⟨t, old, hrun, hended, hdraws, htrace, hold, hmerged⟩ := fselSet_excl pcs hb hE
  refine ⟨t, hrun, hended, hmerged.peek_batch, ?_, fun a ha => hmerged.byteAt a fun r _ hr => ?_,
    fun hk => hmerged.mem (by simpa using hk), fun hk => hmerged.fselv (by simpa using hk),
    hmerged.outv, hdraws⟩
  · rw [htrace, fselSetMade_eq]
    simp only [hold, ← hmerged.peek_batch]
    rfl
  · obtain ⟨pc, hmem, rfl⟩ := batchWM_ne_zero_iff.mp hr
    exact ha pc hmem

end Sys2Proof.Machine
end

section
/-! PROOFS. What `FSEL.SET` under `EXCL` means for the codes (41_pinmux_codec.md R154 to R156): the
fields of the batch and all other bits, `FSEL.GET` after it, and one batch against two. -/

namespace Sys2Proof.Machine

/-- An `FSEL.SET` under `EXCL` that answered has merged every register of the bank it found. -/
theorem fselSet_merged {s t : State} {pcs : List (Pin × BitVec 3)} (hb : 0x3C ≤ s.cfg.bankSize)
    (hE : s.Excl (fselSetAccesses (pcs.map Prod.fst)))
    (h : exec (.fselSet (pcs.map fun pc => pinWord pc.1) (pcs.map fun pc => codeWord pc.2)) s =
      .next t) :
    t.cfg = s.cfg ∧ MergedOn fselRegs (batchWM pcs) (batchVM pcs)
      (s.atFirstAccess (fselSetAccesses (pcs.map Prod.fst))) t := by
  obtain ⟨t', old, hrun, hended, -, -, -, hmerged⟩ := fselSet_excl pcs hb hE
  cases hrun.symm.trans h
  exact ⟨hended.cfg, hmerged⟩

/-- Settles O42, by the bits of the merged registers. -/
theorem fselSetLeavesOtherFields : Obligations.FselSetLeavesOtherFields := by
  rintro s b t pcs hb hE rfl h
  obtain ⟨-, hmerged⟩ := fselSet_merged hb hE h
  refine ⟨fun p hp => ?_, fun r k hk => ?_⟩
  · have hfield := codeAt_mergeField_of_mem ((s.atFirstAccess
      (fselSetAccesses (pcs.map Prod.fst))).peek (fselOffset (fselReg p)) .w4) hp
    exact (congrArg (codeAt · p) (hmerged.peek_batch (fselReg p))).trans hfield
  · refine (congrArg (·.getLsbD k) (hmerged.peek_batch r)).trans
      (getLsbD_mergeField_of_outside _ _ fun p hp hr => ?_)
    rw [getLsbD_fieldMask, decide_eq_false_iff_not]
    exact hk p hp (congrArg Fin.val hr)

theorem fselSetAccesses_one (p : Pin) : fselSetAccesses [p] = 2 := by
  have hone : ∀ q : Fin 6,
      (([0, 1, 2, 3, 4, 5] : List (Fin 6)).filter fun r => q = r).length = 1 := by decide
  simp only [fselSetAccesses, affectedRegs, List.mem_singleton, exists_eq_left, hone]

theorem batchCode_one (p : Pin) (c : BitVec 3) : batchCode p [(p, c)] = codeWord c := by
  simp [batchCode, orOver]

/-- The codes an `FSEL.GET` returns after an `FSEL.SET` of one pin, from those before it. -/
theorem codeAt_after_one {s t : State} {p : Pin} {c : BitVec 3}
    (h : MergedOn fselRegs (batchWM [(p, c)]) (batchVM [(p, c)]) s t) (q : Pin) :
    codeAt (t.peek (fselOffset (fselReg q)) .w4) q =
      if q = p then codeWord c else codeAt (s.peek (fselOffset (fselReg q)) .w4) q := by
  rw [h.peek_batch]
  split
  next hq =>
    subst hq
    exact (codeAt_mergeField_of_mem _ (by simp)).trans (batchCode_one q c)
  next hq => exact codeAt_mergeField_of_not_mem _ _ (by simpa using hq)

/-- Settles O43: each `FSEL.GET` returns the standing codes (O39), and of these the `FSEL.SET`
changed its own pin's. -/
theorem fselRoundTripNoClobber : Obligations.FselRoundTripNoClobber := by
  intro g s t u p c qs hb hEg hEs hEu hcg hsb hset htu hcu
  obtain ⟨hct, hmerged⟩ := fselSet_merged (pcs := [(p, c)]) hb (fselSetAccesses_one p ▸ hEs) hset
  have hfirst : s.atFirstAccess (fselSetAccesses ([(p, c)].map Prod.fst)) = s.envTurn := by
    rw [show [(p, c)].map Prod.fst = [p] from rfl, fselSetAccesses_one]
    rfl
  rw [hfirst] at hmerged
  have hseen : MergedOn fselRegs (batchWM [(p, c)]) (batchVM [(p, c)]) g.envTurn u.envTurn :=
    hmerged.of_sameBank hsb (by simp [hcg]) htu (by simp [hcu])
  obtain ⟨before, hrunG, hendedG, -⟩ := fselGetReturnsStandingCodes g qs (hcg ▸ hb) hEg
  obtain ⟨after, hrunU, hendedU, -⟩ :=
    fselGetReturnsStandingCodes u qs (by rw [hcu, hct]; exact hb) hEu
  refine ⟨before, after, _, hrunG, hendedG, List.length_map _, hrunU, ?_⟩
  convert hendedU using 2
  refine List.ext_getElem (by simp) fun i hi _ => ?_
  simp only [List.getElem_map, List.getElem_zip]
  exact (codeAt_after_one hseen _).symm

/-- Settles O44: one merge of both batches is the two merges in sequence. -/
theorem fselBatchEqualsSequence : Obligations.FselBatchEqualsSequence := by
  intro s t s1 t1 u t2 as bs hb hE hE1 hEu hdisj hrun hc1 hsb hrun1 hsbu hcu hrunu r
  obtain ⟨-, hmerged⟩ := fselSet_merged hb hE hrun
  obtain ⟨hct1, hmerged1⟩ := fselSet_merged (hc1 ▸ hb) hE1 hrun1
  obtain ⟨-, hmerged2⟩ := fselSet_merged (by rw [hcu, hct1, hc1]; exact hb) hEu hrunu
  have hstart := fselPeek_congr hsb (by simp [hc1]) r
  have hmiddle := fselPeek_congr hsbu (by simp [hcu]) r
  calc t.peek (fselOffset r) .w4
      = mergeField _ (batchWM (as ++ bs) r) (batchVM (as ++ bs) r) := hmerged.peek_batch r
    _ = mergeField (mergeField _ (batchWM as r) (batchVM as r)) (batchWM bs r) (batchVM bs r) :=
      mergeField_append hdisj r _
    _ = mergeField (t1.peek (fselOffset r) .w4) (batchWM bs r) (batchVM bs r) := by
      rw [hmerged1.peek_batch r, hstart]
    _ = t2.peek (fselOffset r) .w4 := by rw [hmerged2.peek_batch r, hmiddle]

end Sys2Proof.Machine
end

section
/-! PROOFS. `DIO.READ` and `DIO.WRRB` whatever the environment does (42_dio_batch.md R170, R171,
R174, R175): what they read, write and draw, and that a `DIO.WRRB` without a value is a
`DIO.READ`. -/

namespace Sys2Proof.Machine

/-- Settles O49. -/
theorem dioReadCompletes : Obligations.DioReadCompletes :=
  fun _ ps hb => dioRead_spec ps hb

/-- Settles O50: the bank is what the traced accesses leave (`exec_accesses`). -/
theorem dioWrrbCompletes : Obligations.DioWrrbCompletes := by
  intro s ps values hb hl
  obtain ⟨t, v0, v1, hrun, hread, hended, htrace⟩ := dioWrrb_spec ps hb hl
  obtain ⟨made, hmade, -, hbank⟩ := exec_accesses hrun
  obtain rfl := List.append_cancel_left (hmade.symm.trans htrace)
  exact ⟨t, v0, v1, hrun, hread, hended, htrace, hbank.bank⟩

/-- Settles O56: pin 35 is bit 3 of register 1, so each mask that is not zero is 8. -/
theorem workedMasksAreExact : Obligations.WorkedMasksAreExact := by
  intro s hb
  obtain ⟨t, v0, v1, hrun, -, hended, htrace⟩ :=
    dioWrrb_spec [3, 35] (values := [some true, some false]) hb (Nat.le_refl 2)
  have hwrites : batchLevelWrites ([(3, some true), (35, some false)] : List (Pin × Option Bool)) =
      [writeEntry 0x1C 8, writeEntry 0x2C 8] := by decide
  have hmade : batchAccesses v0 v1 (([3, 35] : List Pin).zip [some true, some false]) =
      [readEntry 0x34 v0, readEntry 0x38 v1, writeEntry 0x1C 8, writeEntry 0x2C 8] :=
    congrArg ([readEntry 0x34 v0, readEntry 0x38 v1] ++ ·) hwrites
  exact ⟨t, v0, v1, hrun, hmade ▸ htrace, hended⟩

/-! ### Without a value (42_dio_batch.md R175 (a)) -/

/-- Two pseudocodes with a common beginning end alike if what follows it does. -/
theorem runOp_bind_congr {α : Type} {x : Op α} {f g : α → Op (List Word)} {s : State}
    (h : ∀ a t, x s = .ok a t → runOp (f a) t = runOp (g a) t) :
    runOp (x >>= f) s = runOp (x >>= g) s := by
  simp only [runOp, Op.bind_run] at h ⊢
  cases hx : x s with
  | ok a t => exact h a t hx
  | error e t => rfl

theorem length_of_parsePins {pins : List Word} {ps : List Pin} (h : parsePins pins = some ps) :
    ps.length = pins.length := by
  induction pins generalizing ps with
  | nil =>
    cases h
    rfl
  | cons p pins ih =>
    unfold parsePins at h
    split at h
    next q qs _ hqs =>
      cases h
      exact congrArg Nat.succ (ih hqs)
    next => cases h

/-- The pin pre-pass names one pin for each operand word (41_pinmux_codec.md R153). -/
theorem length_of_checkPins {pins : List Word} {ps : List Pin} {s t : State}
    (h : checkPins pins s = .ok ps t) : ps.length = pins.length := by
  cases hps : parsePins pins with
  | some qs =>
    simp only [checkPins, hps] at h
    cases h
    exact length_of_parsePins hps
  | none =>
    simp only [checkPins, hps] at h
    cases h

/-- An absent value sets no bit, so scanning absent values only gathers the levels. -/
theorem scanLevels_absent {ps : List Pin} {n : Nat} (h : ps.length ≤ n) :
    scanLevels ps (List.replicate n none) = gatherLevels ps := by
  induction ps generalizing n with
  | nil => rfl
  | cons p ps ih =>
    obtain ⟨n, rfl⟩ := Nat.exists_eq_add_one_of_ne_zero (Nat.ne_zero_of_lt h)
    rw [List.replicate_succ, scanLevels, ih (Nat.le_of_succ_le_succ h)]
    rfl

/-- Zero masks are not written. -/
theorem applyLevels_of_zero {s : State} (hsm : s.work.sm = #v[0, 0]) (hcm : s.work.cm = #v[0, 0]) :
    applyLevels s = .ok () s := by
  simp only [applyLevels, Op.bind_ok (readState_run s), hsm, hcm]
  rfl

/-- `DIO.READ` past its snapshot: the results are the only thing it adds. -/
theorem runOp_gatherLevels (ps : List Pin) (s : State) :
    runOp (do
      update State.clearRes
      gatherLevels ps
      return (← readState).work.res) s =
      .next (s.respondOk (ps.map fun p => levelAt s.work.snapl[bitReg p] p)) :=
  Eq.trans (runOp_ok <| (Op.bind_ok (update_run _ _)).trans <|
    (Op.bind_ok (gatherLevels_spec ps s.clearRes)).trans <| Op.bind_ok (readState_run _)) rfl

/-- Settles O55: up to the snapshot the two are the same lines, and after it absent values leave
the masks zero. -/
theorem allAbsentIsPureRead : Obligations.AllAbsentIsPureRead := by
  intro s pins n hn
  refine runOp_bind_congr fun _ _ _ => runOp_bind_congr fun ps _ hps =>
    runOp_bind_congr fun _ u _ => ?_
  have hlen : ps.length ≤ n := (length_of_checkPins hps).trans_le hn
  rw [scanLevels_absent hlen, runOp_gatherLevels]
  exact Eq.trans (runOp_ok <| (Op.bind_ok (update_run _ _)).trans <|
    (Op.bind_ok (update_run _ _)).trans <|
      (Op.bind_ok (gatherLevels_spec ps u.clearDioMasks.clearRes)).trans <|
        (Op.bind_ok (applyLevels_of_zero rfl rfl)).trans <| Op.bind_ok (readState_run _)) rfl

/-! ### Draws (10_state.md R32) -/

/-- Past its snapshot `DIO.WRRB` draws nothing. -/
theorem dioWrrb_draws {s t u : State} {ps : List Pin} {values : List (Option Bool)}
    (hb : 0x3C ≤ s.cfg.bankSize) (hl : ps.length ≤ values.length)
    (hload : loadSnapl s = .ok () u) (hctl : SameControl s u)
    (hrun : exec (.dioWrrb (ps.map pinWord) values) s = .next t) : t.draws = u.draws := by
  obtain ⟨w, hscan, hw, -⟩ := scanLevels_spec ps values u.clearDioMasks.clearRes
  obtain ⟨-, hscan, -⟩ | ⟨hlt, -⟩ := hscan
  · have hcfg : w.cfg = s.cfg := by
      rw [hw]
      exact hctl.cfg
    obtain ⟨x, happly, -, -, hdraws, -⟩ := applyLevels_spec (s := w) (hcfg ▸ hb)
    have hx : exec (.dioWrrb (ps.map pinWord) values) s = .next (x.respondOk _) :=
      runOp_ok <| (Op.bind_ok (requirePinBank_ok hb)).trans <| by
        rw [checkPins_pinWords, pure_bind]
        exact (Op.bind_ok hload).trans <| (Op.bind_ok (update_run _ _)).trans <|
          (Op.bind_ok (update_run _ _)).trans <| (Op.bind_ok hscan).trans <|
            (Op.bind_ok happly).trans <| Op.bind_ok (readState_run _)
    cases hrun.symm.trans hx
    rw [State.respondOk_draws, hdraws, hw]
    rfl
  · omega

end Sys2Proof.Machine
end

section
/-! PROOFS. `DIO.READ` and `DIO.WRRB` where no other agent writes between their accesses
(42_dio_batch.md R170, R171, R176, R177): the snapshot they read, the levels of a GPIO-kind bank and
the latch bits a `DIO.WRRB` drives. -/

namespace Sys2Proof.Machine

/-! ### The premise `EXCL` (20_memory.md R64) -/

theorem excl_mono {s : State} {m n : Nat} (h : s.Excl n) (hm : m ≤ n) : s.Excl m :=
  fun gap hgap => h gap (((List.take_sublist_take_left hm).tail).mem hgap)

/-- Under `EXCL` the turns of the environment after the first leave the bank alone. -/
theorem excl_envTurns {s : State} {n : Nat} (h : s.Excl (n + 1)) :
    SameBank s.envTurn (State.envTurns (n + 1) s) :=
  quiet_envTurns (excl_quiet h (State.envTurn_env s))

/-- Two reads under `EXCL`: the second finds what the first has left. -/
theorem excl_readsAt {s : State} (h : s.Excl 2) (w : AccessWidth) (a b : Nat) :
    s.readsAt w [a, b] = [s.envTurn.peek a w, (s.envTurn.bankRead a w).2.peek b w] := by
  have hquiet : (s.envTurn.bankRead a w).2.Quiet 1 := excl_quiet h (by simp)
  simp only [State.readsAt, quiet_peek hquiet]

/-- The snapshot of a MEM-kind bank under `EXCL`: what stands in it at the first access. -/
theorem excl_levels_mem {s : State} (hk : s.cfg.kind = .mem) (h : s.Excl 2) :
    s.readsAt .w4 [0x34, 0x38] = [s.envTurn.peek 0x34 .w4, s.envTurn.peek 0x38 .w4] := by
  have hread : (s.envTurn.bankRead 0x34 .w4).2 = s.envTurn := by simp [State.bankRead, hk]
  rw [excl_readsAt h, hread]

/-- The snapshot of a GPIO-kind bank under `EXCL`: its two level values, each with a draw of its
own. -/
theorem excl_levels_gpio {s : State} (hk : s.cfg.kind = .gpio) (h : s.Excl 2) :
    s.readsAt .w4 [0x34, 0x38] = [s.envTurn.levelValue 0 (Config.draw s.draws),
      s.envTurn.levelValue 1 (Config.draw (s.draws + 1))] := by
  have h0 : s.envTurn.bankRead 0x34 .w4 = _ := bankRead_lev (by simpa using hk) 0
  have h1 : s.envTurn.drawn.2.bankRead 0x38 .w4 = _ := bankRead_lev (by simpa using hk) 1
  rw [excl_readsAt h, State.peek, State.peek, h0, h1,
    levelValue_congr (s := s.envTurn) (t := s.envTurn.drawn.2) ⟨rfl, rfl, rfl⟩ rfl]
  simp

/-! ### Levels of a GPIO-kind bank (10_state.md R32, R40) -/

/-- A level is one bit of the register (42_dio_batch.md R170). -/
theorem levelAt_eq_ofBool (v : Word) (p : Pin) :
    levelAt v p = (BitVec.ofBool (v.getLsbD (p.val % 32))).setWidth 32 := by
  rw [levelAt, BitVec.ofNat_eq_ofNat, BitVec.and_one_eq_setWidth_ofBool_getLsbD,
    BitVec.getLsbD_ushiftRight, Nat.add_zero]
  rfl

/-- The level of a pin in its level register: its latch bit or its bit of the draw. -/
theorem levelAt_levelValue (s : State) (d : Word) (p : Pin) :
    levelAt (s.levelValue (bitReg p) d) p = s.pinLevel d p := by
  have hbit : (s.levelValue (bitReg p) d).getLsbD (p.val % 32) =
      s.levelBit (bitReg p) d (p.val % 32) := by
    simp [State.levelValue, Nat.mod_lt]
  rw [levelAt_eq_ofBool, hbit]
  unfold State.pinLevel
  split
  next h =>
    rw [levelBit_tied d h.1 ((pinIsOut_iff s p).mpr h.2)]
    exact (levelAt_eq_ofBool _ p).symm
  next h =>
    rw [levelBit_free d fun q hq hl ho => h ⟨hl, ?_⟩]
    · exact (levelAt_eq_ofBool d p).symm
    · rw [pinAtBit_of_pin rfl] at hq
      cases hq
      exact (pinIsOut_iff s p).mp ho

/-- The level a snapshot of a GPIO-kind bank gives for a pin. -/
theorem snapshotLevel_levelValue (s : State) (d : Nat → Word) (p : Pin) :
    snapshotLevel (s.levelValue 0 (d 0)) (s.levelValue 1 (d 1)) p =
      s.pinLevel (d (p.val / 32)) p := by
  have hreg : ∀ r : Fin 2,
      #v[s.levelValue 0 (d 0), s.levelValue 1 (d 1)][r] = s.levelValue r (d r.val) := by
    intro r
    match r with
    | 0 => rfl
    | 1 => rfl
  rw [← levelAt_snapshot, hreg, levelAt_levelValue]
  rfl

/-- `DIO.WRRB` on a GPIO-kind bank with no other agent between its two snapshot reads. -/
theorem dioWrrb_gpio {s : State} (ps : List Pin) {values : List (Option Bool)}
    (hk : s.cfg.kind = .gpio) (hb : 0x3C ≤ s.cfg.bankSize) (hE : s.Excl 2)
    (hl : ps.length ≤ values.length) :
    ∃ t : State, exec (.dioWrrb (ps.map pinWord) values) s = .next t ∧
      Ended s (okResponse (ps.map fun p =>
        s.envTurn.pinLevel (Config.draw (s.draws + p.val / 32)) p)) t ∧
      t.draws = s.draws + 2 := by
  obtain ⟨t, v0, v1, hrun, hread, hended, -⟩ := dioWrrb_spec ps hb hl
  obtain ⟨u, -, -, hload, hctl, -, -, -, -, -, hdraws, -⟩ := loadSnapl_spec hb
  rw [excl_levels_gpio hk hE] at hread
  cases hread
  have hlevel : snapshotLevel _ _ = fun p => s.envTurn.pinLevel _ p :=
    funext (snapshotLevel_levelValue s.envTurn fun r => Config.draw (s.draws + r))
  exact ⟨t, hrun, hlevel ▸ hended, (dioWrrb_draws hb hl hload hctl hrun).trans (hdraws hk)⟩

/-- Settles O52: `DIO.READ` is the `DIO.WRRB` without a value (O55). -/
theorem dioLevelsFollowLoopback : Obligations.DioLevelsFollowLoopback := by
  intro s ps values hk hb hE
  refine ⟨?_, dioWrrb_gpio ps hk hb hE⟩
  obtain ⟨t, hrun, hended, hdraws⟩ := dioWrrb_gpio ps (values := List.replicate ps.length none)
    hk hb hE (by simp)
  rw [allAbsentIsPureRead s _ _ (by simp)] at hrun
  obtain ⟨t', -, -, hrun', -, -, -, hbank⟩ := dioRead_spec ps hb
  cases hrun.symm.trans hrun'
  exact ⟨t, hrun, hended, (excl_envTurns hE).trans hbank, hdraws⟩

/-! ### `DIO.WRRB` under `EXCL` -/

/-- Under `EXCL` a `DIO.WRRB` with a value for every pin ends as it does with no other agent. -/
theorem dioWrrb_alone {s : State} (ps : List Pin) {values : List (Option Bool)}
    (hb : 0x3C ≤ s.cfg.bankSize) (hl : ps.length ≤ values.length)
    (hE : s.Excl (dioWrrbAccesses (ps.zip values))) :
    ∃ t' t : State, exec (.dioWrrb (ps.map pinWord) values) s.alone = .next t' ∧
      exec (.dioWrrb (ps.map pinWord) values) s = .next t ∧ SameBank t' t ∧
      t.draws = t'.draws := by
  have hstart : s.exclStart (dioWrrbAccesses (ps.zip values)) = s.alone := by
    rw [dioWrrbAccesses, Nat.add_comm]
    rfl
  obtain ⟨t', v0, v1, hrun', -, -, htrace⟩ := dioWrrb_spec (s := s.alone) ps (by simpa) hl
  obtain ⟨t, hrun, hbank, hdraws, -⟩ :=
    exec_of_exclStart hE (hstart ▸ hrun') (by simp [htrace])
  exact ⟨t', t, hrun', hrun, hbank, hdraws⟩

/-- Settles O53: with no other agent no bit is written but by `DIO.WRRB` itself, which drives each
as it does among others (O51). -/
theorem dioWrrbDrivesLatch : Obligations.DioWrrbDrivesLatch := by
  intro s ps values hk hE hb hl
  obtain ⟨t', t, hrun', hrun, hbank, -⟩ := dioWrrb_alone ps hb hl hE
  obtain ⟨u, hrunU, -, hlatch, hfselv, hmem⟩ :=
    dioWrrbIsAtomicPerBit s.alone _ ps values (by simpa) (by simpa) hl rfl
  cases hrun'.symm.trans hrunU
  have hturns := quiet_envTurns (s := s.alone) (n := dioWrrbAccesses (ps.zip values))
    (by simp [State.Quiet])
  refine ⟨t, hrun, fun q => ?_, hbank.fselv.trans (hfselv.trans hturns.fselv),
    hbank.mem.trans (hmem.trans hturns.mem)⟩
  rw [hbank.outv]
  exact hlatch q (by simp [State.EnvSpares])

end Sys2Proof.Machine
end

section
/-! PROOFS. `DIO.WRRB` on a MEM-kind bank under `EXCL` (42_dio_batch.md R171): writes at rising
offsets all stand afterwards, and leave every byte elsewhere. -/

namespace Sys2Proof.Machine

/-! ### What writes leave in a MEM-kind bank (20_memory.md R51, R54) -/

/-- The access is a write of 4 bytes. -/
def IsWrite4 (e : Access) : Prop := e = writeEntry e.addr e.value

/-- With no other agent a write of a trace is the bank's write. -/
theorem afterAccesses_cons_write {s : State} {e : Access} (hs : s.env = []) (he : IsWrite4 e)
    (rest : List Access) :
    s.afterAccesses (e :: rest) = (s.bankWrite e.addr .w4 e.value).afterAccesses rest := by
  have hstep : s.afterAccesses (e :: rest) =
      (s.envTurn.bankWrite e.addr .w4 e.value).afterAccesses rest := by
    rw [he]
    rfl
  rw [hstep, envTurn_of_env_nil hs]

/-- What a MEM-kind bank reads as depends on the bytes read alone (20_memory.md R53). -/
theorem peek_mem_congr {s t : State} (hk : s.cfg.kind = .mem) (hc : t.cfg = s.cfg) {a : Nat}
    {w : AccessWidth} (h : ∀ k, a ≤ k → k < a + w.bytes → t.mem.byteAt k = s.mem.byteAt k) :
    t.peek a w = s.peek a w := by
  rw [peek_mem hk, peek_mem (hc ▸ hk), hc]
  congr 1
  refine List.ext_getElem (by simp) fun i hi _ => ?_
  simp only [Memory.length_bytesAt] at hi
  rw [Memory.getElem_bytesAt, Memory.getElem_bytesAt, h _ (by omega) (by omega)]

section Writes

variable {s : State} {made : List Access}

/-- Writes to a MEM-kind bank leave the registers, the parameters and every byte elsewhere. -/
theorem afterAccesses_frame (hk : s.cfg.kind = .mem) (hs : s.env = [])
    (hmade : ∀ e ∈ made, IsWrite4 e) :
    (s.afterAccesses made).cfg = s.cfg ∧ (s.afterAccesses made).fselv = s.fselv ∧
      (s.afterAccesses made).outv = s.outv ∧
      ∀ k, (∀ e ∈ made, k < e.addr ∨ e.addr + 4 ≤ k) →
        (s.afterAccesses made).mem.byteAt k = s.mem.byteAt k := by
  induction made generalizing s with
  | nil => exact ⟨rfl, rfl, rfl, fun _ _ => rfl⟩
  | cons d rest ih =>
    obtain ⟨hd, hrest⟩ := List.forall_mem_cons.mp hmade
    obtain ⟨hcfg, hfselv, houtv, hbyte⟩ := ih (s := s.bankWrite d.addr .w4 d.value)
      (by simpa using hk) (by simpa using hs) hrest
    rw [afterAccesses_cons_write hs hd]
    refine ⟨hcfg.trans (by simp), hfselv.trans (by simp [State.bankWrite, hk]),
      houtv.trans (by simp [State.bankWrite, hk]), fun k hout => ?_⟩
    obtain ⟨hk4, hout⟩ := List.forall_mem_cons.mp hout
    rw [hbyte k hout, bankWrite_mem hk, Memory.byteAt_storeBytes,
      if_neg (by simp only [length_splitBytes, AccessWidth.bytes]; omega)]

/-- Writes at rising offsets all stand afterwards. -/
theorem afterAccesses_peek (hk : s.cfg.kind = .mem) (hs : s.env = [])
    (hmade : ∀ e ∈ made, IsWrite4 e)
    (hrise : made.Pairwise fun d e => d.addr + 4 ≤ e.addr) :
    ∀ e ∈ made, (s.afterAccesses made).peek e.addr .w4 = e.value := by
  induction made generalizing s with
  | nil => exact fun _ he => nomatch he
  | cons d rest ih =>
    obtain ⟨hd, hrest⟩ := List.forall_mem_cons.mp hmade
    obtain ⟨habove, hrise⟩ := List.pairwise_cons.mp hrise
    have hk' : (s.bankWrite d.addr .w4 d.value).cfg.kind = .mem := by simpa using hk
    have hs' : (s.bankWrite d.addr .w4 d.value).env = [] := by simpa using hs
    rw [afterAccesses_cons_write hs hd]
    refine List.forall_mem_cons.mpr ⟨?_, ih hk' hs' hrest hrise⟩
    obtain ⟨hcfg, -, -, hbyte⟩ := afterAccesses_frame hk' hs' hrest
    have hstands := peek_mem_congr (a := d.addr) (w := .w4) hk' hcfg fun k _ hlt =>
      hbyte k fun e he => .inl (lt_of_lt_of_le hlt (habove e he))
    exact hstands.trans (memWriteThenMemRead s d.addr .w4 d.value hk d.value.isLt).1

end Writes

/-! ### The writes of a batch -/

theorem batchLevelWrites_isWrite4 (pvs : List (Pin × Option Bool)) :
    ∀ e ∈ batchLevelWrites pvs, IsWrite4 e := by
  intro e he
  obtain ⟨level, r, rfl⟩ := mem_batchLevelWrites he
  rfl

/-- Set before clear, register 0 before register 1: the offsets rise (42_dio_batch.md R171). -/
theorem batchLevelWrites_rise (pvs : List (Pin × Option Bool)) :
    (batchLevelWrites pvs).Pairwise fun d e => d.addr + 4 ≤ e.addr := by
  have hmasks : (batchMasks pvs).Pairwise fun d e => d.1 + 4 ≤ e.1 := by
    simp [batchMasks, setOffset, clrOffset]
  exact List.pairwise_map.mpr (hmasks.filter _)

/-- The bank after the accesses of a `DIO.WRRB` with no other agent: its reads change nothing. -/
theorem alone_afterBatch (s : State) (v0 v1 : Word) (pvs : List (Pin × Option Bool)) :
    s.alone.afterAccesses (batchAccesses v0 v1 pvs) =
      s.alone.afterAccesses (batchLevelWrites pvs) := by
  show s.alone.envTurn.envTurn.afterAccesses (batchLevelWrites pvs) = _
  rw [alone_envTurn, alone_envTurn]

/-- Under `EXCL` `DIO.WRRB` leaves the bank it found at its first access with its masks written; on
a MEM-kind bank it draws nothing. -/
theorem dioWrrb_excl_bank {s : State} (ps : List Pin) {values : List (Option Bool)}
    (hb : 0x3C ≤ s.cfg.bankSize) (hl : ps.length ≤ values.length)
    (hE : s.Excl (dioWrrbAccesses (ps.zip values))) :
    ∃ t, exec (.dioWrrb (ps.map pinWord) values) s = .next t ∧
      SameBank (s.alone.afterAccesses (batchLevelWrites (ps.zip values))) t ∧
      (s.cfg.kind = .mem → t.draws = s.draws) := by
  have hb' : 0x3C ≤ s.alone.cfg.bankSize := by simpa using hb
  obtain ⟨t', t, hrun', hrun, hbank, hdraws⟩ := dioWrrb_alone ps hb hl hE
  refine ⟨t, hrun, ?_, fun hk => ?_⟩
  · obtain ⟨u, v0, v1, hrunU, -, -, htrace⟩ := dioWrrb_spec ps hb' hl
    cases hrun'.symm.trans hrunU
    obtain ⟨made, hmade, -, hleft⟩ := exec_accesses hrun'
    obtain rfl := List.append_cancel_left (hmade.symm.trans htrace)
    exact alone_afterBatch s v0 v1 _ ▸ hleft.bank.trans hbank
  · obtain ⟨u, v0, v1, hload, hctl, -, -, -, -, hquiet, -⟩ := loadSnapl_spec hb'
    obtain ⟨-, -, hnone⟩ := hquiet (by simp [State.Quiet]) (by simpa using hk)
    rw [hdraws, dioWrrb_draws hb' hl hload hctl hrun', hnone, alone_draws]

/-- Settles O54: with no other agent the bank is the one found with the masks written. -/
theorem dioWrrbStoresMasks : Obligations.DioWrrbStoresMasks := by
  intro s ps values hk hE hb hl
  obtain ⟨t, v0, v1, hrun, hread, hended, -⟩ := dioWrrb_spec ps hb hl
  obtain ⟨t', hrun', hbank, hdraws⟩ := dioWrrb_excl_bank ps hb hl hE
  cases hrun.symm.trans hrun'
  rw [excl_levels_mem hk (excl_mono hE (Nat.le_add_right 2 _))] at hread
  cases hread
  have hkA : s.alone.cfg.kind = .mem := by simpa using hk
  have hwrites := batchLevelWrites_isWrite4 (ps.zip values)
  have hstand := afterAccesses_peek hkA (alone_env s) hwrites (batchLevelWrites_rise _)
  obtain ⟨hcfg, hfselv, houtv, hbyte⟩ := afterAccesses_frame hkA (alone_env s) hwrites
  refine ⟨t, hrun, hended, fun e he => ?_, fun a ha => ?_, hbank.fselv.trans hfselv,
    hbank.outv.trans houtv, hdraws hk⟩
  · rw [← hstand e he]
    refine peek_mem_congr (hcfg ▸ hkA) ?_ fun k _ _ => by rw [hbank.mem]
    rw [hended.cfg, hcfg, alone_cfg]
  · rw [hbank.mem, hbyte a ha, alone_mem]

end Sys2Proof.Machine
end

section
/-! PROOFS. `SPI.BUILD` (43_spi_fragmenter.md R190 to R193): the plan case by case, the laws it
obeys, and the response words the command ends with in every state. -/

namespace Sys2Proof.Machine

/-! ### The plan, case by case (43_spi_fragmenter.md R190) -/

theorem buildTransfers_empty (extra : Nat) (delay speed : Word) :
    buildTransfers 0 extra delay speed = [] := rfl

theorem buildTransfers_whole {len : Nat} (delay speed : Word) (hlen : 0 < len) :
    buildTransfers len 0 delay speed = [⟨0, len, 8, delay, speed⟩] := by
  by_cases h1 : len = 1 <;> simp [buildTransfers, hlen.ne', h1]

theorem buildTransfers_lastByte {extra : Nat} (delay speed : Word) (hextra : 0 < extra) :
    buildTransfers 1 extra delay speed = [⟨0, 1, extra, delay, speed⟩] := by
  simp [buildTransfers, hextra.ne']

theorem buildTransfers_split {len extra : Nat} (delay speed : Word) (hlen : 1 < len)
    (hextra : 0 < extra) :
    buildTransfers len extra delay speed =
      [⟨0, len - 1, 8, delay, speed⟩, ⟨len - 1, 1, extra, delay, speed⟩] := by
  have h0 : len ≠ 0 := by omega
  simp [buildTransfers, h0, hlen.ne', hextra.ne']

/-- The four cases of the plan of a buffer, and what each answers. -/
theorem buildTransfers_cases (len extra : Nat) (delay speed : Word) :
    (len = 0 ∧ buildTransfers len extra delay speed = []) ∨
    (0 < len ∧ extra = 0 ∧
      buildTransfers len extra delay speed = [⟨0, len, 8, delay, speed⟩]) ∨
    (len = 1 ∧ 0 < extra ∧
      buildTransfers len extra delay speed = [⟨0, 1, extra, delay, speed⟩]) ∨
    (1 < len ∧ 0 < extra ∧ buildTransfers len extra delay speed =
      [⟨0, len - 1, 8, delay, speed⟩, ⟨len - 1, 1, extra, delay, speed⟩]) := by
  rcases Nat.eq_zero_or_pos len with rfl | hlen
  · exact .inl ⟨rfl, buildTransfers_empty extra delay speed⟩
  rcases Nat.eq_zero_or_pos extra with rfl | hextra
  · exact .inr (.inl ⟨hlen, rfl, buildTransfers_whole delay speed hlen⟩)
  rcases eq_or_lt_of_le (Nat.succ_le_of_lt hlen) with rfl | hlen
  · exact .inr (.inr (.inl ⟨rfl, hextra, buildTransfers_lastByte delay speed hextra⟩))
  · exact .inr (.inr (.inr ⟨hlen, hextra, buildTransfers_split delay speed hlen hextra⟩))

/-! ### Tiling (43_spi_fragmenter.md R193 (b)) -/

/-- The descriptors cover the bytes from `a` up to `b` in order, with no gap and no overlap. -/
def Tiles (b : Nat) : Nat → List Descriptor → Prop
  | a, [] => a = b
  | a, x :: rest => x.off = a ∧ Tiles b (a + x.len) rest

theorem Tiles.head_off {a b : Nat} {ds : List Descriptor} (h : Tiles b a ds) {x : Descriptor}
    (hx : ds[0]? = some x) : x.off = a := by
  cases ds with
  | nil => cases hx
  | cons d rest =>
    cases hx
    exact h.1

theorem Tiles.next_off {a b : Nat} {ds : List Descriptor} (h : Tiles b a ds) {k : Nat}
    {x y : Descriptor} (hx : ds[k]? = some x) (hy : ds[k + 1]? = some y) :
    y.off = x.off + x.len := by
  induction ds generalizing a k with
  | nil => cases hx
  | cons d rest ih =>
    obtain ⟨hoff, hrest⟩ := h
    cases k with
    | zero =>
      cases hx
      rw [hoff]
      exact hrest.head_off hy
    | succ k => exact ih hrest hx hy

theorem Tiles.sum_len {a b : Nat} {ds : List Descriptor} (h : Tiles b a ds) :
    a + (ds.map Descriptor.len).sum = b := by
  induction ds generalizing a with
  | nil => exact h
  | cons d rest ih => rw [List.map_cons, List.sum_cons, ← Nat.add_assoc, ih h.2]

theorem buildTransfers_tiles (len extra : Nat) (delay speed : Word) :
    Tiles len 0 (buildTransfers len extra delay speed) := by
  rcases buildTransfers_cases len extra delay speed with
    ⟨rfl, h⟩ | ⟨-, -, h⟩ | ⟨rfl, -, h⟩ | ⟨hlen, -, h⟩ <;> rw [h]
  · exact rfl
  · exact ⟨rfl, Nat.zero_add len⟩
  · exact ⟨rfl, rfl⟩
  · exact ⟨rfl, (Nat.zero_add _).symm, show 0 + (len - 1) + 1 = len by omega⟩

/-! ### Number, bits per word and timing of the descriptors (43_spi_fragmenter.md R193) -/

theorem length_buildTransfers_cases (len extra : Nat) (delay speed : Word) :
    (len = 0 ∧ (buildTransfers len extra delay speed).length = 0) ∨
    (0 < len ∧ (extra = 0 ∨ len = 1) ∧ (buildTransfers len extra delay speed).length = 1) ∨
    (1 < len ∧ 0 < extra ∧ (buildTransfers len extra delay speed).length = 2) := by
  rcases buildTransfers_cases len extra delay speed with
    ⟨hlen, h⟩ | ⟨hlen, hextra, h⟩ | ⟨hlen, -, h⟩ | ⟨hlen, hextra, h⟩ <;> rw [h]
  · exact .inl ⟨hlen, rfl⟩
  · exact .inr (.inl ⟨hlen, .inl hextra, rfl⟩)
  · exact .inr (.inl ⟨hlen ▸ Nat.one_pos, .inr hlen, rfl⟩)
  · exact .inr (.inr ⟨hlen, hextra, rfl⟩)

/-- A plan that is not empty is descriptors of full 8-bit words and then a last one, which has
`extra_bits` per word if there are any and covers one byte where they are fewer than 8. -/
theorem buildTransfers_eq_full_append_last {len : Nat} (extra : Nat) (delay speed : Word)
    (hlen : 0 < len) :
    ∃ full last, buildTransfers len extra delay speed = full ++ [last] ∧
      (∀ x ∈ full, x.bpw = 8) ∧ last.bpw = (if extra = 0 then 8 else extra) ∧
      (last.bpw < 8 → last.len = 1) := by
  rcases buildTransfers_cases len extra delay speed with
    ⟨rfl, -⟩ | ⟨-, rfl, h⟩ | ⟨-, hextra, h⟩ | ⟨-, hextra, h⟩
  · exact absurd hlen (lt_irrefl 0)
  · exact ⟨[], _, h, by simp, rfl, fun h8 => absurd h8 (lt_irrefl 8)⟩
  · exact ⟨[], _, h, by simp, (if_neg hextra.ne').symm, fun _ => rfl⟩
  · exact ⟨[_], _, h, by simp, (if_neg hextra.ne').symm, fun _ => rfl⟩

theorem buildTransfers_timing {len extra : Nat} {delay speed : Word} {x : Descriptor}
    (hx : x ∈ buildTransfers len extra delay speed) : x.delay = delay ∧ x.speed = speed := by
  rcases buildTransfers_cases len extra delay speed with
    ⟨-, h⟩ | ⟨-, -, h⟩ | ⟨-, -, h⟩ | ⟨-, -, h⟩ <;> rw [h] at hx
  · cases hx
  · obtain rfl := List.mem_singleton.mp hx
    exact ⟨rfl, rfl⟩
  · obtain rfl := List.mem_singleton.mp hx
    exact ⟨rfl, rfl⟩
  · rcases List.mem_pair.mp hx with rfl | rfl <;> exact ⟨rfl, rfl⟩

section Bits

variable {len extra : Nat} {delay speed : Word} {x : Descriptor}

theorem buildTransfers_short_is_last {k : Nat}
    (hx : (buildTransfers len extra delay speed)[k]? = some x) (h8 : x.bpw ≠ 8) :
    k + 1 = (buildTransfers len extra delay speed).length := by
  rcases Nat.eq_zero_or_pos len with rfl | hlen
  · cases hx
  obtain ⟨full, last, hd, hfull, -⟩ := buildTransfers_eq_full_append_last extra delay speed hlen
  obtain ⟨hk, -⟩ := List.getElem?_eq_some_iff.mp hx
  rw [hd, List.length_append, List.length_singleton] at hk ⊢
  by_contra hne
  have hin : k < full.length := by omega
  rw [hd, List.getElem?_append_left hin] at hx
  exact h8 (hfull x (List.mem_of_getElem? hx))

theorem buildTransfers_last_bpw
    (hx : (buildTransfers len extra delay speed).getLast? = some x) :
    x.bpw = if extra = 0 then 8 else extra := by
  rcases Nat.eq_zero_or_pos len with rfl | hlen
  · cases hx
  obtain ⟨full, last, hd, -, hbpw, -⟩ := buildTransfers_eq_full_append_last extra delay speed hlen
  rw [hd, List.getLast?_concat] at hx
  cases hx
  exact hbpw

/-- A descriptor has full words, or `extra_bits` per word; then, if they are fewer than 8, it covers
one byte. -/
theorem buildTransfers_mem_bpw (hx : x ∈ buildTransfers len extra delay speed) :
    x.bpw = 8 ∨ (0 < extra ∧ x.bpw = extra ∧ (x.bpw < 8 → x.len = 1)) := by
  rcases Nat.eq_zero_or_pos len with rfl | hlen
  · cases hx
  obtain ⟨full, last, hd, hfull, hbpw, hone⟩ :=
    buildTransfers_eq_full_append_last extra delay speed hlen
  rw [hd, List.mem_append, List.mem_singleton] at hx
  rcases hx with hx | rfl
  · exact .inl (hfull x hx)
  rcases Nat.eq_zero_or_pos extra with rfl | hextra
  · exact .inl hbpw
  · exact .inr ⟨hextra, hbpw.trans (if_neg hextra.ne'), hone⟩

end Bits

/-- Settles O58: the plan tiles `[0, len)`, and is full words up to its last descriptor. -/
theorem spiPlanTilesTheBuffer : Obligations.SpiPlanTilesTheBuffer := by
  intro len extra delay speed hextra
  have hlength := length_buildTransfers_cases len extra delay speed
  have htiles := buildTransfers_tiles len extra delay speed
  refine ⟨by omega, by omega, by omega, fun x => htiles.head_off, fun k x y => htiles.next_off,
    (Nat.zero_add _).symm.trans htiles.sum_len, fun k x => buildTransfers_short_is_last,
    fun x hx => ?_, fun x hx h8 => ?_, fun x hx => ?_, fun x => buildTransfers_timing⟩
  · rw [buildTransfers_last_bpw hx]
    split_ifs <;> omega
  · rcases buildTransfers_mem_bpw hx with hfull | ⟨-, -, hone⟩
    · exact absurd hfull h8.ne
    · exact hone h8
  · rcases buildTransfers_mem_bpw hx with hfull | ⟨hpos, hbpw, -⟩ <;> omega

/-! ### The command (43_spi_fragmenter.md R190; 30_encoding.md R102) -/

/-- A command whose pseudocode answers and has changed nothing. -/
theorem endsUntouched_of_ok {i : Instr} {op : Op (List Word)} {s : State} {results : List Word}
    (hi : exec i s = runOp op s) (h : op s = .ok results s) :
    EndsUntouched i s (okResponse results) :=
  ⟨_, hi.trans (runOp_ok h), (SameControl.refl s).ended _, ⟨⟨rfl, rfl, rfl⟩, rfl, rfl, rfl⟩⟩

theorem checkExtraBits_of_gt {extra : BitVec 8} (h : 7 < extra.toNat) (s : State) :
    checkExtraBits extra s = .error (.raise .invalidArgument 0) s := by
  rw [checkExtraBits, if_pos h]
  rfl

theorem checkExtraBits_of_le {extra : BitVec 8} (h : extra.toNat ≤ 7) (s : State) :
    checkExtraBits extra s = .ok () s := by
  rw [checkExtraBits, if_neg (Nat.not_lt.mpr h)]
  rfl

theorem spiBuild_raises {extra : BitVec 8} (len tx rx delay speed : Word) (s : State)
    (h : 7 < extra.toNat) :
    EndsUntouched (.spiBuild len extra tx rx delay speed) s (errorResponse .invalidArgument 0) :=
  endsUntouched_of_raise rfl (Op.bind_error (checkExtraBits_of_gt h s))

theorem spiBuild_answers {len tx rx delay speed : Word} {extra : BitVec 8} {results : List Word}
    (s : State) (h : extra.toNat ≤ 7)
    (hwords : planWords tx rx (buildTransfers len.toNat extra.toNat delay speed) = results) :
    EndsUntouched (.spiBuild len extra tx rx delay speed) s (okResponse results) :=
  hwords ▸ endsUntouched_of_ok rfl (Op.bind_ok (checkExtraBits_of_le h s))

@[simp] theorem planWords_nil (tx rx : Word) : planWords tx rx [] = [] := rfl

/-- One descriptor is six words (30_encoding.md R102). -/
@[simp] theorem planWords_cons (tx rx delay speed : Word) (off n bpw : Nat)
    (rest : List Descriptor) :
    planWords tx rx (⟨off, n, bpw, delay, speed⟩ :: rest) =
      [tx + BitVec.ofNat 32 off, rx + BitVec.ofNat 32 off, BitVec.ofNat 32 n,
        BitVec.ofNat 32 bpw, delay, speed] ++ planWords tx rx rest := rfl

/-- The offset of the last byte as a word. -/
theorem ofNat_toNat_sub_one {len : Word} (h : 0 < len.toNat) :
    BitVec.ofNat 32 (len.toNat - 1) = len - 1 := by
  bv_omega

/-- Settles O57: after the check of `extra_bits` the words of the plan, case by case. -/
theorem spiBuildPlansTransfers : Obligations.SpiBuildPlansTransfers := by
  intro s len extra tx rx delay speed
  have hpos : len ≠ 0 → 0 < len.toNat := fun h => by bv_omega
  have hextraPos : extra ≠ 0 → 0 < extra.toNat := fun h => by bv_omega
  split_ifs with hextra hzero hfull hone hwhole
  · exact spiBuild_raises len tx rx delay speed s hextra
  all_goals rw [Nat.not_lt] at hextra
  · exact spiBuild_answers s hextra (by rw [hzero]; rfl)
  · obtain ⟨rfl, rfl⟩ := hfull
    refine spiBuild_answers s hextra ?_
    show planWords tx rx (buildTransfers 1 0 delay speed) = _
    rw [buildTransfers_whole _ _ Nat.one_pos]
    simp
  · subst hone
    refine spiBuild_answers s hextra ?_
    show planWords tx rx (buildTransfers 1 extra.toNat delay speed) = _
    rw [buildTransfers_lastByte _ _ (hextraPos fun he => hfull ⟨rfl, he⟩)]
    simp
  · subst hwhole
    refine spiBuild_answers s hextra ?_
    show planWords tx rx (buildTransfers len.toNat 0 delay speed) = _
    rw [buildTransfers_whole _ _ (hpos hzero)]
    simp
  · refine spiBuild_answers s hextra ?_
    have hlen : 1 < len.toNat := by bv_omega
    rw [buildTransfers_split _ _ hlen (hextraPos hwhole)]
    simp [ofNat_toNat_sub_one (hpos hzero)]

end Sys2Proof.Machine
end

section
/-! PROOFS. The errors of the pin commands on a large enough bank (60_exceptions.md R211 to R213):
an invalid pin, an invalid code, and operand lists that do not pair off. -/

namespace Sys2Proof.Machine

/-! ### An invalid pin (60_exceptions.md R211) -/

theorem parsePin_eq_none_iff {p : Word} : parsePin p = none ↔ 54 ≤ p.toNat := by
  unfold parsePin
  split_ifs with h
  · exact iff_of_false id (Nat.not_le.mpr h)
  · exact iff_of_true rfl (Nat.not_lt.mp h)

/-- One invalid pin, wherever it stands, and the batch is none. -/
theorem parsePins_eq_none {pins : List Word} (h : ∃ p ∈ pins, 54 ≤ p.toNat) :
    parsePins pins = none := by
  induction pins with
  | nil => simp at h
  | cons p pins ih =>
    rcases List.or_exists_of_exists_mem_cons h with hp | hrest
    · simp only [parsePins, parsePin_eq_none_iff.mpr hp]
    · simp only [parsePins, ih hrest]
      cases parsePin p <;> rfl

theorem checkPins_invalid {pins : List Word} (h : ∃ p ∈ pins, 54 ≤ p.toNat) (s : State) :
    checkPins pins s = .error (.raise .invalidPin 0) s := by
  simp only [checkPins, parsePins_eq_none h]
  rfl

/-- A command whose pseudocode begins with the bank test and the pin pre-pass
(41_pinmux_codec.md R153) raises there, whatever the rest of it is. -/
theorem pinCommand_invalidPin {i : Instr} {s : State} {pins : List Word}
    {body : List Pin → Op (List Word)} (hb : 0x3C ≤ s.cfg.bankSize)
    (h : ∃ p ∈ pins, 54 ≤ p.toNat)
    (hi : exec i s = runOp (do requirePinBank; let ps ← checkPins pins; body ps) s) :
    EndsUntouched i s (errorResponse .invalidPin 0) :=
  endsUntouched_of_raise hi <| (Op.bind_ok (requirePinBank_ok hb)).trans <|
    Op.bind_error (checkPins_invalid h s)

/-- Settles O37: the four pin operations begin with the pre-pass. -/
theorem invalidPinRaisesBeforeAnyAccess : Obligations.InvalidPinRaisesBeforeAnyAccess :=
  fun _ _ _ _ hb h =>
    ⟨pinCommand_invalidPin hb h rfl, pinCommand_invalidPin hb h rfl,
      pinCommand_invalidPin hb h rfl, pinCommand_invalidPin hb h rfl⟩

/-! ### The scan of the codes (41_pinmux_codec.md R151; 60_exceptions.md R212, R213) -/

theorem parseCode_of_le {c : Word} (h : c.toNat ≤ 7) : parseCode c = some (c.setWidth 3) :=
  if_pos h

theorem parseCode_of_gt {c : Word} (h : 7 < c.toNat) : parseCode c = none :=
  if_neg (Nat.not_le.mpr h)

/-- Scanning these pins and codes raises, from any state, and has changed only the masks. -/
def CodesRaise (ps : List Pin) (codes : List Word) (e : Err) (info : BitVec 8) : Prop :=
  ∀ s : State, ∃ work : WorkRegs,
    scanCodes ps codes s = .error (.raise e info) { s with work := work }

section Scan

variable {p : Pin} {ps : List Pin} {c : Word} {codes : List Word} {e : Err} {info : BitVec 8}

theorem codesRaise_invalid (h : 7 < c.toNat) :
    CodesRaise (p :: ps) (c :: codes) .invalidFunctionCode 0 := by
  intro s
  refine ⟨s.work, ?_⟩
  simp only [scanCodes, parseCode_of_gt h]
  rfl

theorem codesRaise_codesRanOut : CodesRaise (p :: ps) [] .arityMismatch 0 :=
  fun s => ⟨s.work, rfl⟩

/-- A surplus code is an error whatever its value. -/
theorem codesRaise_pinsRanOut : CodesRaise [] (c :: codes) .arityMismatch 1 :=
  fun s => ⟨s.work, rfl⟩

/-- A valid code only adds to the masks. -/
theorem CodesRaise.cons (hc : c.toNat ≤ 7) (h : CodesRaise ps codes e info) :
    CodesRaise (p :: ps) (c :: codes) e info := by
  intro s
  obtain ⟨work, hscan⟩ := h (s.accumulateCode p (c.setWidth 3))
  refine ⟨work, ?_⟩
  simp only [scanCodes, parseCode_of_le hc]
  exact (Op.bind_ok (update_run _ _)).trans hscan

/-- The scan goes in position order: past `n` paired valid codes it answers as from there. -/
theorem CodesRaise.of_drop {n : Nat} (hps : n ≤ ps.length) (hcodes : n ≤ codes.length)
    (hvalid : ∀ c ∈ codes.take n, c.toNat ≤ 7)
    (h : CodesRaise (ps.drop n) (codes.drop n) e info) : CodesRaise ps codes e info := by
  induction n generalizing ps codes with
  | zero => exact h
  | succ n ih =>
    match ps, codes, hps, hcodes with
    | p :: ps, c :: codes, hps, hcodes =>
      obtain ⟨hc, hrest⟩ := List.forall_mem_cons.mp hvalid
      exact (ih (Nat.le_of_succ_le_succ hps) (Nat.le_of_succ_le_succ hcodes) hrest h).cons hc

end Scan

/-- What the scan raises the command answers: no access comes before it. -/
theorem CodesRaise.endsUntouched {s : State} {ps : List Pin} {codes : List Word} {e : Err}
    {info : BitVec 8} (h : CodesRaise ps codes e info) (hb : 0x3C ≤ s.cfg.bankSize) :
    EndsUntouched (.fselSet (ps.map pinWord) codes) s (errorResponse e info) := by
  obtain ⟨work, hscan⟩ := h s.clearFselMasks
  have hrun : exec (.fselSet (ps.map pinWord) codes) s = .next (State.raise _ e info) :=
    runOp_raise <| (Op.bind_ok (requirePinBank_ok hb)).trans <| by
      rw [checkPins_pinWords, pure_bind]
      exact (Op.bind_ok (update_run _ _)).trans (Op.bind_error hscan)
  exact ⟨_, hrun, (SameControl.mk rfl rfl rfl rfl rfl).ended _, ⟨⟨rfl, rfl, rfl⟩, rfl, rfl, rfl⟩⟩

/-- Some paired code is invalid: the first such code raises, since the codes before it pass. -/
theorem codesRaise_of_exists_invalid {ps : List Pin} {codes : List Word}
    (h : ∃ c ∈ codes.take ps.length, 7 < c.toNat) :
    CodesRaise ps codes .invalidFunctionCode 0 := by
  induction ps generalizing codes with
  | nil => simp at h
  | cons p ps ih =>
    cases codes with
    | nil => simp at h
    | cons c codes =>
      rcases Nat.lt_or_ge 7 c.toNat with hc | hc
      · exact codesRaise_invalid hc
      · have hrest : ∃ d ∈ codes.take ps.length, 7 < d.toNat :=
          (List.or_exists_of_exists_mem_cons h).resolve_left (Nat.not_lt.mpr hc)
        exact (ih hrest).cons hc

/-- Settles O45. -/
theorem invalidCodeRaises : Obligations.InvalidCodeRaises :=
  fun _ _ _ hb h => (codesRaise_of_exists_invalid h).endsUntouched hb

/-- Valid codes that run out before the pins do. -/
theorem codesRaise_of_length_lt {ps : List Pin} {codes : List Word}
    (hvalid : ∀ c ∈ codes.take ps.length, c.toNat ≤ 7) (hl : codes.length < ps.length) :
    CodesRaise ps codes .arityMismatch 0 := by
  rw [List.take_of_length_le hl.le, ← List.take_length (l := codes)] at hvalid
  refine .of_drop hl.le le_rfl hvalid ?_
  rw [List.drop_length, List.drop_eq_getElem_cons hl]
  exact codesRaise_codesRanOut

/-- Pins that run out before their valid codes do. -/
theorem codesRaise_of_length_gt {ps : List Pin} {codes : List Word}
    (hvalid : ∀ c ∈ codes.take ps.length, c.toNat ≤ 7) (hl : ps.length < codes.length) :
    CodesRaise ps codes .arityMismatch 1 := by
  refine .of_drop le_rfl hl.le hvalid ?_
  rw [List.drop_length, List.drop_eq_getElem_cons hl]
  exact codesRaise_pinsRanOut

/-! ### The scan of the values (42_dio_batch.md R171; 60_exceptions.md R213) -/

/-- Too few values: the snapshot has been read when the scan raises, and nothing is written. -/
theorem dioWrrb_valuesRanOut {s : State} {ps : List Pin} {values : List (Option Bool)}
    (hb : 0x3C ≤ s.cfg.bankSize) (hl : values.length < ps.length) :
    ∃ (t : State) (v0 v1 : Word), exec (.dioWrrb (ps.map pinWord) values) s = .next t ∧
      Ended s (errorResponse .arityMismatch 0) t ∧
      t.trace = s.trace ++ [readEntry 0x34 v0, readEntry 0x38 v1] ∧
      SameBank (State.envTurns 2 s) t := by
  obtain ⟨u, v0, v1, hload, hctl, hbank, htrace, -⟩ := loadSnapl_spec hb
  obtain ⟨x, ⟨hge, -⟩ | ⟨-, hscan⟩, hx, -⟩ := scanLevels_spec ps values u.clearDioMasks.clearRes
  · exact absurd hl (Nat.not_lt.mpr hge)
  · have hrun : exec (.dioWrrb (ps.map pinWord) values) s = .next (x.raise .arityMismatch 0) :=
      runOp_raise <| (Op.bind_ok (requirePinBank_ok hb)).trans <| by
        rw [checkPins_pinWords, pure_bind]
        exact (Op.bind_ok hload).trans <| (Op.bind_ok (update_run _ _)).trans <|
          (Op.bind_ok (update_run _ _)).trans (Op.bind_error hscan)
    rw [hx] at hrun
    exact ⟨_, v0, v1, hrun, (hctl.trans ⟨rfl, rfl, rfl, rfl, rfl⟩).ended _, htrace,
      hbank.bank.trans ⟨rfl, rfl, rfl⟩⟩

/-- The scan never looks at a value past the last pin. -/
theorem scanLevels_take (ps : List Pin) (values : List (Option Bool)) :
    scanLevels ps (values.take ps.length) = scanLevels ps values := by
  induction ps generalizing values with
  | nil => cases values <;> rfl
  | cons p ps ih =>
    cases values with
    | nil => rfl
    | cons v values => simp only [List.length_cons, List.take_succ_cons, scanLevels, ih]

theorem dioWrrb_take (ps : List Pin) (values : List (Option Bool)) (s : State) :
    exec (.dioWrrb (ps.map pinWord) (values.take ps.length)) s =
      exec (.dioWrrb (ps.map pinWord) values) s := by
  simp only [exec, execDioWrrb, checkPins_pinWords, pure_bind, scanLevels_take]

/-- Settles O46. -/
theorem arityMismatchRaises : Obligations.ArityMismatchRaises :=
  ⟨fun _ _ _ hb hvalid =>
      ⟨fun hl => (codesRaise_of_length_lt hvalid hl).endsUntouched hb,
        fun hl => (codesRaise_of_length_gt hvalid hl).endsUntouched hb⟩,
    fun s ps values hb =>
      ⟨dioWrrb_valuesRanOut hb, fun _ => (dioWrrb_take ps values s).symm⟩⟩

end Sys2Proof.Machine
end

section
/-! PROOFS. Reset between operations (70_reset_and_hazards.md R250; 10_state.md R39) and the lost
update of `FSEL.SET` (70_reset_and_hazards.md R252; 20_memory.md R64): its write is computed from
what its read found, and lands after whatever the environment wrote in the gap between the two. -/

namespace Sys2Proof.Machine

/-! ### Reset between operations -/

theorem portStep_of_reset {s : State} {rest : List PortEvent} (h : s.inbox = .reset :: rest) :
    s.portStep = { s with seq := .idle, cmd := [], work := WorkRegs.dropped, inbox := rest } := by
  simp only [State.portStep, h, State.resetEvent]

/-- Settles O9: the reset event moves `SEQ`, the command, the working registers and the command
port, and nothing else. -/
theorem resetEventLeavesBankUntouched : Obligations.ResetEventLeavesBankUntouched := by
  intro s rest hs hi
  refine ⟨_, step_of_idle hs, ?_⟩
  rw [portStep_of_reset hi]
  exact ⟨rfl, ⟨⟨rfl, rfl, rfl⟩, rfl, rfl, rfl⟩, rfl, rfl, rfl, rfl⟩

/-! ### A read-modify-write whatever the environment does (41_pinmux_codec.md R151) -/

/-- The bank after the read-modify-write of register `r` under the masks `wm` and `vm`: the value
read after the environment's first turn is merged and written after its second. -/
def State.afterMerge (s : State) (r : Fin 6) (wm vm : Word) : State :=
  (State.envTurns 2 s).bankWrite (fselOffset r) .w4
    (mergeField (s.envTurn.peek (fselOffset r) .w4) wm vm)

/-- One register of step 5 with a mask that is not zero. -/
theorem applyFselReg_afterMerge {s : State} (hb : 0x3C ≤ s.cfg.bankSize) {r : Fin 6}
    (h : s.work.wm[r] ≠ 0) :
    ∃ t, applyFselReg r s = .ok () t ∧ SameControl s t ∧ t.work = s.work ∧
      SameForBank (s.afterMerge r s.work.wm[r] s.work.vm[r]) t := by
  obtain ⟨hl, ha⟩ := fselOffset_legal r
  obtain ⟨t1, old, hread, hctl1, hwork1, hbank1, -, hold, -⟩ := fselRead_spec hb r
  obtain ⟨t2, hwrite, hctl2, hwork2, hbank2, -⟩ :=
    memWrite_spec (s := t1) (addr := fselOffset r) (w := .w4)
      (mergeField old s.work.wm[r] s.work.vm[r])
      ((Nat.le_trans hl hb).trans_eq (congrArg Params.bankSize hctl1.cfg.symm)) ha
  have hrun : applyFselReg r s = .ok () t2 :=
    (Op.bind_ok (readState_run s)).trans <| by
      rw [if_pos h]
      exact (Op.bind_ok hread).trans hwrite
  subst hold
  exact ⟨t2, hrun, hctl1.trans hctl2, hwork2.trans hwork1,
    (bankWrite_sameForBank (envTurn_sameForBank hbank1) _ _ _).trans hbank2⟩

/-- Registers with zero masks are passed over. -/
theorem applyFsel_skip {rs : List (Fin 6)} {s : State} (h : ∀ q ∈ rs, s.work.wm[q] = 0) :
    applyFsel rs s = .ok () s := by
  induction rs with
  | nil => rfl
  | cons r rs ih =>
    obtain ⟨hr, hrs⟩ := List.forall_mem_cons.mp h
    exact (Op.bind_ok (applyFselReg_skip hr)).trans (ih hrs)

/-- Step 5 where only register `r` has a mask that is not zero is the step of that register. -/
theorem applyFsel_eq_applyFselReg {rs : List (Fin 6)} {s : State}
    (hb : 0x3C ≤ s.cfg.bankSize) {r : Fin 6} (hn : rs.Nodup) (hr : r ∈ rs)
    (h : s.work.wm[r] ≠ 0) (hz : ∀ q : Fin 6, q ≠ r → s.work.wm[q] = 0) :
    applyFsel rs s = applyFselReg r s := by
  induction rs with
  | nil => cases hr
  | cons q rs ih =>
    obtain ⟨hq, hn⟩ := List.nodup_cons.mp hn
    by_cases hqr : q = r
    · subst hqr
      obtain ⟨t, hrun, -, hwork, -⟩ := applyFselReg_afterMerge hb h
      have hrest : ∀ p ∈ rs, t.work.wm[p] = 0 := fun p hp =>
        hwork ▸ hz p fun hpq => hq (hpq ▸ hp)
      exact ((Op.bind_ok hrun).trans (applyFsel_skip hrest)).trans hrun.symm
    · exact (Op.bind_ok (applyFselReg_skip (hz q hqr))).trans
        (ih hn (List.mem_of_ne_of_mem (Ne.symm hqr) hr))

/-- Only the bank, its parameters and the schedule matter. -/
theorem afterMerge_sameForBank {s t : State} (h : SameForBank s t) (r : Fin 6) (wm vm : Word) :
    SameForBank (s.afterMerge r wm vm) (t.afterMerge r wm vm) := by
  have hturn := envTurn_sameForBank h
  have hpeek : t.envTurn.peek (fselOffset r) .w4 = s.envTurn.peek (fselOffset r) .w4 :=
    fselPeek_congr hturn.bank hturn.cfg r
  rw [State.afterMerge, State.afterMerge, hpeek]
  exact bankWrite_sameForBank (envTurns_sameForBank h 2) _ _ _

/-- `FSEL.SET` of a batch whose pins all stand in register `r`: the bank is what the
read-modify-write of that register leaves. -/
theorem fselSet_afterMerge {s : State} {pcs : List (Pin × BitVec 3)} {r : Fin 6}
    (hb : 0x3C ≤ s.cfg.bankSize) (hr : ∀ q, (∃ pc ∈ pcs, fselReg pc.1 = q) ↔ q = r) :
    ∃ t, exec (.fselSet ((pcs.map Prod.fst).map pinWord) (pcs.map fun pc => codeWord pc.2)) s =
        .next t ∧
      Ended s (okResponse []) t ∧
      SameBank (s.afterMerge r (batchWM pcs r) (batchVM pcs r)) t := by
  obtain ⟨u, hscan, hctlU, hbankU, -, -, hwm, hvm⟩ := scanBatch_spec pcs s
  have hbU : 0x3C ≤ u.cfg.bankSize := hctlU.cfg ▸ hb
  have hmask : ∀ q : Fin 6, u.work.wm[q] ≠ 0 ↔ q = r := fun q => by
    rw [hwm, batchWM_ne_zero_iff, hr]
  have hnonzero : u.work.wm[r] ≠ 0 := (hmask r).mpr rfl
  obtain ⟨x, hreg, hctlX, -, hbankX⟩ := applyFselReg_afterMerge hbU hnonzero
  have happly : applyFsel fselRegs u = .ok () x :=
    (applyFsel_eq_applyFselReg hbU fselRegs_nodup (mem_fselRegs r) hnonzero
      fun q hq => not_not.mp ((hmask q).not.mpr hq)).trans hreg
  have hrun : exec (.fselSet ((pcs.map Prod.fst).map pinWord)
      (pcs.map fun pc => codeWord pc.2)) s = .next (x.respondOk []) :=
    runOp_ok <| (Op.bind_ok (requirePinBank_ok hb)).trans <| by
      rw [checkPins_pinWords, pure_bind]
      exact (Op.bind_ok (update_run _ _)).trans <| (Op.bind_ok hscan).trans <| Op.bind_ok happly
  rw [hwm, hvm] at hbankX
  exact ⟨_, hrun, (hctlU.trans hctlX).ended _,
    ((afterMerge_sameForBank hbankU r _ _).trans hbankX).bank.trans ⟨rfl, rfl, rfl⟩⟩

/-! ### Another agent's write in the gap (70_reset_and_hazards.md R252) -/

/-- A function-select register of a GPIO-kind bank reads as it stands (10_state.md R29). -/
theorem fselPeek_gpio {s : State} (hk : s.cfg.kind = .gpio) (r : Fin 6) :
    s.peek (fselOffset r) .w4 = s.fselv[r] := by
  rw [State.peek, bankRead_gpio_w4 hk (fselOffset_legal r).2, gpioRegAt_fselOffset]
  rfl

/-- Another agent's 32-bit write of a function-select register is a legal access. -/
theorem envWrite_fsel {s : State} (hb : 0x3C ≤ s.cfg.bankSize) (r : Fin 6) (x : Word) :
    s.envWrite { addr := fselOffset r, width := .w4, value := x } =
      s.bankWrite (fselOffset r) .w4 x := by
  obtain ⟨hl, ha⟩ := fselOffset_legal r
  have hin : fselOffset r + 4 ≤ s.cfg.bankSize := Nat.le_trans hl hb
  simp [State.envWrite, State.inBank, aligned, AccessWidth.bytes, hin, ha]

/-- A write of register `r` in the gap between the read and the write is lost: the register ends as
computed from what it held before both, and the rest of the bank is as it was. -/
theorem afterMerge_of_write_between {s : State} (hk : s.cfg.kind = .gpio)
    (hb : 0x3C ≤ s.cfg.bankSize) {r : Fin 6} {x : Word}
    (henv : s.env = [[], [{ addr := fselOffset r, width := .w4, value := x }]]) (wm vm : Word) :
    (s.afterMerge r wm vm).fselv = s.fselv.set r (mergeField s.fselv[r] wm vm) ∧
      (s.afterMerge r wm vm).outv = s.outv ∧ (s.afterMerge r wm vm).mem = s.mem := by
  have hold : s.envTurn.peek (fselOffset r) .w4 = s.fselv[r] := by
    rw [fselPeek_gpio (by simpa using hk), State.envTurn, henv]
    rfl
  have hgap : State.envTurns 2 s = { s with env := [] }.bankWrite (fselOffset r) .w4 x := by
    rw [← envWrite_fsel (s := { s with env := [] }) hb]
    simp only [State.envTurns, State.envTurn, henv, State.envWrites]
  have hkG : (State.envTurns 2 s).cfg.kind = .gpio := by simpa [hgap] using hk
  obtain ⟨houtvG, hgpioG, -⟩ := bankWrite_fsel { s with env := [] } r x
  obtain ⟨hmemG, hfselvG⟩ := hgpioG hk
  obtain ⟨houtv, hgpio, -⟩ := bankWrite_fsel (State.envTurns 2 s) r (mergeField s.fselv[r] wm vm)
  obtain ⟨hmem, hfselv⟩ := hgpio hkG
  rw [State.afterMerge, hold]
  refine ⟨?_, ?_, ?_⟩
  · rw [hfselv, hgap, hfselvG, Vector.set_set]
  · rw [houtv, hgap, houtvG]
  · rw [hmem, hgap, hmemG]

/-- The merge of a batch of one pin: its field is replaced by the code. -/
theorem mergeField_one (old : Word) (p : Pin) (c : BitVec 3) :
    mergeField old (batchWM [(p, c)] (fselReg p)) (batchVM [(p, c)] (fselReg p)) =
      (old &&& ~~~(fieldMask p)) ||| fieldValue p c := by
  have hwm : batchWM [(p, c)] (fselReg p) = fieldMask p := by
    simp [batchWM, batchWriteMask, orOver, fieldMask, fselShift]
  have hvm : batchVM [(p, c)] (fselReg p) = fieldValue p c := by
    simp [batchVM, batchValueMask, orOver, fieldValue, codeWord, fselShift]
  have hin : fieldValue p c &&& fieldMask p = fieldValue p c := by
    refine BitVec.eq_of_getLsbD_eq fun k _ => ?_
    rw [BitVec.getLsbD_and]
    exact Bool.and_eq_left_iff_imp.mpr getLsbD_fieldMask_of_fieldValue
  rw [mergeField, hwm, hvm, hin]

/-- Settles O47: the read finds the register as it stood, and the write comes after the other
agent's. -/
theorem lostUpdateInFselSet : Obligations.LostUpdateInFselSet := by
  intro s p c x hk hb henv
  obtain ⟨t, hrun, hended, hbank⟩ :=
    fselSet_afterMerge (pcs := [(p, c)]) (r := fselReg p) hb (by simp [eq_comm])
  obtain ⟨hfselv, houtv, hmem⟩ := afterMerge_of_write_between (r := fselReg p) hk hb henv
    (batchWM [(p, c)] (fselReg p)) (batchVM [(p, c)] (fselReg p))
  rw [mergeField_one] at hfselv
  exact ⟨t, hrun, hended, hbank.fselv.trans hfselv, hbank.outv.trans houtv, hbank.mem.trans hmem⟩

end Sys2Proof.Machine
end

section
/-! PROOFS. The worked encodings (30_encoding.md section 7, 95_test_vectors.md E1 and E2): the words
of each are what the encoder writes for its command, so the decoder reads the command back. -/

namespace Sys2Proof

theorem decode_eq_ok_of_encode_eq {ws : List Word} {i : Instr} (hw : i.wellFormed = true)
    (h : encode i = ws) : decode ws = .ok i :=
  h ▸ decodeReadsBackEncode i hw

/-- Settles O5: each of the twelve is an expressible command beside its own encoding. -/
theorem workedEncodingsDecode : Obligations.WorkedEncodingsDecode := by
  refine ⟨?_, ?_, ?_, ?_, ?_, ?_, ?_, ?_, ?_, ?_, ?_, ?_⟩
  all_goals exact decode_eq_ok_of_encode_eq (by decide) (by decide)

end Sys2Proof
end
